-- ==== Sys2Proof/Word.lean ====
section
/-!
DEFINITION. The octet (R6: `OCTET` is 8 bits). Every other width of this hardware is the width of one named
register or request field and stands where that register is declared.
-/

namespace Sys2Proof

/-- One 8-bit unit (R6, R7). -/
abbrev Byte := BitVec 8

end Sys2Proof
end

