-- ==== Sys2Proof/Config.lean ====
section
/-!
DEFINITION. What an implementation fixes. R6: nothing of this block is a parameter or option, and 92_eei_decisions.md
leaves no point open, so there is no free value and no opaque constant here. The two capacities below are the shape of
State itself; every other size constant of R6, which a test of the wire format could show wrong, is in
Sys2Proof/Machine/Tables.lean.
-/

namespace Sys2Proof.Config

/-- `BUF_CAP` (R6, R21): cells of the frame buffer, offsets 0 to 535. -/
def bufCap : Nat := 536

/-- `DATA_CAP` (R6, R28): cells of the variable data array. -/
def dataCap : Nat := 512

end Sys2Proof.Config
end

