-- ==== Sys2Proof/Syntax.lean ====
section
/-!
DEFINITION. The syntax: operation requests (R31, R84), the rows of spec/opcode_table.json as one inductive `Instr`
(R80, R111), the names of the message registers (R24 to R27), the host's actions (R39, R260) and the input of one step.
-/

namespace Sys2Proof

/-- An operation request (R31): the operation select and the operand fields. -/
structure Request where
  /-- `OP`, the operation select (R84). -/
  op  : BitVec 8
  /-- `A`, the octet operand of RDBITS and WRBITS. -/
  a   : BitVec 8
  /-- `LO`, the low end of the bit range. -/
  lo  : BitVec 3
  /-- `HI`, the high end of the bit range. -/
  hi  : BitVec 3
  /-- `OFF`, an octet offset into `BUF`. -/
  off : BitVec 10
  /-- `VAL`, the 64-bit value operand. -/
  val : BitVec 64
deriving DecidableEq, Repr

/-- The bits of a frame's first two octets that its row of the table leaves open (R90, R111), but for ADP's message
type: the control/data flag, the status/version flag and the version. -/
structure FrameBits where
  cd      : BitVec 1
  sv      : BitVec 1
  version : BitVec 3
deriving DecidableEq, Repr

/-- One constructor per row of spec/opcode_table.json: the eighteen operations of R84, then the thirty-three frame
rows of R100 to R106. A frame row's operands are the open bits of the 16-bit word `{BUF[0], BUF[1]}`. -/
inductive Instr where
  | rdbits (a : BitVec 8) (lo hi : BitVec 3)
  | wrbits (a : BitVec 8) (lo hi : BitVec 3) (val : BitVec 64)
  | rdbe16 (off : BitVec 10)
  | rdbe32 (off : BitVec 10)
  | rdbe64 (off : BitVec 10)
  | wrbe16 (off : BitVec 10) (val : BitVec 64)
  | wrbe32 (off : BitVec 10) (val : BitVec 64)
  | wrbe64 (off : BitVec 10) (val : BitVec 64)
  | cmpbe32 (off : BitVec 10) (val : BitVec 64)
  | dechdr
  | enchdr
  | decadp
  | encadp
  | decacmp
  | encacmp
  | decaecp
  | encaecp
  | decmsg
  | adp (p : FrameBits) (messageType : BitVec 4)
  | acmpConnectTxCommand (p : FrameBits)
  | acmpConnectTxResponse (p : FrameBits)
  | acmpDisconnectTxCommand (p : FrameBits)
  | acmpDisconnectTxResponse (p : FrameBits)
  | acmpGetTxStateCommand (p : FrameBits)
  | acmpGetTxStateResponse (p : FrameBits)
  | acmpConnectRxCommand (p : FrameBits)
  | acmpConnectRxResponse (p : FrameBits)
  | acmpDisconnectRxCommand (p : FrameBits)
  | acmpDisconnectRxResponse (p : FrameBits)
  | acmpGetRxStateCommand (p : FrameBits)
  | acmpGetRxStateResponse (p : FrameBits)
  | acmpGetTxConnectionCommand (p : FrameBits)
  | acmpGetTxConnectionResponse (p : FrameBits)
  | acmpReserved14 (p : FrameBits)
  | acmpReserved15 (p : FrameBits)
  | aecpAvdeccMessageCommand (p : FrameBits)
  | aecpAvdeccMessageResponse (p : FrameBits)
  | aecpAddressAccessCommand (p : FrameBits)
  | aecpAddressAccessResponse (p : FrameBits)
  | aecpAvcCommand (p : FrameBits)
  | aecpAvcResponse (p : FrameBits)
  | aecpVendorUniqueCommand (p : FrameBits)
  | aecpVendorUniqueResponse (p : FrameBits)
  | aecpReserved8 (p : FrameBits)
  | aecpReserved9 (p : FrameBits)
  | aecpReserved10 (p : FrameBits)
  | aecpReserved11 (p : FrameBits)
  | aecpReserved12 (p : FrameBits)
  | aecpReserved13 (p : FrameBits)
  | aecpExtendedCommand (p : FrameBits)
  | aecpExtendedResponse (p : FrameBits)
deriving DecidableEq, Repr

/-- The registers of group `H` (R24). -/
inductive HReg where
  | cd | subtype | sv | version | messageType | validTime | dataLength
deriving DecidableEq, Repr

/-- The registers of group `ADP` (R25). -/
inductive AdpReg where
  | entityId | vendorId | modelId | entityCapabilities | talkerStreamSources | talkerCapabilities
  | listenerStreamSinks | listenerCapabilities | controllerCapabilities | availableIndex | gmId
  | defaultAudioFormat | defaultVideoFormat | associationId | entityType
deriving DecidableEq, Repr

/-- The registers of group `ACMP` (R26). -/
inductive AcmpReg where
  | streamId | controllerId | talkerId | listenerId | talkerUniqueId | listenerUniqueId | destMac
  | connectionCount | sequenceId | flags | defaultFormat
deriving DecidableEq, Repr

/-- The registers of group `AECP` and of the variant groups `V0` to `V3` (R27). -/
inductive AecpReg where
  | targetId | controllerId | sequenceId
  | v0ModeLen | v0OuiFlags | v0TypeFlags | v0Index1 | v0Index2 | v0Index3
  | v1ModeLen | v2Length | v3ProtocolId
deriving DecidableEq, Repr

/-- A message register by its group and name (R24 to R27, R29). -/
inductive MsgReg where
  | h (r : HReg)
  | adp (r : AdpReg)
  | acmp (r : AcmpReg)
  | aecp (r : AecpReg)
deriving DecidableEq, Repr

/-- `H.status` is another name of `H.valid_time` (R24). -/
abbrev HReg.status : HReg := .validTime

/-- Width of a register of group `H` (R24). -/
def HReg.width : HReg → Nat
  | .cd => 1
  | .subtype => 7
  | .sv => 1
  | .version => 3
  | .messageType => 4
  | .validTime => 5
  | .dataLength => 11

/-- Width of a register of group `ADP` (R25). -/
def AdpReg.width : AdpReg → Nat
  | .entityId => 64
  | .vendorId => 32
  | .modelId => 32
  | .entityCapabilities => 32
  | .talkerStreamSources => 16
  | .talkerCapabilities => 16
  | .listenerStreamSinks => 16
  | .listenerCapabilities => 16
  | .controllerCapabilities => 32
  | .availableIndex => 32
  | .gmId => 64
  | .defaultAudioFormat => 32
  | .defaultVideoFormat => 32
  | .associationId => 64
  | .entityType => 32

/-- Width of a register of group `ACMP` (R26). -/
def AcmpReg.width : AcmpReg → Nat
  | .streamId => 64
  | .controllerId => 64
  | .talkerId => 64
  | .listenerId => 64
  | .talkerUniqueId => 16
  | .listenerUniqueId => 16
  | .destMac => 48
  | .connectionCount => 16
  | .sequenceId => 16
  | .flags => 16
  | .defaultFormat => 32

/-- Width of a register of the groups `AECP`, `V0` to `V3` (R27). -/
def AecpReg.width : AecpReg → Nat
  | .targetId => 64
  | .controllerId => 64
  | .sequenceId => 16
  | .v0ModeLen => 16
  | .v0OuiFlags => 32
  | .v0TypeFlags => 16
  | .v0Index1 => 16
  | .v0Index2 => 16
  | .v0Index3 => 16
  | .v1ModeLen => 16
  | .v2Length => 16
  | .v3ProtocolId => 48

/-- Width of a message register (R24 to R27): "a register holds an unsigned integer of exactly its stated width". -/
def MsgReg.width : MsgReg → Nat
  | .h r => r.width
  | .adp r => r.width
  | .acmp r => r.width
  | .aecp r => r.width

/-- What the host may read between operations (R39). -/
inductive Readable where
  | buf (off : BitVec 10)
  | len
  | reg (r : MsgReg)
  | data (i : BitVec 10)
  | dlen
  | res
  | err
  | errinfo
deriving DecidableEq, Repr

/-- What the host may do between operations (R39, R260, R278). -/
inductive HostAction where
  /-- The `RESET` event (R260). -/
  | reset
  /-- Load a raw message into `BUF` and set `LEN` to its length (R39). -/
  | loadBuffer (octets : List Byte)
  /-- Store one octet of the message in `BUF` (R39, R278). -/
  | storeOctet (off : BitVec 10) (octet : Byte)
  /-- Write a message register (R39). -/
  | setReg (r : MsgReg) (value : BitVec r.width)
  /-- Write `DATA` and `DLEN` (R39). -/
  | setData (octets : List Byte)
  /-- Read a register or cell (R39). -/
  | read (what : Readable)
deriving DecidableEq, Repr

/-- What one step takes from outside (R30, R31, R39): a request, a demand to decode the frame in `BUF` by the frame
rows of the opcode table, or a host action. DESIGN CHOICE (log 1, log 3). -/
inductive Input where
  | request (r : Request)
  | frame
  | host (a : HostAction)
deriving DecidableEq, Repr

/-- Why an encoding spells no instruction. -/
inductive DecodeError where
  /-- An `OP` value that R84 does not list (R85). -/
  | unassignedOp (op : BitVec 8)
  /-- A subtype other than 0x7a, 0x7b, 0x7c (R104, R111). -/
  | unknownSubtype (subtype : BitVec 7)
  /-- Fewer octets than the encoding needs. -/
  | tooShort (octets : Nat)
deriving DecidableEq, Repr

/-- The encoding of an instruction: an operation request (R84) or the first two octets of a frame as one 16-bit word
`{BUF[0], BUF[1]}` (R111). -/
inductive Code where
  | request (r : Request)
  | frame (word : BitVec 16)
deriving DecidableEq, Repr

/-- The two levels of encoding (R80): an operation request, or a frame. -/
inductive Level where
  | request
  | frame
deriving DecidableEq, Repr

/-- An `OP` row of the opcode table (R84, R111): the `OP` value (mask 0xff) and the instruction a request with it is. -/
structure OpRow where
  op   : BitVec 8
  make : Request → Instr

/-- A `FRAME` row of the opcode table (R111): mask and match over the word `{BUF[0], BUF[1]}`, and the instruction a
frame with such a word is. -/
structure FrameRow where
  mask    : BitVec 16
  pattern : BitVec 16
  make    : BitVec 16 → Instr

end Sys2Proof
end

