-- ==== Sys2Proof/WellFormed.lean ====
section
/-!
DEFINITION. Which instructions and host actions are well formed. Every field has its width by its type; what is left are
the checks the spec makes on values: a bit range has LO ≤ HI (R124), a loaded message fits `BUF` (R274), variable data
fits `DATA` (R28).
-/

namespace Sys2Proof

/-- R124: the range `[LO, HI]` is one only if `LO ≤ HI`. -/
def rangeOk (lo hi : BitVec 3) : Bool := decide (lo.toNat ≤ hi.toNat)

/-- Well-formed instructions: R124 for the two bit-range operations, everything else by its types. -/
def Instr.wellFormed : Instr → Bool
  | .rdbits _ lo hi => rangeOk lo hi
  | .wrbits _ lo hi _ => rangeOk lo hi
  | .rdbe16 _ => true
  | .rdbe32 _ => true
  | .rdbe64 _ => true
  | .wrbe16 _ _ => true
  | .wrbe32 _ _ => true
  | .wrbe64 _ _ => true
  | .cmpbe32 _ _ => true
  | .dechdr => true
  | .enchdr => true
  | .decadp => true
  | .encadp => true
  | .decacmp => true
  | .encacmp => true
  | .decaecp => true
  | .encaecp => true
  | .decmsg => true
  | .adp _ _ => true
  | .acmpConnectTxCommand _ => true
  | .acmpConnectTxResponse _ => true
  | .acmpDisconnectTxCommand _ => true
  | .acmpDisconnectTxResponse _ => true
  | .acmpGetTxStateCommand _ => true
  | .acmpGetTxStateResponse _ => true
  | .acmpConnectRxCommand _ => true
  | .acmpConnectRxResponse _ => true
  | .acmpDisconnectRxCommand _ => true
  | .acmpDisconnectRxResponse _ => true
  | .acmpGetRxStateCommand _ => true
  | .acmpGetRxStateResponse _ => true
  | .acmpGetTxConnectionCommand _ => true
  | .acmpGetTxConnectionResponse _ => true
  | .acmpReserved14 _ => true
  | .acmpReserved15 _ => true
  | .aecpAvdeccMessageCommand _ => true
  | .aecpAvdeccMessageResponse _ => true
  | .aecpAddressAccessCommand _ => true
  | .aecpAddressAccessResponse _ => true
  | .aecpAvcCommand _ => true
  | .aecpAvcResponse _ => true
  | .aecpVendorUniqueCommand _ => true
  | .aecpVendorUniqueResponse _ => true
  | .aecpReserved8 _ => true
  | .aecpReserved9 _ => true
  | .aecpReserved10 _ => true
  | .aecpReserved11 _ => true
  | .aecpReserved12 _ => true
  | .aecpReserved13 _ => true
  | .aecpExtendedCommand _ => true
  | .aecpExtendedResponse _ => true

/-- Well-formed host actions: a load of at most 536 octets (R274, U17), variable data of at most 512 (R28). -/
def HostAction.wellFormed : HostAction → Bool
  | .reset => true
  | .loadBuffer octets => decide (octets.length ≤ Config.bufCap)
  | .storeOctet _ _ => true
  | .setReg _ _ => true
  | .setData octets => decide (octets.length ≤ Config.dataCap)
  | .read _ => true

end Sys2Proof
end

