-- ==== Sys2Proof/Decode.lean ====
section
/-!
DEFINITION. The decoder and, after it, the encoder (R80, R84, R85, R90, R100 to R107, R111). An operation request is
decoded by its `OP` value, a frame by mask and match over its first two octets; both are the rows of
spec/opcode_table.json as data. Whatever matches no row is rejected by name.
-/

namespace Sys2Proof

/-- The `OP` rows (R84), in the table's order. Request fields that a row does not take are ignored (R31, U18). -/
def opTable : List OpRow := [
  ⟨0x01#8, fun r => .rdbits r.a r.lo r.hi⟩,
  ⟨0x02#8, fun r => .wrbits r.a r.lo r.hi r.val⟩,
  ⟨0x03#8, fun r => .rdbe16 r.off⟩,
  ⟨0x04#8, fun r => .rdbe32 r.off⟩,
  ⟨0x05#8, fun r => .rdbe64 r.off⟩,
  ⟨0x06#8, fun r => .wrbe16 r.off r.val⟩,
  ⟨0x07#8, fun r => .wrbe32 r.off r.val⟩,
  ⟨0x08#8, fun r => .wrbe64 r.off r.val⟩,
  ⟨0x09#8, fun r => .cmpbe32 r.off r.val⟩,
  ⟨0x10#8, fun _ => .dechdr⟩,
  ⟨0x11#8, fun _ => .enchdr⟩,
  ⟨0x12#8, fun _ => .decadp⟩,
  ⟨0x13#8, fun _ => .encadp⟩,
  ⟨0x14#8, fun _ => .decacmp⟩,
  ⟨0x15#8, fun _ => .encacmp⟩,
  ⟨0x16#8, fun _ => .decaecp⟩,
  ⟨0x17#8, fun _ => .encaecp⟩,
  ⟨0x18#8, fun _ => .decmsg⟩]

/-- Decode an operation request by its `OP`; an unassigned value spells no operation (R85). -/
def decodeRequest (r : Request) : Except DecodeError Instr :=
  match opTable.find? (fun row => row.op == r.op) with
  | some row => .ok (row.make r)
  | none => .error (.unassignedOp r.op)

/-- The open bits of a frame word (R90): octet 0 stands in bits 15:8, octet 1 in bits 7:0 (R111). -/
def frameBits (w : BitVec 16) : FrameBits :=
  { cd := w.extractLsb' 15 1, sv := w.extractLsb' 7 1, version := w.extractLsb' 4 3 }

/-- The subtype of a frame word, `BUF[0][6:0]` (R100). -/
def frameSubtype (w : BitVec 16) : BitVec 7 := w.extractLsb' 8 7

/-- The message type of a frame word, `BUF[1][3:0]` (R103). -/
def frameMessageType (w : BitVec 16) : BitVec 4 := w.extractLsb' 0 4

/-- The one ADP row: every message type selects it (R101). -/
def adpRows : List FrameRow := [
  ⟨0x7f00#16, 0x7a00#16, fun w => .adp (frameBits w) (frameMessageType w)⟩]

/-- The ACMP rows (R102, R105, R213). -/
def acmpRows : List FrameRow := [
  ⟨0x7f0f#16, 0x7c00#16, fun w => .acmpConnectTxCommand (frameBits w)⟩,
  ⟨0x7f0f#16, 0x7c01#16, fun w => .acmpConnectTxResponse (frameBits w)⟩,
  ⟨0x7f0f#16, 0x7c02#16, fun w => .acmpDisconnectTxCommand (frameBits w)⟩,
  ⟨0x7f0f#16, 0x7c03#16, fun w => .acmpDisconnectTxResponse (frameBits w)⟩,
  ⟨0x7f0f#16, 0x7c04#16, fun w => .acmpGetTxStateCommand (frameBits w)⟩,
  ⟨0x7f0f#16, 0x7c05#16, fun w => .acmpGetTxStateResponse (frameBits w)⟩,
  ⟨0x7f0f#16, 0x7c06#16, fun w => .acmpConnectRxCommand (frameBits w)⟩,
  ⟨0x7f0f#16, 0x7c07#16, fun w => .acmpConnectRxResponse (frameBits w)⟩,
  ⟨0x7f0f#16, 0x7c08#16, fun w => .acmpDisconnectRxCommand (frameBits w)⟩,
  ⟨0x7f0f#16, 0x7c09#16, fun w => .acmpDisconnectRxResponse (frameBits w)⟩,
  ⟨0x7f0f#16, 0x7c0a#16, fun w => .acmpGetRxStateCommand (frameBits w)⟩,
  ⟨0x7f0f#16, 0x7c0b#16, fun w => .acmpGetRxStateResponse (frameBits w)⟩,
  ⟨0x7f0f#16, 0x7c0c#16, fun w => .acmpGetTxConnectionCommand (frameBits w)⟩,
  ⟨0x7f0f#16, 0x7c0d#16, fun w => .acmpGetTxConnectionResponse (frameBits w)⟩,
  ⟨0x7f0f#16, 0x7c0e#16, fun w => .acmpReserved14 (frameBits w)⟩,
  ⟨0x7f0f#16, 0x7c0f#16, fun w => .acmpReserved15 (frameBits w)⟩]

/-- The AECP rows (R103, R106, R212). -/
def aecpRows : List FrameRow := [
  ⟨0x7f0f#16, 0x7b00#16, fun w => .aecpAvdeccMessageCommand (frameBits w)⟩,
  ⟨0x7f0f#16, 0x7b01#16, fun w => .aecpAvdeccMessageResponse (frameBits w)⟩,
  ⟨0x7f0f#16, 0x7b02#16, fun w => .aecpAddressAccessCommand (frameBits w)⟩,
  ⟨0x7f0f#16, 0x7b03#16, fun w => .aecpAddressAccessResponse (frameBits w)⟩,
  ⟨0x7f0f#16, 0x7b04#16, fun w => .aecpAvcCommand (frameBits w)⟩,
  ⟨0x7f0f#16, 0x7b05#16, fun w => .aecpAvcResponse (frameBits w)⟩,
  ⟨0x7f0f#16, 0x7b06#16, fun w => .aecpVendorUniqueCommand (frameBits w)⟩,
  ⟨0x7f0f#16, 0x7b07#16, fun w => .aecpVendorUniqueResponse (frameBits w)⟩,
  ⟨0x7f0f#16, 0x7b08#16, fun w => .aecpReserved8 (frameBits w)⟩,
  ⟨0x7f0f#16, 0x7b09#16, fun w => .aecpReserved9 (frameBits w)⟩,
  ⟨0x7f0f#16, 0x7b0a#16, fun w => .aecpReserved10 (frameBits w)⟩,
  ⟨0x7f0f#16, 0x7b0b#16, fun w => .aecpReserved11 (frameBits w)⟩,
  ⟨0x7f0f#16, 0x7b0c#16, fun w => .aecpReserved12 (frameBits w)⟩,
  ⟨0x7f0f#16, 0x7b0d#16, fun w => .aecpReserved13 (frameBits w)⟩,
  ⟨0x7f0f#16, 0x7b0e#16, fun w => .aecpExtendedCommand (frameBits w)⟩,
  ⟨0x7f0f#16, 0x7b0f#16, fun w => .aecpExtendedResponse (frameBits w)⟩]

/-- The `FRAME` rows of the opcode table. -/
def frameTable : List FrameRow := adpRows ++ acmpRows ++ aecpRows

/-- A frame word matches a row if it agrees with the row's match under the row's mask (R111). -/
def rowMatches (w : BitVec 16) (row : FrameRow) : Bool := w &&& row.mask == row.pattern

/-- Decode a frame by its first two octets: "any 16-bit word that matches no frame row has an unknown subtype"
(R104, R111). -/
def decodeFrame (w : BitVec 16) : Except DecodeError Instr :=
  match frameTable.find? (rowMatches w) with
  | some row => .ok (row.make w)
  | none => .error (.unknownSubtype (frameSubtype w))

/-- Decode either level of encoding (R80). -/
def decode : Code → Except DecodeError Instr
  | .request r => decodeRequest r
  | .frame w => decodeFrame w

/-- A request record from twelve octets: `OP`, `A`, then `LO`, `HI`, `OFF` as one 16-bit word, then `VAL`, each most
significant octet first. The spec names the fields and their widths (R31) and no octets: DESIGN CHOICE (log 4). Octets
after the twelfth are no part of the record. -/
def Request.ofOctets : List Byte → Except DecodeError Request
  | o0 :: o1 :: o2 :: o3 :: o4 :: o5 :: o6 :: o7 :: o8 :: o9 :: o10 :: o11 :: _ =>
    .ok { op := o0, a := o1, lo := o2.extractLsb' 5 3, hi := o2.extractLsb' 2 3,
          off := o2.extractLsb' 0 2 ++ o3, val := o4 ++ o5 ++ o6 ++ o7 ++ o8 ++ o9 ++ o10 ++ o11 }
  | os => .error (.tooShort os.length)

/-- The code that octets spell at a level: a request record, or a frame's first two octets (R111). -/
def Code.ofOctets : Level → List Byte → Except DecodeError Code
  | .request, os => (Request.ofOctets os).map .request
  | .frame, o0 :: o1 :: _ => .ok (.frame (o0 ++ o1))
  | .frame, os => .error (.tooShort os.length)

/-- The decoder on octets: total, and it rejects by name. -/
def decodeOctets (l : Level) (os : List Byte) : Except DecodeError Instr :=
  (Code.ofOctets l os).bind decode

/-! ## The encoder -/

/-- The word `{BUF[0], BUF[1]}` of a frame (R90, R111): cd, subtype, sv, version, message type from the most
significant bit down. -/
def frameWord (subtype : BitVec 7) (p : FrameBits) (messageType : BitVec 4) : BitVec 16 :=
  p.cd ++ subtype ++ p.sv ++ p.version ++ messageType

/-- A request with the given `OP` and every operand field 0. -/
def Request.blank (op : BitVec 8) : Request := { op, a := 0, lo := 0, hi := 0, off := 0, val := 0 }

/-- A request for a bit-range operation (R121, R122). -/
def Request.bits (op a : BitVec 8) (lo hi : BitVec 3) (val : BitVec 64) : Request :=
  { Request.blank op with a, lo, hi, val }

/-- A request for a buffer primitive (R126 to R132). -/
def Request.access (op : BitVec 8) (off : BitVec 10) (val : BitVec 64) : Request :=
  { Request.blank op with off, val }

/-- The encoding of an instruction; a request field that the operation does not take is 0. -/
def encode : Instr → Code
  | .rdbits a lo hi => .request (.bits 0x01#8 a lo hi 0)
  | .wrbits a lo hi val => .request (.bits 0x02#8 a lo hi val)
  | .rdbe16 off => .request (.access 0x03#8 off 0)
  | .rdbe32 off => .request (.access 0x04#8 off 0)
  | .rdbe64 off => .request (.access 0x05#8 off 0)
  | .wrbe16 off val => .request (.access 0x06#8 off val)
  | .wrbe32 off val => .request (.access 0x07#8 off val)
  | .wrbe64 off val => .request (.access 0x08#8 off val)
  | .cmpbe32 off val => .request (.access 0x09#8 off val)
  | .dechdr => .request (.blank 0x10#8)
  | .enchdr => .request (.blank 0x11#8)
  | .decadp => .request (.blank 0x12#8)
  | .encadp => .request (.blank 0x13#8)
  | .decacmp => .request (.blank 0x14#8)
  | .encacmp => .request (.blank 0x15#8)
  | .decaecp => .request (.blank 0x16#8)
  | .encaecp => .request (.blank 0x17#8)
  | .decmsg => .request (.blank 0x18#8)
  | .adp p t => .frame (frameWord 0x7a#7 p t)
  | .acmpConnectTxCommand p => .frame (frameWord 0x7c#7 p 0#4)
  | .acmpConnectTxResponse p => .frame (frameWord 0x7c#7 p 1#4)
  | .acmpDisconnectTxCommand p => .frame (frameWord 0x7c#7 p 2#4)
  | .acmpDisconnectTxResponse p => .frame (frameWord 0x7c#7 p 3#4)
  | .acmpGetTxStateCommand p => .frame (frameWord 0x7c#7 p 4#4)
  | .acmpGetTxStateResponse p => .frame (frameWord 0x7c#7 p 5#4)
  | .acmpConnectRxCommand p => .frame (frameWord 0x7c#7 p 6#4)
  | .acmpConnectRxResponse p => .frame (frameWord 0x7c#7 p 7#4)
  | .acmpDisconnectRxCommand p => .frame (frameWord 0x7c#7 p 8#4)
  | .acmpDisconnectRxResponse p => .frame (frameWord 0x7c#7 p 9#4)
  | .acmpGetRxStateCommand p => .frame (frameWord 0x7c#7 p 10#4)
  | .acmpGetRxStateResponse p => .frame (frameWord 0x7c#7 p 11#4)
  | .acmpGetTxConnectionCommand p => .frame (frameWord 0x7c#7 p 12#4)
  | .acmpGetTxConnectionResponse p => .frame (frameWord 0x7c#7 p 13#4)
  | .acmpReserved14 p => .frame (frameWord 0x7c#7 p 14#4)
  | .acmpReserved15 p => .frame (frameWord 0x7c#7 p 15#4)
  | .aecpAvdeccMessageCommand p => .frame (frameWord 0x7b#7 p 0#4)
  | .aecpAvdeccMessageResponse p => .frame (frameWord 0x7b#7 p 1#4)
  | .aecpAddressAccessCommand p => .frame (frameWord 0x7b#7 p 2#4)
  | .aecpAddressAccessResponse p => .frame (frameWord 0x7b#7 p 3#4)
  | .aecpAvcCommand p => .frame (frameWord 0x7b#7 p 4#4)
  | .aecpAvcResponse p => .frame (frameWord 0x7b#7 p 5#4)
  | .aecpVendorUniqueCommand p => .frame (frameWord 0x7b#7 p 6#4)
  | .aecpVendorUniqueResponse p => .frame (frameWord 0x7b#7 p 7#4)
  | .aecpReserved8 p => .frame (frameWord 0x7b#7 p 8#4)
  | .aecpReserved9 p => .frame (frameWord 0x7b#7 p 9#4)
  | .aecpReserved10 p => .frame (frameWord 0x7b#7 p 10#4)
  | .aecpReserved11 p => .frame (frameWord 0x7b#7 p 11#4)
  | .aecpReserved12 p => .frame (frameWord 0x7b#7 p 12#4)
  | .aecpReserved13 p => .frame (frameWord 0x7b#7 p 13#4)
  | .aecpExtendedCommand p => .frame (frameWord 0x7b#7 p 14#4)
  | .aecpExtendedResponse p => .frame (frameWord 0x7b#7 p 15#4)

/-- The level at which a code stands. -/
def Code.level : Code → Level
  | .request _ => .request
  | .frame _ => .frame

/-- The octets of a request record, as `Request.ofOctets` reads them (log 4). -/
def Request.toOctets (r : Request) : List Byte :=
  [r.op, r.a, r.lo ++ r.hi ++ r.off.extractLsb' 8 2, r.off.extractLsb' 0 8,
   r.val.extractLsb' 56 8, r.val.extractLsb' 48 8, r.val.extractLsb' 40 8, r.val.extractLsb' 32 8,
   r.val.extractLsb' 24 8, r.val.extractLsb' 16 8, r.val.extractLsb' 8 8, r.val.extractLsb' 0 8]

/-- The octets of a code: a request record, or octet 0 and octet 1 of a frame (R111). -/
def Code.toOctets : Code → List Byte
  | .request r => r.toOctets
  | .frame w => [w.extractLsb' 8 8, w.extractLsb' 0 8]

/-- The octets of an instruction. -/
def encodeOctets (i : Instr) : List Byte := (encode i).toOctets

/-! ## A word of the opcode table -/

/-- The level of a row of the table by the number of bits it gives: an `OP` row is 8 bits, a frame row 16 (R111). -/
def tableLevel (nbits : Nat) : Level := if nbits ≤ 8 then .request else .frame

/-- The octets of a table word, zeros after it. An `OP` row's word is octet 0 of the request record and each later
octet counts on from bit 8; a frame row's word is one 16-bit word stored octet 0 (bits 15:8) first (R111, R50). -/
def tableOctets (nbits w : Nat) : List Byte :=
  match tableLevel nbits with
  | .request => (List.range 12).map (fun k => BitVec.ofNat 8 (w / 256 ^ k))
  | .frame => [BitVec.ofNat 8 (w / 256), BitVec.ofNat 8 w]

/-- What the decoder reads from a word of the opcode table; `none` where it refuses. -/
def decodeTableWord (nbits w : Nat) : Option Instr :=
  match decodeOctets (tableLevel nbits) (tableOctets nbits w) with
  | .ok i => some i
  | .error _ => none

end Sys2Proof
end

