-- ==== Sys2Proof/Machine/State.lean ====
section
/-!
DEFINITION. The state of one codec instance (R20), as plain data, with the reasons a step can stop and the reset state
(R40, R260). A register or cell that holds no value is `none`: the spec's own content of a register (R10, R33), and for
every register but `LEN` and `ERR` the spec's own reset value (R40).
-/

namespace Sys2Proof.Machine

/-! ## Memory: a list of (address, octet) cells -/

/-- An array of cells, each an octet or nothing (R21, R28): the cells that hold an octet, addresses strictly rising.
An address that is not listed holds nothing (R40). -/
abbrev Memory := List Host.Cell

/-- The canonical form: addresses strictly rising. No listed cell equals what an unlisted address reads as, since a
listed cell holds an octet and an unlisted one holds nothing. -/
def Memory.wf (m : Memory) : Bool := decide ((m.map Prod.fst).Pairwise (· < ·))

/-! ## Message values and message registers (R24 to R29)

Each group twice: the value a decode makes and an encode takes (every field an unsigned integer of its width), and the
registers that hold it (every register a value or nothing). -/

/-- The Header value: the seven fields (R140). -/
structure Header where
  cd          : BitVec 1
  subtype     : BitVec 7
  sv          : BitVec 1
  version     : BitVec 3
  messageType : BitVec 4
  validTime   : BitVec 5
  dataLength  : BitVec 11
deriving DecidableEq, Repr

/-- Group `H`, the common header registers (R24). -/
structure HRegs where
  cd          : Option (BitVec 1)
  subtype     : Option (BitVec 7)
  sv          : Option (BitVec 1)
  version     : Option (BitVec 3)
  messageType : Option (BitVec 4)
  validTime   : Option (BitVec 5)
  dataLength  : Option (BitVec 11)
deriving DecidableEq, Repr

/-- Every register of the group holds nothing. -/
def HRegs.empty : HRegs :=
  ⟨none, none, none, none, none, none, none⟩

/-- The body of a DiscoveryMessage: the fifteen fields in wire order (R25, R150). -/
structure Discovery where
  entityId               : BitVec 64
  vendorId               : BitVec 32
  modelId                : BitVec 32
  entityCapabilities     : BitVec 32
  talkerStreamSources    : BitVec 16
  talkerCapabilities     : BitVec 16
  listenerStreamSinks    : BitVec 16
  listenerCapabilities   : BitVec 16
  controllerCapabilities : BitVec 32
  availableIndex         : BitVec 32
  gmId                   : BitVec 64
  defaultAudioFormat     : BitVec 32
  defaultVideoFormat     : BitVec 32
  associationId          : BitVec 64
  entityType             : BitVec 32
deriving DecidableEq, Repr

/-- Group `ADP` (R25). -/
structure AdpRegs where
  entityId               : Option (BitVec 64)
  vendorId               : Option (BitVec 32)
  modelId                : Option (BitVec 32)
  entityCapabilities     : Option (BitVec 32)
  talkerStreamSources    : Option (BitVec 16)
  talkerCapabilities     : Option (BitVec 16)
  listenerStreamSinks    : Option (BitVec 16)
  listenerCapabilities   : Option (BitVec 16)
  controllerCapabilities : Option (BitVec 32)
  availableIndex         : Option (BitVec 32)
  gmId                   : Option (BitVec 64)
  defaultAudioFormat     : Option (BitVec 32)
  defaultVideoFormat     : Option (BitVec 32)
  associationId          : Option (BitVec 64)
  entityType             : Option (BitVec 32)
deriving DecidableEq, Repr

/-- Every register of the group holds nothing. -/
def AdpRegs.empty : AdpRegs :=
  ⟨none, none, none, none, none, none, none, none, none, none, none, none, none, none, none⟩

/-- The body of a ConnectionMessage: the eleven fields in wire order (R26, R160). -/
structure Connection where
  streamId         : BitVec 64
  controllerId     : BitVec 64
  talkerId         : BitVec 64
  listenerId       : BitVec 64
  talkerUniqueId   : BitVec 16
  listenerUniqueId : BitVec 16
  destMac          : BitVec 48
  connectionCount  : BitVec 16
  sequenceId       : BitVec 16
  flags            : BitVec 16
  defaultFormat    : BitVec 32
deriving DecidableEq, Repr

/-- Group `ACMP` (R26). -/
structure AcmpRegs where
  streamId         : Option (BitVec 64)
  controllerId     : Option (BitVec 64)
  talkerId         : Option (BitVec 64)
  listenerId       : Option (BitVec 64)
  talkerUniqueId   : Option (BitVec 16)
  listenerUniqueId : Option (BitVec 16)
  destMac          : Option (BitVec 48)
  connectionCount  : Option (BitVec 16)
  sequenceId       : Option (BitVec 16)
  flags            : Option (BitVec 16)
  defaultFormat    : Option (BitVec 32)
deriving DecidableEq, Repr

/-- Every register of the group holds nothing. -/
def AcmpRegs.empty : AcmpRegs :=
  ⟨none, none, none, none, none, none, none, none, none, none, none⟩

/-- The AECP common fields after the header (R27, R95). -/
structure AecpCommon where
  targetId     : BitVec 64
  controllerId : BitVec 64
  sequenceId   : BitVec 16
deriving DecidableEq, Repr

/-- Group `AECP` (R27). -/
structure AecpRegs where
  targetId     : Option (BitVec 64)
  controllerId : Option (BitVec 64)
  sequenceId   : Option (BitVec 16)
deriving DecidableEq, Repr

/-- Every register of the group holds nothing. -/
def AecpRegs.empty : AecpRegs :=
  ⟨none, none, none⟩

/-- The fixed part of variant V0, the vendor-message variant (R96). -/
structure VendorMessage where
  modeLen   : BitVec 16
  ouiFlags  : BitVec 32
  typeFlags : BitVec 16
  index1    : BitVec 16
  index2    : BitVec 16
  index3    : BitVec 16
deriving DecidableEq, Repr

/-- Group `V0` (R27). -/
structure V0Regs where
  modeLen   : Option (BitVec 16)
  ouiFlags  : Option (BitVec 32)
  typeFlags : Option (BitVec 16)
  index1    : Option (BitVec 16)
  index2    : Option (BitVec 16)
  index3    : Option (BitVec 16)
deriving DecidableEq, Repr

/-- Every register of the group holds nothing. -/
def V0Regs.empty : V0Regs :=
  ⟨none, none, none, none, none, none⟩

/-- The fixed part of variant V1, the address-access variant (R97). -/
structure AddressAccess where
  modeLen : BitVec 16
deriving DecidableEq, Repr

/-- Group `V1` (R27). -/
structure V1Regs where
  modeLen : Option (BitVec 16)
deriving DecidableEq, Repr

/-- Every register of the group holds nothing. -/
def V1Regs.empty : V1Regs :=
  ⟨none⟩

/-- The fixed part of variant V2, the legacy-command variant (R98). -/
structure LegacyCommand where
  length : BitVec 16
deriving DecidableEq, Repr

/-- Group `V2` (R27). -/
structure V2Regs where
  length : Option (BitVec 16)
deriving DecidableEq, Repr

/-- Every register of the group holds nothing. -/
def V2Regs.empty : V2Regs :=
  ⟨none⟩

/-- The fixed part of variant V3, the vendor-specific variant (R99). -/
structure VendorSpecific where
  protocolId : BitVec 48
deriving DecidableEq, Repr

/-- Group `V3` (R27). -/
structure V3Regs where
  protocolId : Option (BitVec 48)
deriving DecidableEq, Repr

/-- Every register of the group holds nothing. -/
def V3Regs.empty : V3Regs :=
  ⟨none⟩

/-- The message register file `MSG` with `DATA` and `DLEN` (R20, R24 to R29). The groups are separate storage (R29). -/
structure Msg where
  h    : HRegs
  adp  : AdpRegs
  acmp : AcmpRegs
  aecp : AecpRegs
  v0   : V0Regs
  v1   : V1Regs
  v2   : V2Regs
  v3   : V3Regs
  /-- `DATA`: the variable data of an AECP message (R28). -/
  data : Memory
  /-- `DLEN`: how many octets of `DATA` hold a value, 0 to 512, or nothing (R28). -/
  dlen : Option (BitVec 10)
deriving DecidableEq, Repr

/-- Every `MSG` register, `DATA` cell and `DLEN` holds nothing (R33, R40). -/
def Msg.empty : Msg :=
  { h := .empty, adp := .empty, acmp := .empty, aecp := .empty, v0 := .empty, v1 := .empty, v2 := .empty, v3 := .empty,
    data := [], dlen := none }

/-- The state of one codec instance (R20), and the inputs the host has presented and no step has taken yet. -/
structure State where
  /-- `BUF`, the frame buffer (R21, R23). -/
  buf     : Memory
  /-- `LEN`, 0 to 536 (R22). -/
  len     : BitVec 10
  /-- `MSG` (R24 to R29). -/
  msg     : Msg
  /-- `RES`, the scalar result (R32). -/
  res     : Option (BitVec 64)
  /-- `ERR`, the outcome of the most recent operation (R34). -/
  err     : BitVec 3
  /-- `ERRINFO`, the value that caused the failure (R35). -/
  errinfo : Option (BitVec 16)
  /-- The MODEL's own field: what the host asks for next, first input first. DESIGN CHOICE (log 1). -/
  inputs  : List Input
deriving DecidableEq, Repr

/-- The six error kinds with what each reports (R230, R231). They are values an operation ends with (R233). -/
inductive CodecError where
  /-- "buffer shorter than the fixed portion required"; reports `LEN`. -/
  | truncatedPacket (len : BitVec 10)
  /-- "a field value supplied for encoding exceeds its declared bit width"; reports the width, or `DLEN`. -/
  | valueOutOfRange (reported : BitVec 16)
  /-- "header subtype not one of ADP/ACMP/AECP"; reports the subtype. -/
  | unknownSubtype (subtype : BitVec 7)
  /-- A message type outside the enumeration; reports it. -/
  | unknownMessageType (messageType : BitVec 4)
  /-- An ACMP status outside the enumeration; reports it. -/
  | unknownStatus (status : BitVec 5)
  /-- "AECP message type recognized as reserved/extended but not decodable by this core"; reports it. -/
  | unsupportedVariant (messageType : BitVec 4)
deriving DecidableEq, Repr

/-- The three classes of operation an error leaves different state behind in (R240 (b), (c), (d)). -/
inductive OpClass where
  | primitive
  | decode
  | encode
deriving DecidableEq, Repr

/-- The four AECP payload variants (R176). -/
inductive Variant where
  | v0 | v1 | v2 | v3
deriving DecidableEq, Repr

/-- What an AECP message type selects (R176). -/
inductive Selection where
  | variant (v : Variant)
  | unsupported
  | unknown
deriving DecidableEq, Repr

/-- The fixed part of an AECP payload as a sum type (R29, R175): the constructor is the variant. -/
inductive Payload where
  | v0 (p : VendorMessage)
  | v1 (p : AddressAccess)
  | v2 (p : LegacyCommand)
  | v3 (p : VendorSpecific)
deriving DecidableEq, Repr

/-- A step that stops with a fault. The six error kinds of R230 are no faults: they are values in `ERR`. -/
inductive Fault where
  /-- Raised by an operation that reads a cell of `BUF` below `LEN` which holds nothing. R23 says there is none, and no
  run from reset reaches such a state. Safe (log 6). -/
  | bufferCellEmpty
deriving DecidableEq, Repr

/-- A request the spec refuses: "the model gives it no step" (R10, R234), plus the name for an arm without a meaning. -/
inductive Refusal where
  /-- Answered by `exec` for an instruction that has no meaning yet. Safe. No arm answers it. -/
  | notModelled (mnemonic : String)
  /-- Answered by a step whose request has an `OP` that R84 does not list (R85, U14). Safe: the spec's own refusal. -/
  | noOperation (op : BitVec 8)
  /-- Answered by RDBITS and WRBITS for `LO > HI` (R124, U12). Safe: the spec's own refusal. -/
  | emptyRange (lo hi : BitVec 3)
  /-- Answered by an encode that reads a register or `DATA` cell holding nothing (R33, U15). Safe: the spec's own
  refusal. -/
  | encodeReadsNone
  /-- Answered to a host read of a register or cell holding nothing (R39, U16). Safe: the spec's own refusal. -/
  | readOfNone (what : Readable)
  /-- Answered to a host load of more than 536 octets (R274, U17). Safe: the spec's own refusal. -/
  | loadTooLong (octets : Nat)
  /-- Answered to a host write of more than 512 octets of `DATA`, which would break R28. Safe (log 7). -/
  | dataTooLong (octets : Nat)
  /-- Answered to a host store at an offset at or beyond `LEN`, which would break R23. Safe (log 7). -/
  | storeOutsideMessage (off : BitVec 10)
deriving DecidableEq, Repr

/-- The outcome of an operation or a step. -/
abbrev Result := Host.Outcome State Fault Refusal

/-- What an input asks for once the instruction, if any, is fetched and decoded: run it, or the outcome is settled. -/
inductive Fetched where
  | run (i : Instr)
  | done (o : Result)

/-- The state after reset (R40, R260): nothing can be read before it is written. No input is pending: DESIGN CHOICE
(log 1). -/
def State.reset : State :=
  { buf := [], len := 0, msg := .empty, res := none, err := 0, errinfo := none, inputs := [] }

end Sys2Proof.Machine
end

