-- ==== Sys2Proof/Machine/Tables.lean ====
section
/-!
DEFINITION. The constant and enumeration tables (47_constants.md) and the sizes of R6: the values a test of the wire
format could show wrong.
-/

namespace Sys2Proof.Machine

/-! ## Sizes in octets (R6) -/

/-- `HDR_LEN` (R6, R90). -/
def hdrLen : Nat := 4

/-- `ADP_LEN` (R6, R92, C1). -/
def adpLen : Nat := 68

/-- `ACMP_LEN` (R6, R94, C2). -/
def acmpLen : Nat := 56

/-- `AECP_PREFIX_LEN` (R6, R95, C3): header and common fields; the payload begins here. -/
def aecpPrefixLen : Nat := 22

/-- `AECP_PAYLOAD_MAX` (R6, R95). -/
def aecpPayloadMax : Nat := 514

/-- `AECP_MAX_LEN` (R6, R95). -/
def aecpMaxLen : Nat := aecpPrefixLen + aecpPayloadMax

/-- `Vn_FIXED` (R6, R176): octets of a variant's fixed part. -/
def Variant.fixed : Variant → Nat
  | .v0 => 14
  | .v1 => 2
  | .v2 => 2
  | .v3 => 6

/-- `Vn_DATA_MAX` (R6, R176, R190): what the payload budget leaves for the variable data. -/
def Variant.dataMax (v : Variant) : Nat := aecpPayloadMax - v.fixed

/-! ## Enumerations -/

/-- Subtype of ADP (R211). -/
def subtypeAdp : BitVec 7 := 0x7a#7

/-- Subtype of AECP (R211). -/
def subtypeAecp : BitVec 7 := 0x7b#7

/-- Subtype of ACMP (R211). -/
def subtypeAcmp : BitVec 7 := 0x7c#7

/-- `acmp_msgtype_defined` (R213, R218). -/
def acmpMsgtypeDefined (t : BitVec 4) : Bool := decide (t.toNat ≤ 13)

/-- `acmp_status_defined` (R214, R218). -/
def acmpStatusDefined (s : BitVec 5) : Bool := decide (s.toNat ≤ 15) || decide (s.toNat = 31)

/-- `variant_of` (R176, R212, R218). -/
def variantOf (t : BitVec 4) : Selection :=
  match t.toNat with
  | 0 | 1 => .variant .v0
  | 2 | 3 => .variant .v1
  | 4 | 5 => .variant .v2
  | 6 | 7 => .variant .v3
  | 14 | 15 => .unsupported
  | _ => .unknown

/-- The controller-capabilities "implemented" bit (R215). -/
def controllerCapImplemented : BitVec 32 := 0x0001#32

/-- The controller-capabilities "layer-3 proxy" bit (R215). -/
def controllerCapLayer3Proxy : BitVec 32 := 0x0002#32

end Sys2Proof.Machine
end

