-- ==== Sys2Proof/Machine/Flags.lean ====
section
/-!
DEFINITION. The only condition codes of the block: `ERR` and `ERRINFO` (R34 to R36), as functions of the error, and the
scalar a comparison leaves in `RES` (R32). There is no carry, zero, overflow or sign flag (R36).
-/

namespace Sys2Proof.Machine

/-- The `ERR` code of an error kind (R34, R230). -/
def CodecError.code : CodecError → BitVec 3
  | .truncatedPacket _ => 1
  | .valueOutOfRange _ => 2
  | .unknownSubtype _ => 3
  | .unknownMessageType _ => 4
  | .unknownStatus _ => 5
  | .unsupportedVariant _ => 6

/-- `ERRINFO` of an error (R35, R231): the reported value, zero-extended to 16 bits. -/
def CodecError.info : CodecError → BitVec 16
  | .truncatedPacket len => len.setWidth 16
  | .valueOutOfRange n => n
  | .unknownSubtype s => s.setWidth 16
  | .unknownMessageType t => t.setWidth 16
  | .unknownStatus s => s.setWidth 16
  | .unsupportedVariant t => t.setWidth 16

/-- The comparison outcome in `RES` (R32, R132): 1 for equal, 0 for not equal. -/
def comparisonResult (equal : Bool) : BitVec 64 := if equal then 1 else 0

end Sys2Proof.Machine
end

