-- ==== Sys2Proof/Machine/Ops.lean ====
section
/-!
DEFINITION. The named operations over memory and registers: cells and big-endian integers (R10, R50 to R53, R88),
message registers (R24 to R29, R33), the end of an operation, and raising an error as one shared operation (R233, R240).
There is no return from an error and nothing for one to restore (R233, R243).
-/

namespace Sys2Proof.Machine

/-! ## Cells -/

/-- The octet at an address; `none` where the cell holds nothing (R21, R33). -/
def Memory.get : Memory → Nat → Option Byte
  | [], _ => none
  | (a, b) :: m, i => if a = i then some b else Memory.get m i

/-- Store an octet in a cell, in canonical form. -/
def Memory.put : Memory → Nat → Byte → Memory
  | [], i, v => [(i, v)]
  | (a, b) :: m, i, v =>
    if i < a then (i, v) :: (a, b) :: m
    else if i = a then (i, v) :: m
    else (a, b) :: Memory.put m i v

/-- Octets as the cells at addresses 0, 1, 2, … -/
def Memory.ofOctets (octets : List Byte) : Memory := (List.range octets.length).zip octets

/-- The octets at the listed addresses; `none` if one of the cells holds nothing. -/
def Memory.gather (m : Memory) : List Nat → Option (List Byte)
  | [] => some []
  | i :: is =>
    match m.get i, Memory.gather m is with
    | some b, some bs => some (b :: bs)
    | _, _ => none

/-- Read the `n` octets at `off` to `off + n - 1`; `none` if one of the cells holds nothing. -/
def Memory.readOctets (m : Memory) (off n : Nat) : Option (List Byte) := m.gather ((List.range n).map (off + ·))

/-- Store octets from `off` on. -/
def Memory.writeOctets (m : Memory) : Nat → List Byte → Memory
  | _, [] => m
  | off, b :: bs => Memory.writeOctets (m.put off b) (off + 1) bs

/-! ## Big-endian integers (R10, R50) -/

/-- The unsigned integer of octets, most significant first (R10). -/
def beValue : List Byte → Nat
  | [] => 0
  | b :: bs => b.toNat * 256 ^ bs.length + beValue bs

/-- The `n` octets of an unsigned integer, most significant first (R10). -/
def beOctets : Nat → Nat → List Byte
  | 0, _ => []
  | n + 1, v => BitVec.ofNat 8 (v / 256 ^ n) :: beOctets n v

/-- `MemRead(off, n)` (R10): the big-endian integer in `n` octets. -/
def Memory.memRead (m : Memory) (off n : Nat) : Option Nat := (m.readOctets off n).map beValue

/-- `MemWrite(off, n, v)` (R10). -/
def Memory.memWrite (m : Memory) (off n v : Nat) : Memory := m.writeOctets off (beOctets n v)

/-- Read a field of `w` bits, a whole number of octets, at `off` (R88). -/
def Memory.field (m : Memory) (off w : Nat) : Option (BitVec w) := (m.memRead off (w / 8)).map (BitVec.ofNat w)

/-- Write a field of `w` bits, a whole number of octets, at `off` (R88). -/
def Memory.setField (m : Memory) (off : Nat) {w : Nat} (v : BitVec w) : Memory := m.memWrite off (w / 8) v.toNat

/-! ## Message registers -/

/-- The group holding a value in every register. -/
def HRegs.of (x : Header) : HRegs where
  cd          := some x.cd
  subtype     := some x.subtype
  sv          := some x.sv
  version     := some x.version
  messageType := some x.messageType
  validTime   := some x.validTime
  dataLength  := some x.dataLength

/-- The value a group holds; `none` if one of its registers holds nothing (R33). -/
def HRegs.value (r : HRegs) : Option Header := do
  let cd ← r.cd
  let subtype ← r.subtype
  let sv ← r.sv
  let version ← r.version
  let messageType ← r.messageType
  let validTime ← r.validTime
  let dataLength ← r.dataLength
  return { cd, subtype, sv, version, messageType, validTime, dataLength }

/-- The group holding a value in every register. -/
def AdpRegs.of (x : Discovery) : AdpRegs where
  entityId               := some x.entityId
  vendorId               := some x.vendorId
  modelId                := some x.modelId
  entityCapabilities     := some x.entityCapabilities
  talkerStreamSources    := some x.talkerStreamSources
  talkerCapabilities     := some x.talkerCapabilities
  listenerStreamSinks    := some x.listenerStreamSinks
  listenerCapabilities   := some x.listenerCapabilities
  controllerCapabilities := some x.controllerCapabilities
  availableIndex         := some x.availableIndex
  gmId                   := some x.gmId
  defaultAudioFormat     := some x.defaultAudioFormat
  defaultVideoFormat     := some x.defaultVideoFormat
  associationId          := some x.associationId
  entityType             := some x.entityType

/-- The value a group holds; `none` if one of its registers holds nothing (R33). -/
def AdpRegs.value (r : AdpRegs) : Option Discovery := do
  let entityId ← r.entityId
  let vendorId ← r.vendorId
  let modelId ← r.modelId
  let entityCapabilities ← r.entityCapabilities
  let talkerStreamSources ← r.talkerStreamSources
  let talkerCapabilities ← r.talkerCapabilities
  let listenerStreamSinks ← r.listenerStreamSinks
  let listenerCapabilities ← r.listenerCapabilities
  let controllerCapabilities ← r.controllerCapabilities
  let availableIndex ← r.availableIndex
  let gmId ← r.gmId
  let defaultAudioFormat ← r.defaultAudioFormat
  let defaultVideoFormat ← r.defaultVideoFormat
  let associationId ← r.associationId
  let entityType ← r.entityType
  return { entityId, vendorId, modelId, entityCapabilities, talkerStreamSources, talkerCapabilities,
           listenerStreamSinks, listenerCapabilities, controllerCapabilities, availableIndex, gmId,
           defaultAudioFormat, defaultVideoFormat, associationId, entityType }

/-- The group holding a value in every register. -/
def AcmpRegs.of (x : Connection) : AcmpRegs where
  streamId         := some x.streamId
  controllerId     := some x.controllerId
  talkerId         := some x.talkerId
  listenerId       := some x.listenerId
  talkerUniqueId   := some x.talkerUniqueId
  listenerUniqueId := some x.listenerUniqueId
  destMac          := some x.destMac
  connectionCount  := some x.connectionCount
  sequenceId       := some x.sequenceId
  flags            := some x.flags
  defaultFormat    := some x.defaultFormat

/-- The value a group holds; `none` if one of its registers holds nothing (R33). -/
def AcmpRegs.value (r : AcmpRegs) : Option Connection := do
  let streamId ← r.streamId
  let controllerId ← r.controllerId
  let talkerId ← r.talkerId
  let listenerId ← r.listenerId
  let talkerUniqueId ← r.talkerUniqueId
  let listenerUniqueId ← r.listenerUniqueId
  let destMac ← r.destMac
  let connectionCount ← r.connectionCount
  let sequenceId ← r.sequenceId
  let flags ← r.flags
  let defaultFormat ← r.defaultFormat
  return { streamId, controllerId, talkerId, listenerId, talkerUniqueId, listenerUniqueId, destMac,
           connectionCount, sequenceId, flags, defaultFormat }

/-- The group holding a value in every register. -/
def AecpRegs.of (x : AecpCommon) : AecpRegs where
  targetId     := some x.targetId
  controllerId := some x.controllerId
  sequenceId   := some x.sequenceId

/-- The value a group holds; `none` if one of its registers holds nothing (R33). -/
def AecpRegs.value (r : AecpRegs) : Option AecpCommon := do
  let targetId ← r.targetId
  let controllerId ← r.controllerId
  let sequenceId ← r.sequenceId
  return { targetId, controllerId, sequenceId }

/-- The group holding a value in every register. -/
def V0Regs.of (x : VendorMessage) : V0Regs where
  modeLen   := some x.modeLen
  ouiFlags  := some x.ouiFlags
  typeFlags := some x.typeFlags
  index1    := some x.index1
  index2    := some x.index2
  index3    := some x.index3

/-- The value a group holds; `none` if one of its registers holds nothing (R33). -/
def V0Regs.value (r : V0Regs) : Option VendorMessage := do
  let modeLen ← r.modeLen
  let ouiFlags ← r.ouiFlags
  let typeFlags ← r.typeFlags
  let index1 ← r.index1
  let index2 ← r.index2
  let index3 ← r.index3
  return { modeLen, ouiFlags, typeFlags, index1, index2, index3 }

/-- The group holding a value in every register. -/
def V1Regs.of (x : AddressAccess) : V1Regs where
  modeLen := some x.modeLen

/-- The value a group holds; `none` if one of its registers holds nothing (R33). -/
def V1Regs.value (r : V1Regs) : Option AddressAccess := do
  let modeLen ← r.modeLen
  return { modeLen }

/-- The group holding a value in every register. -/
def V2Regs.of (x : LegacyCommand) : V2Regs where
  length := some x.length

/-- The value a group holds; `none` if one of its registers holds nothing (R33). -/
def V2Regs.value (r : V2Regs) : Option LegacyCommand := do
  let length ← r.length
  return { length }

/-- The group holding a value in every register. -/
def V3Regs.of (x : VendorSpecific) : V3Regs where
  protocolId := some x.protocolId

/-- The value a group holds; `none` if one of its registers holds nothing (R33). -/
def V3Regs.value (r : V3Regs) : Option VendorSpecific := do
  let protocolId ← r.protocolId
  return { protocolId }

/-- Read a register of group `H` (R24). -/
def HRegs.get (g : HRegs) : (r : HReg) → Option (BitVec r.width)
  | .cd => g.cd
  | .subtype => g.subtype
  | .sv => g.sv
  | .version => g.version
  | .messageType => g.messageType
  | .validTime => g.validTime
  | .dataLength => g.dataLength

/-- Write a register of group `H` (R24, R39). -/
def HRegs.set (g : HRegs) : (r : HReg) → BitVec r.width → HRegs
  | .cd, v => { g with cd := some v }
  | .subtype, v => { g with subtype := some v }
  | .sv, v => { g with sv := some v }
  | .version, v => { g with version := some v }
  | .messageType, v => { g with messageType := some v }
  | .validTime, v => { g with validTime := some v }
  | .dataLength, v => { g with dataLength := some v }

/-- Read a register of the group. -/
def AdpRegs.get (g : AdpRegs) : (r : AdpReg) → Option (BitVec r.width)
  | .entityId => g.entityId
  | .vendorId => g.vendorId
  | .modelId => g.modelId
  | .entityCapabilities => g.entityCapabilities
  | .talkerStreamSources => g.talkerStreamSources
  | .talkerCapabilities => g.talkerCapabilities
  | .listenerStreamSinks => g.listenerStreamSinks
  | .listenerCapabilities => g.listenerCapabilities
  | .controllerCapabilities => g.controllerCapabilities
  | .availableIndex => g.availableIndex
  | .gmId => g.gmId
  | .defaultAudioFormat => g.defaultAudioFormat
  | .defaultVideoFormat => g.defaultVideoFormat
  | .associationId => g.associationId
  | .entityType => g.entityType

/-- Write a register of the group (R39). -/
def AdpRegs.set (g : AdpRegs) : (r : AdpReg) → BitVec r.width → AdpRegs
  | .entityId, v => { g with entityId := some v }
  | .vendorId, v => { g with vendorId := some v }
  | .modelId, v => { g with modelId := some v }
  | .entityCapabilities, v => { g with entityCapabilities := some v }
  | .talkerStreamSources, v => { g with talkerStreamSources := some v }
  | .talkerCapabilities, v => { g with talkerCapabilities := some v }
  | .listenerStreamSinks, v => { g with listenerStreamSinks := some v }
  | .listenerCapabilities, v => { g with listenerCapabilities := some v }
  | .controllerCapabilities, v => { g with controllerCapabilities := some v }
  | .availableIndex, v => { g with availableIndex := some v }
  | .gmId, v => { g with gmId := some v }
  | .defaultAudioFormat, v => { g with defaultAudioFormat := some v }
  | .defaultVideoFormat, v => { g with defaultVideoFormat := some v }
  | .associationId, v => { g with associationId := some v }
  | .entityType, v => { g with entityType := some v }

/-- Read a register of the group. -/
def AcmpRegs.get (g : AcmpRegs) : (r : AcmpReg) → Option (BitVec r.width)
  | .streamId => g.streamId
  | .controllerId => g.controllerId
  | .talkerId => g.talkerId
  | .listenerId => g.listenerId
  | .talkerUniqueId => g.talkerUniqueId
  | .listenerUniqueId => g.listenerUniqueId
  | .destMac => g.destMac
  | .connectionCount => g.connectionCount
  | .sequenceId => g.sequenceId
  | .flags => g.flags
  | .defaultFormat => g.defaultFormat

/-- Write a register of the group (R39). -/
def AcmpRegs.set (g : AcmpRegs) : (r : AcmpReg) → BitVec r.width → AcmpRegs
  | .streamId, v => { g with streamId := some v }
  | .controllerId, v => { g with controllerId := some v }
  | .talkerId, v => { g with talkerId := some v }
  | .listenerId, v => { g with listenerId := some v }
  | .talkerUniqueId, v => { g with talkerUniqueId := some v }
  | .listenerUniqueId, v => { g with listenerUniqueId := some v }
  | .destMac, v => { g with destMac := some v }
  | .connectionCount, v => { g with connectionCount := some v }
  | .sequenceId, v => { g with sequenceId := some v }
  | .flags, v => { g with flags := some v }
  | .defaultFormat, v => { g with defaultFormat := some v }

/-- Read a register of the groups `AECP`, `V0` to `V3` (R27). -/
def Msg.getAecp (m : Msg) : (r : AecpReg) → Option (BitVec r.width)
  | .targetId => m.aecp.targetId
  | .controllerId => m.aecp.controllerId
  | .sequenceId => m.aecp.sequenceId
  | .v0ModeLen => m.v0.modeLen
  | .v0OuiFlags => m.v0.ouiFlags
  | .v0TypeFlags => m.v0.typeFlags
  | .v0Index1 => m.v0.index1
  | .v0Index2 => m.v0.index2
  | .v0Index3 => m.v0.index3
  | .v1ModeLen => m.v1.modeLen
  | .v2Length => m.v2.length
  | .v3ProtocolId => m.v3.protocolId

/-- Write a register of the groups `AECP`, `V0` to `V3` (R27, R39). -/
def Msg.setAecp (m : Msg) : (r : AecpReg) → BitVec r.width → Msg
  | .targetId, v => { m with aecp := { m.aecp with targetId := some v } }
  | .controllerId, v => { m with aecp := { m.aecp with controllerId := some v } }
  | .sequenceId, v => { m with aecp := { m.aecp with sequenceId := some v } }
  | .v0ModeLen, v => { m with v0 := { m.v0 with modeLen := some v } }
  | .v0OuiFlags, v => { m with v0 := { m.v0 with ouiFlags := some v } }
  | .v0TypeFlags, v => { m with v0 := { m.v0 with typeFlags := some v } }
  | .v0Index1, v => { m with v0 := { m.v0 with index1 := some v } }
  | .v0Index2, v => { m with v0 := { m.v0 with index2 := some v } }
  | .v0Index3, v => { m with v0 := { m.v0 with index3 := some v } }
  | .v1ModeLen, v => { m with v1 := { m.v1 with modeLen := some v } }
  | .v2Length, v => { m with v2 := { m.v2 with length := some v } }
  | .v3ProtocolId, v => { m with v3 := { m.v3 with protocolId := some v } }

/-- Read a message register (R24 to R27). -/
def Msg.get (m : Msg) : (r : MsgReg) → Option (BitVec r.width)
  | .h r => m.h.get r
  | .adp r => m.adp.get r
  | .acmp r => m.acmp.get r
  | .aecp r => m.getAecp r

/-- Write a message register; no other register changes (R29, R39). -/
def Msg.set (m : Msg) : (r : MsgReg) → BitVec r.width → Msg
  | .h r, v => { m with h := m.h.set r v }
  | .adp r, v => { m with adp := m.adp.set r v }
  | .acmp r, v => { m with acmp := m.acmp.set r v }
  | .aecp r, v => m.setAecp r v

/-- Variable data in `DATA` and `DLEN` (R28). -/
def Msg.withData (m : Msg) (octets : List Byte) : Msg :=
  { m with data := Memory.ofOctets octets, dlen := some (BitVec.ofNat 10 octets.length) }

/-! ## The end of an operation -/

/-- An operation ends with success (`ok` of R10): `ERR` 0, `ERRINFO` `none`, `RES` the scalar result or `none` (R32). -/
def State.succeed (s : State) (res : Option (BitVec 64)) : State := { s with res := res, err := 0, errinfo := none }

/-- Raising an error, for every operation (R10, R233, R240): (a) `ERR`, `ERRINFO`, `RES <- none`; (b) a decode leaves
no message; (c) a message encode leaves no buffer; (d) a primitive leaves `BUF`, `LEN`, `MSG` as they were. -/
def State.raise (s : State) (k : OpClass) (e : CodecError) : State :=
  let s := { s with res := none, err := e.code, errinfo := some e.info }
  match k with
  | .primitive => s
  | .decode => { s with msg := Msg.empty }
  | .encode => { s with buf := [], len := 0 }

/-- A decode ends with success: the message registers hold exactly this message (R33 (a), R38). -/
def State.finishDecode (s : State) (m : Msg) : State := { s.succeed none with msg := m }

/-- A message encode ends with success: a fresh buffer of `n` octets; `MSG` unchanged (R142, R278). -/
def State.finishEncode (s : State) (m : Memory) (n : Nat) : State :=
  { s.succeed none with buf := m, len := BitVec.ofNat 10 n }

/-- Go on with what was read from cells of `BUF`; a cell below `LEN` that holds nothing breaks R23 (log 6). -/
def withCells {α : Type} (x : Option α) (k : α → Result) : Result :=
  match x with
  | some a => k a
  | none => .fault .bufferCellEmpty

/-- Go on with what was read from message registers; an encode that reads `none` is refused (R33 (c)). -/
def withRegs {α : Type} (x : Option α) (k : α → Result) : Result :=
  match x with
  | some a => k a
  | none => .refused .encodeReadsNone

end Sys2Proof.Machine
end

