-- ==== Sys2Proof/Machine/Operands.lean ====
section
/-!
DEFINITION. Operand forms: the bit range `[LO, HI]` of an octet (R8, R121 to R124), the octet range of a buffer access
and the range check of a value (R125, R129, R130).
-/

namespace Sys2Proof.Machine

/-- Width of the range `[LO, HI]`, `HI - LO + 1`, for `LO ≤ HI` (R121). -/
def rangeWidth (lo hi : BitVec 3) : Nat := hi.toNat - lo.toNat + 1

/-- `A[HI:LO]`: `(A >> LO) mod 2^w` (R8, R121). -/
def extractBits (a : Byte) (lo hi : BitVec 3) : Nat := (a.toNat >>> lo.toNat) % 2 ^ rangeWidth lo hi

/-- The mask of the range, `(2^w - 1) << LO`, 8 bits (R122). -/
def rangeMask (lo hi : BitVec 3) : Byte := BitVec.ofNat 8 (2 ^ rangeWidth lo hi - 1) <<< lo.toNat

/-- The octet with the range cleared and then set to the value (R122). -/
def insertBits (a : Byte) (lo hi : BitVec 3) (val : BitVec 64) : Byte :=
  (a &&& ~~~ rangeMask lo hi) ||| (BitVec.setWidth 8 val <<< lo.toNat)

/-- A value fits `w` bits (R122, R129, R130): the whole 64-bit `VAL` is checked (R31). -/
def fits (val : BitVec 64) (w : Nat) : Bool := decide (val.toNat < 2 ^ w)

/-- An access of `n` octets at `OFF` stays within the `LEN` octets of the buffer (R57, R125). -/
def inBounds (off : BitVec 10) (n : Nat) (s : State) : Bool := decide (off.toNat + n ≤ s.len.toNat)

end Sys2Proof.Machine
end

