-- ==== Sys2Proof/Machine/Fields.lean ====
section
/-!
DEFINITION. The frame formats (R90, R91, R93, R95 to R99): every field at its offset, in both directions. The offsets
are those of 30_encoding.md; the header is assembled as R86 and R87 say, not as the reference does (R89, C5).
-/

namespace Sys2Proof.Machine

/-! ## The header (R86, R87, R90) -/

/-- The Header value in four octets (R141). -/
def unpackHeader (b0 b1 b2 b3 : Byte) : Header where
  cd          := b0.extractLsb' 7 1
  subtype     := b0.extractLsb' 0 7
  sv          := b1.extractLsb' 7 1
  version     := b1.extractLsb' 4 3
  messageType := b1.extractLsb' 0 4
  validTime   := b2.extractLsb' 3 5
  dataLength  := b2.extractLsb' 0 3 ++ b3

/-- The four octets of a Header value (R142). -/
def packHeader (h : Header) : List Byte :=
  [h.cd ++ h.subtype, h.sv ++ h.version ++ h.messageType, h.validTime ++ h.dataLength.extractLsb' 8 3,
   h.dataLength.extractLsb' 0 8]

/-- Decode the header from `BUF[0..3]` (R141). -/
def readHeader (m : Memory) : Option Header := do
  let b0 ← m.get 0
  let b1 ← m.get 1
  let b2 ← m.get 2
  let b3 ← m.get 3
  return unpackHeader b0 b1 b2 b3

/-- The header of a frame whose word `{BUF[0], BUF[1]}` has been fetched and decoded: octets 0 and 1 from the word,
octets 2 and 3 from `BUF` (R90, R111; log 3). -/
def frameHeader (w : BitVec 16) (m : Memory) : Option Header := do
  let b2 ← m.get 2
  let b3 ← m.get 3
  return unpackHeader (w.extractLsb' 8 8) (w.extractLsb' 0 8) b2 b3

/-- Encode the header into `BUF[0..3]` (R142). -/
def writeHeader (m : Memory) (h : Header) : Memory := m.writeOctets 0 (packHeader h)

/-! ## The message bodies -/

/-- Decode the ADP body, offsets 4 to 67 (R91, R151). -/
def readDiscovery (m : Memory) : Option Discovery := do
  let entityId ← m.field 4 64
  let vendorId ← m.field 12 32
  let modelId ← m.field 16 32
  let entityCapabilities ← m.field 20 32
  let talkerStreamSources ← m.field 24 16
  let talkerCapabilities ← m.field 26 16
  let listenerStreamSinks ← m.field 28 16
  let listenerCapabilities ← m.field 30 16
  let controllerCapabilities ← m.field 32 32
  let availableIndex ← m.field 36 32
  let gmId ← m.field 40 64
  let defaultAudioFormat ← m.field 48 32
  let defaultVideoFormat ← m.field 52 32
  let associationId ← m.field 56 64
  let entityType ← m.field 64 32
  return { entityId, vendorId, modelId, entityCapabilities, talkerStreamSources, talkerCapabilities,
           listenerStreamSinks, listenerCapabilities, controllerCapabilities, availableIndex, gmId,
           defaultAudioFormat, defaultVideoFormat, associationId, entityType }

/-- Encode the ADP body, offsets 4 to 67 (R91, R152). -/
def writeDiscovery (m : Memory) (x : Discovery) : Memory :=
  let m := m.setField 4 x.entityId
  let m := m.setField 12 x.vendorId
  let m := m.setField 16 x.modelId
  let m := m.setField 20 x.entityCapabilities
  let m := m.setField 24 x.talkerStreamSources
  let m := m.setField 26 x.talkerCapabilities
  let m := m.setField 28 x.listenerStreamSinks
  let m := m.setField 30 x.listenerCapabilities
  let m := m.setField 32 x.controllerCapabilities
  let m := m.setField 36 x.availableIndex
  let m := m.setField 40 x.gmId
  let m := m.setField 48 x.defaultAudioFormat
  let m := m.setField 52 x.defaultVideoFormat
  let m := m.setField 56 x.associationId
  let m := m.setField 64 x.entityType
  m

/-- Decode the ACMP body, offsets 4 to 55 (R93, R161). -/
def readConnection (m : Memory) : Option Connection := do
  let streamId ← m.field 4 64
  let controllerId ← m.field 12 64
  let talkerId ← m.field 20 64
  let listenerId ← m.field 28 64
  let talkerUniqueId ← m.field 36 16
  let listenerUniqueId ← m.field 38 16
  let destMac ← m.field 40 48
  let connectionCount ← m.field 46 16
  let sequenceId ← m.field 48 16
  let flags ← m.field 50 16
  let defaultFormat ← m.field 52 32
  return { streamId, controllerId, talkerId, listenerId, talkerUniqueId, listenerUniqueId, destMac,
           connectionCount, sequenceId, flags, defaultFormat }

/-- Encode the ACMP body, offsets 4 to 55 (R93, R162). -/
def writeConnection (m : Memory) (x : Connection) : Memory :=
  let m := m.setField 4 x.streamId
  let m := m.setField 12 x.controllerId
  let m := m.setField 20 x.talkerId
  let m := m.setField 28 x.listenerId
  let m := m.setField 36 x.talkerUniqueId
  let m := m.setField 38 x.listenerUniqueId
  let m := m.setField 40 x.destMac
  let m := m.setField 46 x.connectionCount
  let m := m.setField 48 x.sequenceId
  let m := m.setField 50 x.flags
  let m := m.setField 52 x.defaultFormat
  m

/-- Decode the AECP common fields, offsets 4 to 21 (R95, R177). -/
def readAecpCommon (m : Memory) : Option AecpCommon := do
  let targetId ← m.field 4 64
  let controllerId ← m.field 12 64
  let sequenceId ← m.field 20 16
  return { targetId, controllerId, sequenceId }

/-- Encode the AECP common fields, offsets 4 to 21 (R95, R182). -/
def writeAecpCommon (m : Memory) (x : AecpCommon) : Memory :=
  let m := m.setField 4 x.targetId
  let m := m.setField 12 x.controllerId
  let m := m.setField 20 x.sequenceId
  m

/-- Decode the fixed part of V0, offsets 22 to 35 (R96, R178). -/
def readVendorMessage (m : Memory) : Option VendorMessage := do
  let modeLen ← m.field 22 16
  let ouiFlags ← m.field 24 32
  let typeFlags ← m.field 28 16
  let index1 ← m.field 30 16
  let index2 ← m.field 32 16
  let index3 ← m.field 34 16
  return { modeLen, ouiFlags, typeFlags, index1, index2, index3 }

/-- Encode the fixed part of V0, offsets 22 to 35 (R96, R183). -/
def writeVendorMessage (m : Memory) (x : VendorMessage) : Memory :=
  let m := m.setField 22 x.modeLen
  let m := m.setField 24 x.ouiFlags
  let m := m.setField 28 x.typeFlags
  let m := m.setField 30 x.index1
  let m := m.setField 32 x.index2
  let m := m.setField 34 x.index3
  m

/-- Decode the fixed part of V1, offsets 22 to 23 (R97, R179). -/
def readAddressAccess (m : Memory) : Option AddressAccess := do
  let modeLen ← m.field 22 16
  return { modeLen }

/-- Encode the fixed part of V1, offsets 22 to 23 (R97, R184). -/
def writeAddressAccess (m : Memory) (x : AddressAccess) : Memory :=
  let m := m.setField 22 x.modeLen
  m

/-- Decode the fixed part of V2, offsets 22 to 23 (R98, R180). -/
def readLegacyCommand (m : Memory) : Option LegacyCommand := do
  let length ← m.field 22 16
  return { length }

/-- Encode the fixed part of V2, offsets 22 to 23 (R98, R185). -/
def writeLegacyCommand (m : Memory) (x : LegacyCommand) : Memory :=
  let m := m.setField 22 x.length
  m

/-- Decode the fixed part of V3, offsets 22 to 27 (R99, R181). -/
def readVendorSpecific (m : Memory) : Option VendorSpecific := do
  let protocolId ← m.field 22 48
  return { protocolId }

/-- Encode the fixed part of V3, offsets 22 to 27 (R99, R186). -/
def writeVendorSpecific (m : Memory) (x : VendorSpecific) : Memory :=
  let m := m.setField 22 x.protocolId
  m

/-! ## The payload as a sum over the variants (R29, R175) -/

/-- Decode the fixed part of the selected variant (R177). -/
def readPayload (m : Memory) : Variant → Option Payload
  | .v0 => (readVendorMessage m).map .v0
  | .v1 => (readAddressAccess m).map .v1
  | .v2 => (readLegacyCommand m).map .v2
  | .v3 => (readVendorSpecific m).map .v3

/-- Encode the fixed part of a variant (R182). -/
def writePayload (m : Memory) : Payload → Memory
  | .v0 p => writeVendorMessage m p
  | .v1 p => writeAddressAccess m p
  | .v2 p => writeLegacyCommand m p
  | .v3 p => writeVendorSpecific m p

/-- The payload that the registers of a variant group hold; the other groups are not read (R182). -/
def Msg.payload (m : Msg) : Variant → Option Payload
  | .v0 => m.v0.value.map .v0
  | .v1 => m.v1.value.map .v1
  | .v2 => m.v2.value.map .v2
  | .v3 => m.v3.value.map .v3

/-- Write a payload to its variant group (R177). -/
def Msg.withPayload (m : Msg) : Payload → Msg
  | .v0 p => { m with v0 := .of p }
  | .v1 p => { m with v1 := .of p }
  | .v2 p => { m with v2 := .of p }
  | .v3 p => { m with v3 := .of p }

/-! ## The message values in an otherwise empty register file (R33 (a)) -/

/-- The registers after a header decode (R141). -/
def headerMsg (h : Header) : Msg := { Msg.empty with h := .of h }

/-- The registers after an ADP decode (R151). -/
def adpMsg (h : Header) (b : Discovery) : Msg := { headerMsg h with adp := .of b }

/-- The registers after an ACMP decode (R161). -/
def acmpMsg (h : Header) (b : Connection) : Msg := { headerMsg h with acmp := .of b }

/-- The registers after an AECP decode (R177). -/
def aecpMsg (h : Header) (c : AecpCommon) (p : Payload) (data : List Byte) : Msg :=
  (({ headerMsg h with aecp := .of c } : Msg).withPayload p).withData data

end Sys2Proof.Machine
end

