-- ==== Sys2Proof/Machine/Bits.lean ====
section
/-!
DEFINITION. The bit-range operations RDBITS and WRBITS (R121 to R124): functions of their operands, which read and
write no buffer (R120).
-/

namespace Sys2Proof.Machine

/-- RDBITS (R121): `RES <- A[HI:LO]`; `LO > HI` is refused (R124). -/
def execRdbits (a : BitVec 8) (lo hi : BitVec 3) (s : State) : Result :=
  if rangeOk lo hi then .next (s.succeed (some (BitVec.ofNat 64 (extractBits a lo hi))))
  else .refused (.emptyRange lo hi)

/-- WRBITS (R122, R123): `RES <-` the octet with the range replaced; a value that does not fit raises
`ValueOutOfRange(w)`; `LO > HI` is refused (R124). -/
def execWrbits (a : BitVec 8) (lo hi : BitVec 3) (val : BitVec 64) (s : State) : Result :=
  if rangeOk lo hi then
    if fits val (rangeWidth lo hi) then .next (s.succeed (some ((insertBits a lo hi val).setWidth 64)))
    else .next (s.raise .primitive (.valueOutOfRange (BitVec.ofNat 16 (rangeWidth lo hi))))
  else .refused (.emptyRange lo hi)

end Sys2Proof.Machine
end

