-- ==== Sys2Proof/Machine/BigEndian.lean ====
section
/-!
DEFINITION. The big-endian buffer operations (R125 to R132): in place on `BUF` at an octet offset, never changing `LEN`.
-/

namespace Sys2Proof.Machine

/-- Read `n` octets at `OFF` and go on with the integer (R126 to R128, R132); past `LEN`, `TruncatedPacket(LEN)`. -/
def loadBe (n : Nat) (off : BitVec 10) (s : State) (k : Nat → BitVec 64) : Result :=
  if inBounds off n s then withCells (s.buf.memRead off.toNat n) (fun v => .next (s.succeed (some (k v))))
  else .next (s.raise .primitive (.truncatedPacket s.len))

/-- Write the low `n` octets of `VAL` at `OFF` (R129 to R131): the bound is checked first, then the value's range
(R236 (a)); on either error `BUF` is unchanged. -/
def storeBe (n : Nat) (off : BitVec 10) (val : BitVec 64) (s : State) : Result :=
  if inBounds off n s then
    if fits val (8 * n) then .next { s.succeed none with buf := s.buf.memWrite off.toNat n val.toNat }
    else .next (s.raise .primitive (.valueOutOfRange (BitVec.ofNat 16 (8 * n))))
  else .next (s.raise .primitive (.truncatedPacket s.len))

/-- RDBE16 (R126). -/
def execRdbe16 (off : BitVec 10) (s : State) : Result := loadBe 2 off s (BitVec.ofNat 64)

/-- RDBE32 (R127). -/
def execRdbe32 (off : BitVec 10) (s : State) : Result := loadBe 4 off s (BitVec.ofNat 64)

/-- RDBE64 (R128). -/
def execRdbe64 (off : BitVec 10) (s : State) : Result := loadBe 8 off s (BitVec.ofNat 64)

/-- WRBE16 (R129). -/
def execWrbe16 (off : BitVec 10) (val : BitVec 64) (s : State) : Result := storeBe 2 off val s

/-- WRBE32 (R130). -/
def execWrbe32 (off : BitVec 10) (val : BitVec 64) (s : State) : Result := storeBe 4 off val s

/-- WRBE64 (R131): every 64-bit `VAL` fits, so only the bound can fail. -/
def execWrbe64 (off : BitVec 10) (val : BitVec 64) (s : State) : Result := storeBe 8 off val s

/-- CMPBE32 (R132): `RES` is 1 if the 32-bit integer at `OFF` equals the whole of `VAL`, else 0. -/
def execCmpbe32 (off : BitVec 10) (val : BitVec 64) (s : State) : Result :=
  loadBe 4 off s (fun v => comparisonResult (decide (v = val.toNat)))

end Sys2Proof.Machine
end

