-- ==== Sys2Proof/Machine/Codec.lean ====
section
/-!
DEFINITION. The message decodes and encodes as shared operations (42_header.md to 45_aecp.md). A decode takes how its
header is read, so that an operation (which reads `BUF[0..3]`) and a frame row (whose octets 0 and 1 have been fetched as
the row's word) are one operation. Checks stand in the order of R236.
-/

namespace Sys2Proof.Machine

/-- Raise a decode's error (R240 (b)). -/
def failDecode (e : CodecError) (s : State) : Result := .next (s.raise .decode e)

/-- Raise a message encode's error (R240 (c)). -/
def failEncode (e : CodecError) (s : State) : Result := .next (s.raise .encode e)

/-! ## Header (R141, R142) -/

/-- R141. -/
def decodeHeader (s : State) : Result :=
  if s.len.toNat < hdrLen then failDecode (.truncatedPacket s.len) s
  else withCells (readHeader s.buf) fun h => .next (s.finishDecode (headerMsg h))

/-- R142. -/
def encodeHeader (s : State) : Result :=
  withRegs s.msg.h.value fun h => .next (s.finishEncode (writeHeader [] h) hdrLen)

/-! ## ADP (R151, R152) -/

/-- R151: the length check before any octet is read; no field is checked (R153). -/
def decodeAdp (header : Option Header) (s : State) : Result :=
  if s.len.toNat < adpLen then failDecode (.truncatedPacket s.len) s
  else
    withCells header fun h =>
    withCells (readDiscovery s.buf) fun b =>
    .next (s.finishDecode (adpMsg h b))

/-- R152. -/
def encodeAdp (s : State) : Result :=
  withRegs s.msg.h.value fun h =>
  withRegs s.msg.adp.value fun b =>
  .next (s.finishEncode (writeDiscovery (writeHeader [] h) b) adpLen)

/-! ## ACMP (R161, R162) -/

/-- The domain checks of ACMP, in order (R163 to R165, R236): the message type, then the status. -/
def acmpCheck (h : Header) : Option CodecError :=
  if acmpMsgtypeDefined h.messageType = false then some (.unknownMessageType h.messageType)
  else if acmpStatusDefined h.validTime = false then some (.unknownStatus h.validTime)
  else none

/-- R161. -/
def decodeAcmp (header : Option Header) (s : State) : Result :=
  if s.len.toNat < acmpLen then failDecode (.truncatedPacket s.len) s
  else
    withCells header fun h =>
    match acmpCheck h with
    | some e => failDecode e s
    | none =>
      withCells (readConnection s.buf) fun b =>
      .next (s.finishDecode (acmpMsg h b))

/-- R162: the same checks as the decode (R165). -/
def encodeAcmp (s : State) : Result :=
  withRegs s.msg.h.value fun h =>
  withRegs s.msg.acmp.value fun b =>
  match acmpCheck h with
  | some e => failEncode e s
  | none => .next (s.finishEncode (writeConnection (writeHeader [] h) b) acmpLen)

/-! ## AECP (R177 to R190) -/

/-- Decode the payload of the selected variant (R177): the second length check, the fixed part, the variable data to the
end of the buffer (R187). -/
def decodeAecpPayload (h : Header) (c : AecpCommon) (v : Variant) (s : State) : Result :=
  let start := aecpPrefixLen + v.fixed
  if s.len.toNat < start then failDecode (.truncatedPacket s.len) s
  else
    withCells (readPayload s.buf v) fun p =>
    withCells (s.buf.readOctets start (s.len.toNat - start)) fun data =>
    .next (s.finishDecode (aecpMsg h c p data))

/-- R177. -/
def decodeAecp (header : Option Header) (s : State) : Result :=
  if s.len.toNat < aecpPrefixLen then failDecode (.truncatedPacket s.len) s
  else
    withCells header fun h =>
    withCells (readAecpCommon s.buf) fun c =>
    match variantOf h.messageType with
    | .unsupported => failDecode (.unsupportedVariant h.messageType) s
    | .unknown => failDecode (.unknownMessageType h.messageType) s
    | .variant v => decodeAecpPayload h c v s

/-- Encode with the selected variant (R182): its registers and `DLEN` are read, the payload budget is checked (R190),
then the frame is built. -/
def encodeAecpPayload (h : Header) (c : AecpCommon) (v : Variant) (s : State) : Result :=
  let start := aecpPrefixLen + v.fixed
  withRegs (s.msg.payload v) fun p =>
  withRegs s.msg.dlen fun dlen =>
  if v.dataMax < dlen.toNat then failEncode (.valueOutOfRange (dlen.setWidth 16)) s
  else
    withRegs (s.msg.data.readOctets 0 dlen.toNat) fun data =>
    .next (s.finishEncode ((writePayload (writeAecpCommon (writeHeader [] h) c) p).writeOctets start data)
      (start + dlen.toNat))

/-- R182: the same message-type dispatch as the decode (R188). -/
def encodeAecp (s : State) : Result :=
  withRegs s.msg.h.value fun h =>
  withRegs s.msg.aecp.value fun c =>
  match variantOf h.messageType with
  | .unsupported => failEncode (.unsupportedVariant h.messageType) s
  | .unknown => failEncode (.unknownMessageType h.messageType) s
  | .variant v => encodeAecpPayload h c v s

/-! ## Dispatch on the subtype (R201) -/

/-- Decode the frame in `BUF` with the layout its subtype selects (R100, R201). -/
def decodeMessage (s : State) : Result :=
  if s.len.toNat < hdrLen then failDecode (.truncatedPacket s.len) s
  else
    withCells (s.buf.get 0) fun b0 =>
    let subtype : BitVec 7 := b0.extractLsb' 0 7
    if subtype = subtypeAdp then decodeAdp (readHeader s.buf) s
    else if subtype = subtypeAecp then decodeAecp (readHeader s.buf) s
    else if subtype = subtypeAcmp then decodeAcmp (readHeader s.buf) s
    else failDecode (.unknownSubtype subtype) s

end Sys2Proof.Machine
end

