-- ==== Sys2Proof/Machine/Messages.lean ====
section
/-!
DEFINITION. The message-level operations: one definition per operation row of R84 over the shared operations of
Codec.lean. Each decode reads its header from `BUF[0..3]`.
-/

namespace Sys2Proof.Machine

/-- DECHDR (R141). -/
def execDechdr (s : State) : Result := decodeHeader s

/-- ENCHDR (R142). -/
def execEnchdr (s : State) : Result := encodeHeader s

/-- DECADP (R151). -/
def execDecadp (s : State) : Result := decodeAdp (readHeader s.buf) s

/-- ENCADP (R152). -/
def execEncadp (s : State) : Result := encodeAdp s

/-- DECACMP (R161). -/
def execDecacmp (s : State) : Result := decodeAcmp (readHeader s.buf) s

/-- ENCACMP (R162). -/
def execEncacmp (s : State) : Result := encodeAcmp s

/-- DECAECP (R177). -/
def execDecaecp (s : State) : Result := decodeAecp (readHeader s.buf) s

/-- ENCAECP (R182). -/
def execEncaecp (s : State) : Result := encodeAecp s

/-- DECMSG (R201). -/
def execDecmsg (s : State) : Result := decodeMessage s

end Sys2Proof.Machine
end

