-- ==== Sys2Proof/Machine/Frames.lean ====
section
/-!
DEFINITION. The frame rows of the opcode table: one definition per row. A frame row's `rule` is the decode rule that
gives its meaning (R111): the frame stands in `BUF`, its word `{BUF[0], BUF[1]}` has been fetched and matched, and the
row decodes it (log 3). The row fixes the subtype and, but for ADP, the message type; a reserved row is an encoding whose
decode fails with the error the table names.
-/

namespace Sys2Proof.Machine

/-- A frame of the ADP layout (R101, R151). -/
def runAdpFrame (p : FrameBits) (t : BitVec 4) (s : State) : Result :=
  decodeAdp (frameHeader (frameWord subtypeAdp p t) s.buf) s

/-- A frame of the ACMP layout with the row's message type (R102, R161). -/
def runAcmpFrame (t : BitVec 4) (p : FrameBits) (s : State) : Result :=
  decodeAcmp (frameHeader (frameWord subtypeAcmp p t) s.buf) s

/-- A frame of the AECP layout with the row's message type (R103, R177). -/
def runAecpFrame (t : BitVec 4) (p : FrameBits) (s : State) : Result :=
  decodeAecp (frameHeader (frameWord subtypeAecp p t) s.buf) s

/-- Row ADP (R151). -/
def execAdp (p : FrameBits) (messageType : BitVec 4) (s : State) : Result := runAdpFrame p messageType s

/-- Row ACMP.CONNECT_TX_COMMAND (R161). -/
def execAcmpConnectTxCommand (p : FrameBits) (s : State) : Result := runAcmpFrame 0 p s

/-- Row ACMP.CONNECT_TX_RESPONSE (R161). -/
def execAcmpConnectTxResponse (p : FrameBits) (s : State) : Result := runAcmpFrame 1 p s

/-- Row ACMP.DISCONNECT_TX_COMMAND (R161). -/
def execAcmpDisconnectTxCommand (p : FrameBits) (s : State) : Result := runAcmpFrame 2 p s

/-- Row ACMP.DISCONNECT_TX_RESPONSE (R161). -/
def execAcmpDisconnectTxResponse (p : FrameBits) (s : State) : Result := runAcmpFrame 3 p s

/-- Row ACMP.GET_TX_STATE_COMMAND (R161). -/
def execAcmpGetTxStateCommand (p : FrameBits) (s : State) : Result := runAcmpFrame 4 p s

/-- Row ACMP.GET_TX_STATE_RESPONSE (R161). -/
def execAcmpGetTxStateResponse (p : FrameBits) (s : State) : Result := runAcmpFrame 5 p s

/-- Row ACMP.CONNECT_RX_COMMAND (R161). -/
def execAcmpConnectRxCommand (p : FrameBits) (s : State) : Result := runAcmpFrame 6 p s

/-- Row ACMP.CONNECT_RX_RESPONSE (R161). -/
def execAcmpConnectRxResponse (p : FrameBits) (s : State) : Result := runAcmpFrame 7 p s

/-- Row ACMP.DISCONNECT_RX_COMMAND (R161). -/
def execAcmpDisconnectRxCommand (p : FrameBits) (s : State) : Result := runAcmpFrame 8 p s

/-- Row ACMP.DISCONNECT_RX_RESPONSE (R161). -/
def execAcmpDisconnectRxResponse (p : FrameBits) (s : State) : Result := runAcmpFrame 9 p s

/-- Row ACMP.GET_RX_STATE_COMMAND (R161). -/
def execAcmpGetRxStateCommand (p : FrameBits) (s : State) : Result := runAcmpFrame 10 p s

/-- Row ACMP.GET_RX_STATE_RESPONSE (R161). -/
def execAcmpGetRxStateResponse (p : FrameBits) (s : State) : Result := runAcmpFrame 11 p s

/-- Row ACMP.GET_TX_CONNECTION_COMMAND (R161). -/
def execAcmpGetTxConnectionCommand (p : FrameBits) (s : State) : Result := runAcmpFrame 12 p s

/-- Row ACMP.GET_TX_CONNECTION_RESPONSE (R161). -/
def execAcmpGetTxConnectionResponse (p : FrameBits) (s : State) : Result := runAcmpFrame 13 p s

/-- Row ACMP.RESERVED_14 (R164: UnknownMessageType). -/
def execAcmpReserved14 (p : FrameBits) (s : State) : Result := runAcmpFrame 14 p s

/-- Row ACMP.RESERVED_15 (R164: UnknownMessageType). -/
def execAcmpReserved15 (p : FrameBits) (s : State) : Result := runAcmpFrame 15 p s

/-- Row AECP.AVDECC_MESSAGE_COMMAND (R177, R178). -/
def execAecpAvdeccMessageCommand (p : FrameBits) (s : State) : Result := runAecpFrame 0 p s

/-- Row AECP.AVDECC_MESSAGE_RESPONSE (R177, R178). -/
def execAecpAvdeccMessageResponse (p : FrameBits) (s : State) : Result := runAecpFrame 1 p s

/-- Row AECP.ADDRESS_ACCESS_COMMAND (R177, R179). -/
def execAecpAddressAccessCommand (p : FrameBits) (s : State) : Result := runAecpFrame 2 p s

/-- Row AECP.ADDRESS_ACCESS_RESPONSE (R177, R179). -/
def execAecpAddressAccessResponse (p : FrameBits) (s : State) : Result := runAecpFrame 3 p s

/-- Row AECP.AVC_COMMAND (R177, R180). -/
def execAecpAvcCommand (p : FrameBits) (s : State) : Result := runAecpFrame 4 p s

/-- Row AECP.AVC_RESPONSE (R177, R180). -/
def execAecpAvcResponse (p : FrameBits) (s : State) : Result := runAecpFrame 5 p s

/-- Row AECP.VENDOR_UNIQUE_COMMAND (R177, R181). -/
def execAecpVendorUniqueCommand (p : FrameBits) (s : State) : Result := runAecpFrame 6 p s

/-- Row AECP.VENDOR_UNIQUE_RESPONSE (R177, R181). -/
def execAecpVendorUniqueResponse (p : FrameBits) (s : State) : Result := runAecpFrame 7 p s

/-- Row AECP.RESERVED_8 (R176: UnknownMessageType). -/
def execAecpReserved8 (p : FrameBits) (s : State) : Result := runAecpFrame 8 p s

/-- Row AECP.RESERVED_9 (R176: UnknownMessageType). -/
def execAecpReserved9 (p : FrameBits) (s : State) : Result := runAecpFrame 9 p s

/-- Row AECP.RESERVED_10 (R176: UnknownMessageType). -/
def execAecpReserved10 (p : FrameBits) (s : State) : Result := runAecpFrame 10 p s

/-- Row AECP.RESERVED_11 (R176: UnknownMessageType). -/
def execAecpReserved11 (p : FrameBits) (s : State) : Result := runAecpFrame 11 p s

/-- Row AECP.RESERVED_12 (R176: UnknownMessageType). -/
def execAecpReserved12 (p : FrameBits) (s : State) : Result := runAecpFrame 12 p s

/-- Row AECP.RESERVED_13 (R176: UnknownMessageType). -/
def execAecpReserved13 (p : FrameBits) (s : State) : Result := runAecpFrame 13 p s

/-- Row AECP.EXTENDED_COMMAND (R176: UnsupportedVariant). -/
def execAecpExtendedCommand (p : FrameBits) (s : State) : Result := runAecpFrame 14 p s

/-- Row AECP.EXTENDED_RESPONSE (R176: UnsupportedVariant). -/
def execAecpExtendedResponse (p : FrameBits) (s : State) : Result := runAecpFrame 15 p s

end Sys2Proof.Machine
end

