-- ==== Sys2Proof/Machine/Dispatch.lean ====
section
/-!
DEFINITION. The meaning of every instruction: one arm per row of spec/opcode_table.json.
-/

namespace Sys2Proof.Machine

def exec (i : Instr) (s : State) : Host.Outcome State Fault Refusal :=
  match i with
  | .rdbits a lo hi => Sys2Proof.Machine.execRdbits a lo hi s
  | .wrbits a lo hi val => Sys2Proof.Machine.execWrbits a lo hi val s
  | .rdbe16 off => Sys2Proof.Machine.execRdbe16 off s
  | .rdbe32 off => Sys2Proof.Machine.execRdbe32 off s
  | .rdbe64 off => Sys2Proof.Machine.execRdbe64 off s
  | .wrbe16 off val => Sys2Proof.Machine.execWrbe16 off val s
  | .wrbe32 off val => Sys2Proof.Machine.execWrbe32 off val s
  | .wrbe64 off val => Sys2Proof.Machine.execWrbe64 off val s
  | .cmpbe32 off val => Sys2Proof.Machine.execCmpbe32 off val s
  | .dechdr => Sys2Proof.Machine.execDechdr s
  | .enchdr => Sys2Proof.Machine.execEnchdr s
  | .decadp => Sys2Proof.Machine.execDecadp s
  | .encadp => Sys2Proof.Machine.execEncadp s
  | .decacmp => Sys2Proof.Machine.execDecacmp s
  | .encacmp => Sys2Proof.Machine.execEncacmp s
  | .decaecp => Sys2Proof.Machine.execDecaecp s
  | .encaecp => Sys2Proof.Machine.execEncaecp s
  | .decmsg => Sys2Proof.Machine.execDecmsg s
  | .adp p messageType => Sys2Proof.Machine.execAdp p messageType s
  | .acmpConnectTxCommand p => Sys2Proof.Machine.execAcmpConnectTxCommand p s
  | .acmpConnectTxResponse p => Sys2Proof.Machine.execAcmpConnectTxResponse p s
  | .acmpDisconnectTxCommand p => Sys2Proof.Machine.execAcmpDisconnectTxCommand p s
  | .acmpDisconnectTxResponse p => Sys2Proof.Machine.execAcmpDisconnectTxResponse p s
  | .acmpGetTxStateCommand p => Sys2Proof.Machine.execAcmpGetTxStateCommand p s
  | .acmpGetTxStateResponse p => Sys2Proof.Machine.execAcmpGetTxStateResponse p s
  | .acmpConnectRxCommand p => Sys2Proof.Machine.execAcmpConnectRxCommand p s
  | .acmpConnectRxResponse p => Sys2Proof.Machine.execAcmpConnectRxResponse p s
  | .acmpDisconnectRxCommand p => Sys2Proof.Machine.execAcmpDisconnectRxCommand p s
  | .acmpDisconnectRxResponse p => Sys2Proof.Machine.execAcmpDisconnectRxResponse p s
  | .acmpGetRxStateCommand p => Sys2Proof.Machine.execAcmpGetRxStateCommand p s
  | .acmpGetRxStateResponse p => Sys2Proof.Machine.execAcmpGetRxStateResponse p s
  | .acmpGetTxConnectionCommand p => Sys2Proof.Machine.execAcmpGetTxConnectionCommand p s
  | .acmpGetTxConnectionResponse p => Sys2Proof.Machine.execAcmpGetTxConnectionResponse p s
  | .acmpReserved14 p => Sys2Proof.Machine.execAcmpReserved14 p s
  | .acmpReserved15 p => Sys2Proof.Machine.execAcmpReserved15 p s
  | .aecpAvdeccMessageCommand p => Sys2Proof.Machine.execAecpAvdeccMessageCommand p s
  | .aecpAvdeccMessageResponse p => Sys2Proof.Machine.execAecpAvdeccMessageResponse p s
  | .aecpAddressAccessCommand p => Sys2Proof.Machine.execAecpAddressAccessCommand p s
  | .aecpAddressAccessResponse p => Sys2Proof.Machine.execAecpAddressAccessResponse p s
  | .aecpAvcCommand p => Sys2Proof.Machine.execAecpAvcCommand p s
  | .aecpAvcResponse p => Sys2Proof.Machine.execAecpAvcResponse p s
  | .aecpVendorUniqueCommand p => Sys2Proof.Machine.execAecpVendorUniqueCommand p s
  | .aecpVendorUniqueResponse p => Sys2Proof.Machine.execAecpVendorUniqueResponse p s
  | .aecpReserved8 p => Sys2Proof.Machine.execAecpReserved8 p s
  | .aecpReserved9 p => Sys2Proof.Machine.execAecpReserved9 p s
  | .aecpReserved10 p => Sys2Proof.Machine.execAecpReserved10 p s
  | .aecpReserved11 p => Sys2Proof.Machine.execAecpReserved11 p s
  | .aecpReserved12 p => Sys2Proof.Machine.execAecpReserved12 p s
  | .aecpReserved13 p => Sys2Proof.Machine.execAecpReserved13 p s
  | .aecpExtendedCommand p => Sys2Proof.Machine.execAecpExtendedCommand p s
  | .aecpExtendedResponse p => Sys2Proof.Machine.execAecpExtendedResponse p s

end Sys2Proof.Machine
end

