-- ==== Sys2Proof/Machine/HostPort.lean ====
section
/-!
DEFINITION. What the host may do between operations (R39, R260, R274, R278), each as one step that keeps the invariants
of R23 and R28 or is refused.
-/

namespace Sys2Proof.Machine

/-- The value the host reads, zero-extended to 64 bits; `none` where the register or cell holds nothing (R39, R33). -/
def hostValue (s : State) : Readable → Option (BitVec 64)
  | .buf off => (s.buf.get off.toNat).map (·.setWidth 64)
  | .len => some (s.len.setWidth 64)
  | .reg r => (s.msg.get r).map (·.setWidth 64)
  | .data i => (s.msg.data.get i.toNat).map (·.setWidth 64)
  | .dlen => s.msg.dlen.map (·.setWidth 64)
  | .res => s.res
  | .err => some (s.err.setWidth 64)
  | .errinfo => s.errinfo.map (·.setWidth 64)

/-- `RESET` (R260): every element of the block's state to its reset value; inputs not yet taken are the host's and stay
(log 8). -/
def applyReset (s : State) : Result := .next { State.reset with inputs := s.inputs }

/-- Load a raw message (R39): `BUF` and `LEN`; more than 536 octets are refused (R274). -/
def loadBuffer (octets : List Byte) (s : State) : Result :=
  if octets.length ≤ Config.bufCap then
    .next { s with buf := Memory.ofOctets octets, len := BitVec.ofNat 10 octets.length }
  else .refused (.loadTooLong octets.length)

/-- Store one octet of the message in `BUF` (R39, R278); the host keeps R23, so the offset is below `LEN`. -/
def storeOctet (off : BitVec 10) (octet : Byte) (s : State) : Result :=
  if off.toNat < s.len.toNat then .next { s with buf := s.buf.put off.toNat octet }
  else .refused (.storeOutsideMessage off)

/-- Write a message register (R39). -/
def setRegister (r : MsgReg) (value : BitVec r.width) (s : State) : Result :=
  .next { s with msg := s.msg.set r value }

/-- Write `DATA` and `DLEN` (R39), at most 512 octets (R28). -/
def setData (octets : List Byte) (s : State) : Result :=
  if octets.length ≤ Config.dataCap then .next { s with msg := s.msg.withData octets }
  else .refused (.dataTooLong octets.length)

/-- Read a register or cell (R39): the host gets `hostValue`; nothing changes (R59); reading `none` is refused. -/
def hostRead (what : Readable) (s : State) : Result :=
  match hostValue s what with
  | some _ => .next s
  | none => .refused (.readOfNone what)

/-- One host action. -/
def hostStep (a : HostAction) (s : State) : Result :=
  match a with
  | .reset => applyReset s
  | .loadBuffer octets => loadBuffer octets s
  | .storeOctet off octet => storeOctet off octet s
  | .setReg r value => setRegister r value s
  | .setData octets => setData octets s
  | .read what => hostRead what s

end Sys2Proof.Machine
end

