-- ==== Sys2Proof/Machine/Fetch.lean ====
section
/-!
DEFINITION. From an input to what is to be run. The block has no program counter and fetches no instructions (R30): an
operation comes with its request; a frame row is fetched from the first two octets of `BUF`, "the nearest thing to an
instruction fetch" (R66, R80).
-/

namespace Sys2Proof.Machine

/-- A request: the operation its `OP` names, or a refusal (R84, R85). -/
def fetchRequest (r : Request) : Fetched :=
  match decodeRequest r with
  | .ok i => .run i
  | .error _ => .done (.refused (.noOperation r.op))

/-- The word `{BUF[0], BUF[1]}` (R111). -/
def fetchWord (m : Memory) : Option (BitVec 16) := do
  let b0 ← m.get 0
  let b1 ← m.get 1
  return b0 ++ b1

/-- The frame row that a frame word selects; no row, an unknown subtype (R104, R111). -/
def selectRow (w : BitVec 16) (s : State) : Fetched :=
  match decodeFrame w with
  | .ok i => .run i
  | .error _ => .done (failDecode (.unknownSubtype (frameSubtype w)) s)

/-- The frame in `BUF`: a complete header is needed (R201), then the row of the opcode table (log 3). -/
def fetchFrame (s : State) : Fetched :=
  if s.len.toNat < hdrLen then .done (failDecode (.truncatedPacket s.len) s)
  else
    match fetchWord s.buf with
    | some w => selectRow w s
    | none => .done (.fault .bufferCellEmpty)

/-- What an input asks for. -/
def fetch (i : Input) (s : State) : Fetched :=
  match i with
  | .request r => fetchRequest r
  | .frame => fetchFrame s
  | .host a => .done (hostStep a s)

/-! ## Placing an instruction where the next step takes it -/

/-- Octets of a placed frame: the longest fixed layout (R6), enough for the fixed part of every row (log 9). -/
def placedFrameLen : Nat := adpLen

/-- A frame with the given first octets and zeros after them. -/
def placedFrame (octets : List Byte) : List Byte :=
  octets ++ List.replicate (placedFrameLen - octets.length) 0

/-- The state whose next step takes a request of these octets. -/
def placeRequest (s : State) (octets : List Byte) : State :=
  match Request.ofOctets octets with
  | .ok r => { s with inputs := .request r :: s.inputs }
  | .error _ => s

/-- The state with this frame in `BUF` and a demand to decode it as the next input. -/
def placeFrame (s : State) (octets : List Byte) : State :=
  { s with buf := Memory.ofOctets (placedFrame octets), len := BitVec.ofNat 10 placedFrameLen,
           inputs := .frame :: s.inputs }

end Sys2Proof.Machine
end

