-- ==== Sys2Proof/Machine/Step.lean ====
section
/-!
DEFINITION. One step: take the first pending input, do what it asks, atomically (R58, R62). With none pending nothing
happens (R245; log 2).
-/

namespace Sys2Proof.Machine

/-- One step. -/
def step (s : State) : Host.Outcome State Fault Refusal :=
  match s.inputs with
  | [] => .next s
  | i :: rest =>
    match fetch i { s with inputs := rest } with
    | .run instr => exec instr { s with inputs := rest }
    | .done o => o

/-- `s` with the instruction of a table word placed so that the very next step runs it: an operation as a pending
request; a frame row as a frame in `BUF`, zeros after its first two octets, and a pending demand to decode it. -/
def State.withFetchWord (s : State) (nbits w : Nat) : State :=
  match tableLevel nbits with
  | .request => placeRequest s (tableOctets nbits w)
  | .frame => placeFrame s (tableOctets nbits w)

end Sys2Proof.Machine
end

