-- ==== Sys2Proof/Machine/Layout.lean ====
section
/-!
DEFINITION. What it is for a message to stand in a buffer, as relations between cells and values (R50, R90 to R99): used
by the statements for both directions, and written without the model's own reads and writes. Octet `k` of an `n`-octet
field of value `v` is `v / 256^(n-1-k) mod 256`, the most significant at the lowest offset (R10, R50).
-/

namespace Sys2Proof.Machine

/-- The unsigned integer `v` stands in the `n` octets at `off`, most significant octet first (R10, R50). -/
def FieldAt (m : Memory) (off n v : Nat) : Prop :=
  ∀ k, k < n → m.get (off + k) = some (BitVec.ofNat 8 (v / 256 ^ (n - 1 - k)))

/-- The octets stand at `off` and after, the first at `off`. -/
def OctetsAt (m : Memory) (off : Nat) (octets : List Byte) : Prop :=
  ∀ k, k < octets.length → m.get (off + k) = octets[k]?

/-- The header stands in octets 0 to 3 (R86, R87, R90). -/
def HeaderAt (m : Memory) (h : Header) : Prop :=
  m.get 0 = some (BitVec.ofNat 8 (h.cd.toNat * 128 + h.subtype.toNat)) ∧
  m.get 1 = some (BitVec.ofNat 8 (h.sv.toNat * 128 + h.version.toNat * 16 + h.messageType.toNat)) ∧
  m.get 2 = some (BitVec.ofNat 8 (h.validTime.toNat * 8 + h.dataLength.toNat / 256)) ∧
  m.get 3 = some (BitVec.ofNat 8 (h.dataLength.toNat % 256))

/-- The ADP body stands in octets 4 to 67 (R91). -/
def DiscoveryAt (m : Memory) (b : Discovery) : Prop :=
  FieldAt m 4 8 b.entityId.toNat ∧
  FieldAt m 12 4 b.vendorId.toNat ∧
  FieldAt m 16 4 b.modelId.toNat ∧
  FieldAt m 20 4 b.entityCapabilities.toNat ∧
  FieldAt m 24 2 b.talkerStreamSources.toNat ∧
  FieldAt m 26 2 b.talkerCapabilities.toNat ∧
  FieldAt m 28 2 b.listenerStreamSinks.toNat ∧
  FieldAt m 30 2 b.listenerCapabilities.toNat ∧
  FieldAt m 32 4 b.controllerCapabilities.toNat ∧
  FieldAt m 36 4 b.availableIndex.toNat ∧
  FieldAt m 40 8 b.gmId.toNat ∧
  FieldAt m 48 4 b.defaultAudioFormat.toNat ∧
  FieldAt m 52 4 b.defaultVideoFormat.toNat ∧
  FieldAt m 56 8 b.associationId.toNat ∧
  FieldAt m 64 4 b.entityType.toNat

/-- The ACMP body stands in octets 4 to 55 (R93). -/
def ConnectionAt (m : Memory) (b : Connection) : Prop :=
  FieldAt m 4 8 b.streamId.toNat ∧
  FieldAt m 12 8 b.controllerId.toNat ∧
  FieldAt m 20 8 b.talkerId.toNat ∧
  FieldAt m 28 8 b.listenerId.toNat ∧
  FieldAt m 36 2 b.talkerUniqueId.toNat ∧
  FieldAt m 38 2 b.listenerUniqueId.toNat ∧
  FieldAt m 40 6 b.destMac.toNat ∧
  FieldAt m 46 2 b.connectionCount.toNat ∧
  FieldAt m 48 2 b.sequenceId.toNat ∧
  FieldAt m 50 2 b.flags.toNat ∧
  FieldAt m 52 4 b.defaultFormat.toNat

/-- The AECP common fields stand in octets 4 to 21 (R95). -/
def AecpCommonAt (m : Memory) (b : AecpCommon) : Prop :=
  FieldAt m 4 8 b.targetId.toNat ∧
  FieldAt m 12 8 b.controllerId.toNat ∧
  FieldAt m 20 2 b.sequenceId.toNat

/-- The fixed part of V0 stands in octets 22 to 35 (R96). -/
def VendorMessageAt (m : Memory) (b : VendorMessage) : Prop :=
  FieldAt m 22 2 b.modeLen.toNat ∧
  FieldAt m 24 4 b.ouiFlags.toNat ∧
  FieldAt m 28 2 b.typeFlags.toNat ∧
  FieldAt m 30 2 b.index1.toNat ∧
  FieldAt m 32 2 b.index2.toNat ∧
  FieldAt m 34 2 b.index3.toNat

/-- The fixed part of V1 stands in octets 22 and 23 (R97). -/
def AddressAccessAt (m : Memory) (b : AddressAccess) : Prop :=
  FieldAt m 22 2 b.modeLen.toNat

/-- The fixed part of V2 stands in octets 22 and 23 (R98). -/
def LegacyCommandAt (m : Memory) (b : LegacyCommand) : Prop :=
  FieldAt m 22 2 b.length.toNat

/-- The fixed part of V3 stands in octets 22 to 27 (R99). -/
def VendorSpecificAt (m : Memory) (b : VendorSpecific) : Prop :=
  FieldAt m 22 6 b.protocolId.toNat

/-- The fixed part of a payload stands in `BUF` (R96 to R99). -/
def PayloadAt (m : Memory) : Payload → Prop
  | .v0 p => VendorMessageAt m p
  | .v1 p => AddressAccessAt m p
  | .v2 p => LegacyCommandAt m p
  | .v3 p => VendorSpecificAt m p

/-- The variant whose fixed part a payload is (R175). -/
def Payload.variant : Payload → Variant
  | .v0 _ => .v0
  | .v1 _ => .v1
  | .v2 _ => .v2
  | .v3 _ => .v3

/-- The offset at which a variant's variable data starts (R103). -/
def Variant.dataStart : Variant → Nat
  | .v0 => 36
  | .v1 => 24
  | .v2 => 24
  | .v3 => 28

/-- An ADP frame: header and body (R91). -/
def AdpFrame (m : Memory) (h : Header) (b : Discovery) : Prop := HeaderAt m h ∧ DiscoveryAt m b

/-- An ACMP frame: header and body (R93). -/
def AcmpFrame (m : Memory) (h : Header) (b : Connection) : Prop := HeaderAt m h ∧ ConnectionAt m b

/-- An AECP frame: header, common fields, fixed part and variable data (R95 to R99). -/
def AecpFrame (m : Memory) (h : Header) (c : AecpCommon) (p : Payload) (data : List Byte) : Prop :=
  HeaderAt m h ∧ AecpCommonAt m c ∧ PayloadAt m p ∧ OctetsAt m p.variant.dataStart data

/-- The open bits of the frame word of a header (R90, R111). -/
def Header.bits (h : Header) : FrameBits := { cd := h.cd, sv := h.sv, version := h.version }

end Sys2Proof.Machine
end

