-- ==== Sys2Proof/Machine/Platform.lean ====
section
/-!
DEFINITION. Any number of codec instances, sharing nothing (R63, R255, D31): each has its own state, and a step is a step
of one of them. That two instances are never given the same storage (R270) is the shape of the type.
-/

namespace Sys2Proof.Machine

/-- The instances of a platform, each with its own state. -/
abbrev Platform := List State

/-- The outcome of a step of instance `k`; a number that names no instance changes nothing. -/
def Platform.stepAt (p : Platform) (k : Nat) : Host.Outcome Platform Fault Refusal :=
  match p[k]? with
  | none => .next p
  | some s =>
    match step s with
    | .next s' => .next (p.set k s')
    | .fault r => .fault r
    | .refused r => .refused r

end Sys2Proof.Machine
end

