-- ==== Sys2Proof/Safety.lean ====
section
/-!
DEFINITION. What a good state and a good outcome are, in the terms the statements use.
-/

namespace Sys2Proof.Machine

/-- The cells that hold an octet are exactly the cells 0 to n - 1. -/
abbrev Memory.holdsExactly (m : Memory) (n : Nat) : Prop := m.map Prod.fst = List.range n

/-- The invariant of `BUF` and `LEN` (R22, R23): exactly the cells below `LEN` hold an octet, and `LEN ≤ 536`. -/
abbrev BufferOk (s : State) : Prop := s.buf.holdsExactly s.len.toNat ∧ s.len.toNat ≤ Config.bufCap

/-- The invariant of `DATA` and `DLEN` (R28): exactly the cells below `DLEN` hold an octet, `DLEN ≤ 512`; with no `DLEN`
no cell holds one. -/
abbrev DataOk (m : Msg) : Prop :=
  match m.dlen with
  | none => m.data = []
  | some d => m.data.holdsExactly d.toNat ∧ d.toNat ≤ Config.dataCap

/-- The status registers (R32, R34, R35): `ERR` is never 7; `ERRINFO` holds a value exactly after a failure; after a
failure `RES` holds none. -/
abbrev StatusOk (s : State) : Prop :=
  s.err ≠ 7 ∧ (s.err = 0 ↔ s.errinfo = none) ∧ (s.err ≠ 0 → s.res = none)

/-- The invariant of the machine (R22, R23, R28, R34, R35). -/
abbrev Inv (s : State) : Prop := BufferOk s ∧ DataOk s.msg ∧ StatusOk s

/-- An outcome that is no fault. -/
def noFault : Result → Bool
  | .next _ => true
  | .fault _ => false
  | .refused _ => true

/-- An instruction of the request level (R80): the host asks for it with an `OP`. -/
def isOperation (i : Instr) : Bool := (encode i).level == .request

/-- Which error codes an instruction can end with (R232, with R230's codes): the raise matrix. A frame row raises what
its decode rule raises for its message type (R102, R103, R105, R106). -/
def raises : Instr → List (BitVec 3)
  | .rdbits _ _ _ => []
  | .wrbits _ _ _ _ => [2]
  | .rdbe16 _ => [1]
  | .rdbe32 _ => [1]
  | .rdbe64 _ => [1]
  | .wrbe16 _ _ => [1, 2]
  | .wrbe32 _ _ => [1, 2]
  | .wrbe64 _ _ => [1]
  | .cmpbe32 _ _ => [1]
  | .dechdr => [1]
  | .enchdr => []
  | .decadp => [1]
  | .encadp => []
  | .decacmp => [1, 4, 5]
  | .encacmp => [4, 5]
  | .decaecp => [1, 4, 6]
  | .encaecp => [2, 4, 6]
  | .decmsg => [1, 3, 4, 5, 6]
  | .adp _ _ => [1]
  | .acmpConnectTxCommand _ => [1, 5]
  | .acmpConnectTxResponse _ => [1, 5]
  | .acmpDisconnectTxCommand _ => [1, 5]
  | .acmpDisconnectTxResponse _ => [1, 5]
  | .acmpGetTxStateCommand _ => [1, 5]
  | .acmpGetTxStateResponse _ => [1, 5]
  | .acmpConnectRxCommand _ => [1, 5]
  | .acmpConnectRxResponse _ => [1, 5]
  | .acmpDisconnectRxCommand _ => [1, 5]
  | .acmpDisconnectRxResponse _ => [1, 5]
  | .acmpGetRxStateCommand _ => [1, 5]
  | .acmpGetRxStateResponse _ => [1, 5]
  | .acmpGetTxConnectionCommand _ => [1, 5]
  | .acmpGetTxConnectionResponse _ => [1, 5]
  | .acmpReserved14 _ => [1, 4]
  | .acmpReserved15 _ => [1, 4]
  | .aecpAvdeccMessageCommand _ => [1]
  | .aecpAvdeccMessageResponse _ => [1]
  | .aecpAddressAccessCommand _ => [1]
  | .aecpAddressAccessResponse _ => [1]
  | .aecpAvcCommand _ => [1]
  | .aecpAvcResponse _ => [1]
  | .aecpVendorUniqueCommand _ => [1]
  | .aecpVendorUniqueResponse _ => [1]
  | .aecpReserved8 _ => [1, 4]
  | .aecpReserved9 _ => [1, 4]
  | .aecpReserved10 _ => [1, 4]
  | .aecpReserved11 _ => [1, 4]
  | .aecpReserved12 _ => [1, 4]
  | .aecpReserved13 _ => [1, 4]
  | .aecpExtendedCommand _ => [1, 6]
  | .aecpExtendedResponse _ => [1, 6]

/-- The class of an instruction (R240): the nine primitives, the decodes (every frame row is one), the message encodes. -/
def opClass : Instr → OpClass
  | .rdbits _ _ _ => .primitive
  | .wrbits _ _ _ _ => .primitive
  | .rdbe16 _ => .primitive
  | .rdbe32 _ => .primitive
  | .rdbe64 _ => .primitive
  | .wrbe16 _ _ => .primitive
  | .wrbe32 _ _ => .primitive
  | .wrbe64 _ _ => .primitive
  | .cmpbe32 _ _ => .primitive
  | .dechdr => .decode
  | .enchdr => .encode
  | .decadp => .decode
  | .encadp => .encode
  | .decacmp => .decode
  | .encacmp => .encode
  | .decaecp => .decode
  | .encaecp => .encode
  | .decmsg => .decode
  | .adp _ _ => .decode
  | .acmpConnectTxCommand _ => .decode
  | .acmpConnectTxResponse _ => .decode
  | .acmpDisconnectTxCommand _ => .decode
  | .acmpDisconnectTxResponse _ => .decode
  | .acmpGetTxStateCommand _ => .decode
  | .acmpGetTxStateResponse _ => .decode
  | .acmpConnectRxCommand _ => .decode
  | .acmpConnectRxResponse _ => .decode
  | .acmpDisconnectRxCommand _ => .decode
  | .acmpDisconnectRxResponse _ => .decode
  | .acmpGetRxStateCommand _ => .decode
  | .acmpGetRxStateResponse _ => .decode
  | .acmpGetTxConnectionCommand _ => .decode
  | .acmpGetTxConnectionResponse _ => .decode
  | .acmpReserved14 _ => .decode
  | .acmpReserved15 _ => .decode
  | .aecpAvdeccMessageCommand _ => .decode
  | .aecpAvdeccMessageResponse _ => .decode
  | .aecpAddressAccessCommand _ => .decode
  | .aecpAddressAccessResponse _ => .decode
  | .aecpAvcCommand _ => .decode
  | .aecpAvcResponse _ => .decode
  | .aecpVendorUniqueCommand _ => .decode
  | .aecpVendorUniqueResponse _ => .decode
  | .aecpReserved8 _ => .decode
  | .aecpReserved9 _ => .decode
  | .aecpReserved10 _ => .decode
  | .aecpReserved11 _ => .decode
  | .aecpReserved12 _ => .decode
  | .aecpReserved13 _ => .decode
  | .aecpExtendedCommand _ => .decode
  | .aecpExtendedResponse _ => .decode

end Sys2Proof.Machine
end

