-- ==== Sys2Proof/Certificates/Slice0/Obligations.lean ====
section
/-!
DEFINITION. The statements for the provers. `HeaderAt`, `AdpFrame` and their kin (Machine/Layout.lean) say where a
message stands in a buffer without the model's own reads and writes. Where a rule gives an operation its `OP` (the
number is the spec's decision D2, R84), the first clause of the statement says so. `BufferOk`, `DataOk`, `Inv` are in
Safety.lean.
-/

open Sys2Proof Sys2Proof.Machine

/-! ## Bit-range operations -/

/-- R121, R124: RDBITS puts bits HI down to LO of A into RES and changes nothing else; with LO > HI it is refused. The
spec marks R124 as its decision D26. -/
def Obligations.RdbitsExtractsRange : Prop :=
  (∀ r : Request, r.op = 0x01#8 → decode (.request r) = .ok (.rdbits r.a r.lo r.hi)) ∧
  ∀ (a : BitVec 8) (lo hi : BitVec 3) (s : State),
    if lo.toNat ≤ hi.toNat then
      ∃ v : BitVec 64, exec (.rdbits a lo hi) s = .next { s with res := some v, err := 0, errinfo := none } ∧
        ∀ i, v.getLsbD i = (decide (i ≤ hi.toNat - lo.toNat) && a.getLsbD (lo.toNat + i))
    else exec (.rdbits a lo hi) s = .refused (.emptyRange lo hi)

/-- R122 to R124: WRBITS replaces bits HI down to LO of A by a value that fits and keeps the other bits; a value that
does not fit raises ValueOutOfRange(w); with LO > HI it is refused. The spec marks R123 as its decision D17, R124 as
its decision D26. -/
def Obligations.WrbitsReplacesRange : Prop :=
  (∀ r : Request, r.op = 0x02#8 → decode (.request r) = .ok (.wrbits r.a r.lo r.hi r.val)) ∧
  ∀ (a : BitVec 8) (lo hi : BitVec 3) (val : BitVec 64) (s : State),
    if lo.toNat ≤ hi.toNat then
      if val.toNat < 2 ^ (hi.toNat - lo.toNat + 1) then
        ∃ r : BitVec 8,
          exec (.wrbits a lo hi val) s =
            .next { s with res := some (r.setWidth 64), err := 0, errinfo := none } ∧
          ∀ i, i < 8 → r.getLsbD i =
            if lo.toNat ≤ i ∧ i ≤ hi.toNat then val.getLsbD (i - lo.toNat) else a.getLsbD i
      else exec (.wrbits a lo hi val) s =
        .next { s with res := none, err := 2, errinfo := some (BitVec.ofNat 16 (hi.toNat - lo.toNat + 1)) }
    else exec (.wrbits a lo hi val) s = .refused (.emptyRange lo hi)

/-- R134 (a): the range written is the range read back. R134 (b): writing back the range that was read gives the
octet. R134 (c): a range disjoint from the one written reads as before. The spec marks R134 as its own inference. -/
def Obligations.BitRangeLaws : Prop :=
  (∀ (a : BitVec 8) (lo hi : BitVec 3) (val : BitVec 64) (s : State),
    lo.toNat ≤ hi.toNat → val.toNat < 2 ^ (hi.toNat - lo.toNat + 1) →
    ∃ t r u, exec (.wrbits a lo hi val) s = .next t ∧ t.res = some r ∧
      exec (.rdbits (r.setWidth 8) lo hi) t = .next u ∧ u.res = some val) ∧
  (∀ (a : BitVec 8) (lo hi : BitVec 3) (s : State), lo.toNat ≤ hi.toNat →
    ∃ t v u, exec (.rdbits a lo hi) s = .next t ∧ t.res = some v ∧
      exec (.wrbits a lo hi v) t = .next u ∧ u.res = some (a.setWidth 64)) ∧
  (∀ (a : BitVec 8) (lo hi lo' hi' : BitVec 3) (val : BitVec 64) (s : State),
    lo.toNat ≤ hi.toNat → lo'.toNat ≤ hi'.toNat → hi.toNat < lo'.toNat ∨ hi'.toNat < lo.toNat →
    val.toNat < 2 ^ (hi.toNat - lo.toNat + 1) →
    ∃ t r u u', exec (.wrbits a lo hi val) s = .next t ∧ t.res = some r ∧
      exec (.rdbits (r.setWidth 8) lo' hi') t = .next u ∧ exec (.rdbits a lo' hi') t = .next u' ∧ u.res = u'.res)

/-! ## Big-endian buffer operations -/

/-- R126, R127, R128: RDBE16, RDBE32 and RDBE64 put the big-endian integer at OFF, zero-extended, into RES and change
nothing else; past LEN they raise TruncatedPacket(LEN). -/
def Obligations.RdbeReadsBigEndian : Prop :=
  (∀ r : Request, r.op = 0x03#8 → decode (.request r) = .ok (.rdbe16 r.off)) ∧
  (∀ r : Request, r.op = 0x04#8 → decode (.request r) = .ok (.rdbe32 r.off)) ∧
  (∀ r : Request, r.op = 0x05#8 → decode (.request r) = .ok (.rdbe64 r.off)) ∧
  ∀ (s : State) (off : BitVec 10), BufferOk s →
    (if off.toNat + 2 ≤ s.len.toNat then
      ∃ v : BitVec 64, FieldAt s.buf off.toNat 2 v.toNat ∧ v.toNat < 2 ^ 16 ∧
        exec (.rdbe16 off) s = .next { s with res := some v, err := 0, errinfo := none }
     else exec (.rdbe16 off) s = .next { s with res := none, err := 1, errinfo := some (s.len.setWidth 16) }) ∧
    (if off.toNat + 4 ≤ s.len.toNat then
      ∃ v : BitVec 64, FieldAt s.buf off.toNat 4 v.toNat ∧ v.toNat < 2 ^ 32 ∧
        exec (.rdbe32 off) s = .next { s with res := some v, err := 0, errinfo := none }
     else exec (.rdbe32 off) s = .next { s with res := none, err := 1, errinfo := some (s.len.setWidth 16) }) ∧
    (if off.toNat + 8 ≤ s.len.toNat then
      ∃ v : BitVec 64, FieldAt s.buf off.toNat 8 v.toNat ∧
        exec (.rdbe64 off) s = .next { s with res := some v, err := 0, errinfo := none }
     else exec (.rdbe64 off) s = .next { s with res := none, err := 1, errinfo := some (s.len.setWidth 16) })

/-- R129, R130, R131: WRBE16, WRBE32 and WRBE64 store the octets of VAL at OFF, most significant first, and change no
other cell and nothing else of the state; first the bound and then the value's range is checked, and on either error only
the status registers change. -/
def Obligations.WrbeStoresBigEndian : Prop :=
  (∀ r : Request, r.op = 0x06#8 → decode (.request r) = .ok (.wrbe16 r.off r.val)) ∧
  (∀ r : Request, r.op = 0x07#8 → decode (.request r) = .ok (.wrbe32 r.off r.val)) ∧
  (∀ r : Request, r.op = 0x08#8 → decode (.request r) = .ok (.wrbe64 r.off r.val)) ∧
  ∀ (s : State) (off : BitVec 10) (val : BitVec 64),
    (if s.len.toNat < off.toNat + 2 then
      exec (.wrbe16 off val) s = .next { s with res := none, err := 1, errinfo := some (s.len.setWidth 16) }
     else if 2 ^ 16 ≤ val.toNat then
      exec (.wrbe16 off val) s = .next { s with res := none, err := 2, errinfo := some 16 }
     else ∃ m, FieldAt m off.toNat 2 val.toNat ∧
      (∀ i, i < off.toNat ∨ off.toNat + 2 ≤ i → m.get i = s.buf.get i) ∧
      exec (.wrbe16 off val) s = .next { s with buf := m, res := none, err := 0, errinfo := none }) ∧
    (if s.len.toNat < off.toNat + 4 then
      exec (.wrbe32 off val) s = .next { s with res := none, err := 1, errinfo := some (s.len.setWidth 16) }
     else if 2 ^ 32 ≤ val.toNat then
      exec (.wrbe32 off val) s = .next { s with res := none, err := 2, errinfo := some 32 }
     else ∃ m, FieldAt m off.toNat 4 val.toNat ∧
      (∀ i, i < off.toNat ∨ off.toNat + 4 ≤ i → m.get i = s.buf.get i) ∧
      exec (.wrbe32 off val) s = .next { s with buf := m, res := none, err := 0, errinfo := none }) ∧
    (if s.len.toNat < off.toNat + 8 then
      exec (.wrbe64 off val) s = .next { s with res := none, err := 1, errinfo := some (s.len.setWidth 16) }
     else ∃ m, FieldAt m off.toNat 8 val.toNat ∧
      (∀ i, i < off.toNat ∨ off.toNat + 8 ≤ i → m.get i = s.buf.get i) ∧
      exec (.wrbe64 off val) s = .next { s with buf := m, res := none, err := 0, errinfo := none })

/-- R134 (d): a read after a successful write of the same width and offset returns the value. The spec marks R134 as
its own inference. -/
def Obligations.RdbeAfterWrbe : Prop :=
  ∀ (s t : State) (off : BitVec 10) (val : BitVec 64),
    (exec (.wrbe16 off val) s = .next t → t.err = 0 →
      ∃ u, exec (.rdbe16 off) t = .next u ∧ u.res = some val) ∧
    (exec (.wrbe32 off val) s = .next t → t.err = 0 →
      ∃ u, exec (.rdbe32 off) t = .next u ∧ u.res = some val) ∧
    (exec (.wrbe64 off val) s = .next t → t.err = 0 →
      ∃ u, exec (.rdbe64 off) t = .next u ∧ u.res = some val)

/-- R53: mixed-width views agree: a 32-bit read is its two 16-bit halves, the one at the lower offset the more
significant; a 64-bit read is its two 32-bit halves. The spec marks R53 as its own inference. -/
def Obligations.MixedWidthReadsAgree : Prop :=
  ∀ (s : State) (off off' : BitVec 10), BufferOk s →
    (off'.toNat = off.toNat + 2 → off.toNat + 4 ≤ s.len.toNat →
      ∃ a b : BitVec 64, exec (.rdbe16 off) s = .next { s with res := some a, err := 0, errinfo := none } ∧
        exec (.rdbe16 off') s = .next { s with res := some b, err := 0, errinfo := none } ∧
        exec (.rdbe32 off) s = .next { s with res := some (a <<< 16 ||| b), err := 0, errinfo := none }) ∧
    (off'.toNat = off.toNat + 4 → off.toNat + 8 ≤ s.len.toNat →
      ∃ a b : BitVec 64, exec (.rdbe32 off) s = .next { s with res := some a, err := 0, errinfo := none } ∧
        exec (.rdbe32 off') s = .next { s with res := some b, err := 0, errinfo := none } ∧
        exec (.rdbe64 off) s = .next { s with res := some (a <<< 32 ||| b), err := 0, errinfo := none })

/-- R132: CMPBE32 compares the 32-bit integer at OFF with the whole of VAL: RES is 1 or 0 and nothing else changes;
past LEN it raises TruncatedPacket(LEN). The spec marks R132 as its decision D27. -/
def Obligations.Cmpbe32Compares : Prop :=
  (∀ r : Request, r.op = 0x09#8 → decode (.request r) = .ok (.cmpbe32 r.off r.val)) ∧
  ∀ (s : State) (off : BitVec 10) (val : BitVec 64), BufferOk s →
    if off.toNat + 4 ≤ s.len.toNat then
      ∃ v : Nat, v < 2 ^ 32 ∧ FieldAt s.buf off.toNat 4 v ∧
        exec (.cmpbe32 off val) s =
          .next { s with res := some (if v = val.toNat then 1 else 0), err := 0, errinfo := none }
    else exec (.cmpbe32 off val) s = .next { s with res := none, err := 1, errinfo := some (s.len.setWidth 16) }

/-! ## Header codec -/

/-- R141: DECHDR decodes the seven header registers from octets 0 to 3 and empties every other message register, or with
fewer than 4 octets raises TruncatedPacket(LEN) and leaves no message; BUF, LEN and the inputs stay. -/
def Obligations.DechdrDecodesHeader : Prop :=
  (∀ r : Request, r.op = 0x10#8 → decode (.request r) = .ok .dechdr) ∧
  ∀ s : State, BufferOk s →
    if s.len.toNat < 4 then
      exec .dechdr s =
        .next { s with msg := Msg.empty, res := none, err := 1, errinfo := some (s.len.setWidth 16) }
    else ∃ h : Header, HeaderAt s.buf h ∧
      exec .dechdr s =
        .next { s with msg := { Msg.empty with h := ⟨some h.cd, some h.subtype, some h.sv, some h.version,
                                  some h.messageType, some h.validTime, some h.dataLength⟩ },
                       res := none, err := 0, errinfo := none }

/-- R142: ENCHDR builds a fresh buffer of exactly the four header octets and changes no message register; it is refused
if a register of group H holds none. -/
def Obligations.EnchdrEncodesHeader : Prop :=
  (∀ r : Request, r.op = 0x11#8 → decode (.request r) = .ok .enchdr) ∧
  ∀ s : State,
    (∀ h : Header,
      s.msg.h = ⟨some h.cd, some h.subtype, some h.sv, some h.version, some h.messageType, some h.validTime,
        some h.dataLength⟩ →
      ∃ m : Memory, HeaderAt m h ∧ m.holdsExactly 4 ∧
        exec .enchdr s = .next { s with buf := m, len := 4, res := none, err := 0, errinfo := none }) ∧
    ((∃ r, s.msg.h.get r = none) → exec .enchdr s = .refused .encodeReadsNone)

/-- R144 (a), (b): the header codec is a bijection: DECHDR after ENCHDR returns the registers, ENCHDR after DECHDR
reproduces the four octets. The spec marks R144 as its own inference. -/
def Obligations.HeaderRoundTrip : Prop :=
  (∀ (s : State) (h : Header), s.msg.h = .of h →
    ∃ t u, exec .enchdr s = .next t ∧ exec .dechdr t = .next u ∧ u.err = 0 ∧ u.msg.h = s.msg.h) ∧
  (∀ s : State, BufferOk s → 4 ≤ s.len.toNat →
    ∃ t u, exec .dechdr s = .next t ∧ exec .enchdr t = .next u ∧ u.err = 0 ∧ u.len = 4 ∧
      ∀ i, i < 4 → u.buf.get i = s.buf.get i)

/-! ## ADP codec -/

/-- R151: DECADP decodes header and the fifteen ADP registers of a buffer of at least 68 octets, empties every other
message register and leaves BUF, LEN and the inputs; a shorter buffer raises TruncatedPacket(LEN). -/
def Obligations.DecadpDecodesDiscovery : Prop :=
  (∀ r : Request, r.op = 0x12#8 → decode (.request r) = .ok .decadp) ∧
  ∀ s : State, BufferOk s →
    if s.len.toNat < 68 then
      exec .decadp s =
        .next { s with msg := Msg.empty, res := none, err := 1, errinfo := some (s.len.setWidth 16) }
    else ∃ h b, AdpFrame s.buf h b ∧
      exec .decadp s =
        .next { s with msg := { Msg.empty with h := .of h, adp := .of b }, res := none, err := 0, errinfo := none }

/-- R152: ENCADP builds a fresh buffer of exactly the 68 octets of header and ADP body, whatever the registers hold, and
changes no message register; it is refused if a register of group H or ADP holds none. -/
def Obligations.EncadpEncodesDiscovery : Prop :=
  (∀ r : Request, r.op = 0x13#8 → decode (.request r) = .ok .encadp) ∧
  ∀ s : State,
    (∀ h b, s.msg.h = .of h → s.msg.adp = .of b →
      ∃ m : Memory, AdpFrame m h b ∧ m.holdsExactly 68 ∧
        exec .encadp s = .next { s with buf := m, len := 68, res := none, err := 0, errinfo := none }) ∧
    ((∃ r, s.msg.h.get r = none) ∨ (∃ r, s.msg.adp.get r = none) →
      exec .encadp s = .refused .encodeReadsNone)

/-- R156 (a), (b): DECADP after ENCADP returns the message; ENCADP after DECADP reproduces the first 68 octets. The
spec marks R156 as its own inference. -/
def Obligations.AdpRoundTrip : Prop :=
  (∀ (s : State) (h : Header) (b : Discovery), s.msg.h = .of h → s.msg.adp = .of b →
    ∃ t u, exec .encadp s = .next t ∧ exec .decadp t = .next u ∧ u.err = 0 ∧ u.msg.h = s.msg.h ∧
      u.msg.adp = s.msg.adp) ∧
  (∀ s : State, BufferOk s → 68 ≤ s.len.toNat →
    ∃ t u, exec .decadp s = .next t ∧ exec .encadp t = .next u ∧ u.err = 0 ∧ u.len = 68 ∧
      ∀ i, i < 68 → u.buf.get i = s.buf.get i)

/-! ## ACMP codec -/

/-- R161: DECACMP, its errors in their order, and the eleven ACMP registers; BUF, LEN and
the inputs stay, every other message register is emptied. -/
def Obligations.DecacmpDecodesConnection : Prop :=
  (∀ r : Request, r.op = 0x14#8 → decode (.request r) = .ok .decacmp) ∧
  ∀ s : State, BufferOk s →
    if s.len.toNat < 56 then
      exec .decacmp s =
        .next { s with msg := Msg.empty, res := none, err := 1, errinfo := some (s.len.setWidth 16) }
    else ∃ h : Header, HeaderAt s.buf h ∧
      if 13 < h.messageType.toNat then
        exec .decacmp s =
          .next { s with msg := Msg.empty, res := none, err := 4, errinfo := some (h.messageType.setWidth 16) }
      else if 16 ≤ h.validTime.toNat ∧ h.validTime.toNat ≤ 30 then
        exec .decacmp s =
          .next { s with msg := Msg.empty, res := none, err := 5, errinfo := some (h.validTime.setWidth 16) }
      else ∃ b, ConnectionAt s.buf b ∧
        exec .decacmp s =
          .next { s with msg := { Msg.empty with h := .of h, acmp := .of b },
                         res := none, err := 0, errinfo := none }

/-- R162, R165: ENCACMP, its errors in their order, and the fresh buffer of exactly 56 octets; refused if a register
of group H or ACMP holds none. The spec marks R165 as its decision D19. -/
def Obligations.EncacmpEncodesConnection : Prop :=
  (∀ r : Request, r.op = 0x15#8 → decode (.request r) = .ok .encacmp) ∧
  ∀ s : State,
    (∀ h b, s.msg.h = .of h → s.msg.acmp = .of b →
      if 13 < h.messageType.toNat then
        exec .encacmp s =
          .next { s with buf := [], len := 0, res := none, err := 4, errinfo := some (h.messageType.setWidth 16) }
      else if 16 ≤ h.validTime.toNat ∧ h.validTime.toNat ≤ 30 then
        exec .encacmp s =
          .next { s with buf := [], len := 0, res := none, err := 5, errinfo := some (h.validTime.setWidth 16) }
      else ∃ m : Memory, AcmpFrame m h b ∧ m.holdsExactly 56 ∧
        exec .encacmp s = .next { s with buf := m, len := 56, res := none, err := 0, errinfo := none }) ∧
    ((∃ r, s.msg.h.get r = none) ∨ (∃ r, s.msg.acmp.get r = none) →
      exec .encacmp s = .refused .encodeReadsNone)

/-- R168 (a), (c): for a defined message type and status DECACMP after ENCACMP returns the message; ENCACMP after a
successful DECACMP reproduces the first 56 octets. The spec marks R168 as its own inference. -/
def Obligations.AcmpRoundTrip : Prop :=
  (∀ (s : State) (h : Header) (b : Connection), s.msg.h = .of h → s.msg.acmp = .of b →
    h.messageType.toNat ≤ 13 → h.validTime.toNat ≤ 15 ∨ h.validTime.toNat = 31 →
    ∃ t u, exec .encacmp s = .next t ∧ exec .decacmp t = .next u ∧ t.err = 0 ∧ u.err = 0 ∧
      u.msg.h = s.msg.h ∧ u.msg.acmp = s.msg.acmp) ∧
  (∀ s t : State, exec .decacmp s = .next t → t.err = 0 →
    ∃ u, exec .encacmp t = .next u ∧ u.err = 0 ∧ u.len = 56 ∧ ∀ i, i < 56 → u.buf.get i = s.buf.get i)

/-! ## AECP codec -/

/-- R177, R176, R191, R192: the errors of DECAECP in their order: shorter than the 22-octet prefix, message type 14 or
15, message type 8 to 13, shorter than the prefix and the variant's fixed part. The spec marks R191 as its decision
D11. -/
def Obligations.DecaecpErrorsInOrder : Prop :=
  (∀ r : Request, r.op = 0x16#8 → decode (.request r) = .ok .decaecp) ∧
  ∀ s : State, BufferOk s →
    (s.len.toNat < 22 →
      exec .decaecp s =
        .next { s with msg := Msg.empty, res := none, err := 1, errinfo := some (s.len.setWidth 16) }) ∧
    (∀ h : Header, 22 ≤ s.len.toNat → HeaderAt s.buf h →
      (14 ≤ h.messageType.toNat →
        exec .decaecp s =
          .next { s with msg := Msg.empty, res := none, err := 6, errinfo := some (h.messageType.setWidth 16) }) ∧
      (8 ≤ h.messageType.toNat → h.messageType.toNat ≤ 13 →
        exec .decaecp s =
          .next { s with msg := Msg.empty, res := none, err := 4, errinfo := some (h.messageType.setWidth 16) }) ∧
      ((h.messageType.toNat ≤ 1 ∧ s.len.toNat < 36) ∨
       (2 ≤ h.messageType.toNat ∧ h.messageType.toNat ≤ 5 ∧ s.len.toNat < 24) ∨
       (6 ≤ h.messageType.toNat ∧ h.messageType.toNat ≤ 7 ∧ s.len.toNat < 28) →
        exec .decaecp s =
          .next { s with msg := Msg.empty, res := none, err := 1, errinfo := some (s.len.setWidth 16) }))

/-- R177, R178, R187: message types 0 and 1 in at least 36 octets decode as the vendor-message variant; the data is
every octet from 36 on; the other groups hold none. The spec marks R187 as its decision D13. -/
def Obligations.DecaecpVendorMessage : Prop :=
  ∀ (s : State) (h : Header), BufferOk s → 36 ≤ s.len.toNat → HeaderAt s.buf h → h.messageType.toNat ≤ 1 →
    ∃ c p bs, AecpFrame s.buf h c (.v0 p) bs ∧ bs.length = s.len.toNat - 36 ∧
      exec .decaecp s =
        .next { s with msg := { Msg.empty with h := .of h, aecp := .of c, v0 := .of p, data := Memory.ofOctets bs,
                                               dlen := some (BitVec.ofNat 10 bs.length) },
                       res := none, err := 0, errinfo := none }

/-- R177, R179, R187: message types 2 and 3 in at least 24 octets decode as the address-access variant. The spec marks
R187 as its decision D13. -/
def Obligations.DecaecpAddressAccess : Prop :=
  ∀ (s : State) (h : Header), BufferOk s → 24 ≤ s.len.toNat → HeaderAt s.buf h →
    2 ≤ h.messageType.toNat → h.messageType.toNat ≤ 3 →
    ∃ c p bs, AecpFrame s.buf h c (.v1 p) bs ∧ bs.length = s.len.toNat - 24 ∧
      exec .decaecp s =
        .next { s with msg := { Msg.empty with h := .of h, aecp := .of c, v1 := .of p, data := Memory.ofOctets bs,
                                               dlen := some (BitVec.ofNat 10 bs.length) },
                       res := none, err := 0, errinfo := none }

/-- R177, R180, R187: message types 4 and 5 in at least 24 octets decode as the legacy-command variant. The spec marks
R187 as its decision D13. -/
def Obligations.DecaecpLegacyCommand : Prop :=
  ∀ (s : State) (h : Header), BufferOk s → 24 ≤ s.len.toNat → HeaderAt s.buf h →
    4 ≤ h.messageType.toNat → h.messageType.toNat ≤ 5 →
    ∃ c p bs, AecpFrame s.buf h c (.v2 p) bs ∧ bs.length = s.len.toNat - 24 ∧
      exec .decaecp s =
        .next { s with msg := { Msg.empty with h := .of h, aecp := .of c, v2 := .of p, data := Memory.ofOctets bs,
                                               dlen := some (BitVec.ofNat 10 bs.length) },
                       res := none, err := 0, errinfo := none }

/-- R177, R181, R187: message types 6 and 7 in at least 28 octets decode as the vendor-specific variant. The spec
marks R187 as its decision D13. -/
def Obligations.DecaecpVendorSpecific : Prop :=
  ∀ (s : State) (h : Header), BufferOk s → 28 ≤ s.len.toNat → HeaderAt s.buf h →
    6 ≤ h.messageType.toNat → h.messageType.toNat ≤ 7 →
    ∃ c p bs, AecpFrame s.buf h c (.v3 p) bs ∧ bs.length = s.len.toNat - 28 ∧
      exec .decaecp s =
        .next { s with msg := { Msg.empty with h := .of h, aecp := .of c, v3 := .of p, data := Memory.ofOctets bs,
                                               dlen := some (BitVec.ofNat 10 bs.length) },
                       res := none, err := 0, errinfo := none }

/-- R182, R183 to R186, R190: ENCAECP of a message whose registers hold values and whose data is within the variant's
budget builds a fresh buffer of exactly prefix, fixed part and data; data beyond the budget raises
ValueOutOfRange(DLEN) and leaves no buffer. The budgets are 500, 512, 512 and 508 octets. The spec marks R190 as its
decision D29. -/
def Obligations.EncaecpEncodesMessage : Prop :=
  ∀ (s : State) (h : Header) (c : AecpCommon) (p : Payload) (bs : List Byte),
    s.msg.h = .of h → s.msg.aecp = .of c → s.msg.data = Memory.ofOctets bs →
    s.msg.dlen = some (BitVec.ofNat 10 bs.length) → bs.length ≤ 512 →
    (match p with
      | .v0 q => h.messageType.toNat ≤ 1 ∧ s.msg.v0 = .of q
      | .v1 q => 2 ≤ h.messageType.toNat ∧ h.messageType.toNat ≤ 3 ∧ s.msg.v1 = .of q
      | .v2 q => 4 ≤ h.messageType.toNat ∧ h.messageType.toNat ≤ 5 ∧ s.msg.v2 = .of q
      | .v3 q => 6 ≤ h.messageType.toNat ∧ h.messageType.toNat ≤ 7 ∧ s.msg.v3 = .of q) →
    if p.variant.dataStart + bs.length ≤ 536 then
      ∃ m : Memory, AecpFrame m h c p bs ∧ m.holdsExactly (p.variant.dataStart + bs.length) ∧
        exec .encaecp s =
          .next { s with buf := m, len := BitVec.ofNat 10 (p.variant.dataStart + bs.length),
                         res := none, err := 0, errinfo := none }
    else exec .encaecp s =
      .next { s with buf := [], len := 0, res := none, err := 2, errinfo := some (BitVec.ofNat 16 bs.length) }

/-- R182, R188, R33: ENCAECP is refused if a register of group H or AECP holds none; then message types 14 and 15
raise UnsupportedVariant and 8 to 13 UnknownMessageType, and no buffer is left; then it is refused if a register of
the selected variant group, or DLEN, or a cell of DATA below a DLEN within every variant's budget, holds none. The
spec marks R188 as its decision D19, R33 as its decision D7. -/
def Obligations.EncaecpRefusalsAndTypeErrors : Prop :=
  (∀ r : Request, r.op = 0x17#8 → decode (.request r) = .ok .encaecp) ∧
  ∀ s : State,
    ((∃ r, s.msg.h.get r = none) ∨ s.msg.aecp.targetId = none ∨ s.msg.aecp.controllerId = none ∨
        s.msg.aecp.sequenceId = none →
      exec .encaecp s = .refused .encodeReadsNone) ∧
    (∀ h c, s.msg.h = .of h → s.msg.aecp = .of c →
      (14 ≤ h.messageType.toNat →
        exec .encaecp s =
          .next { s with buf := [], len := 0, res := none, err := 6, errinfo := some (h.messageType.setWidth 16) }) ∧
      (8 ≤ h.messageType.toNat → h.messageType.toNat ≤ 13 →
        exec .encaecp s =
          .next { s with buf := [], len := 0, res := none, err := 4, errinfo := some (h.messageType.setWidth 16) }) ∧
      ((h.messageType.toNat ≤ 7 ∧ s.msg.dlen = none) ∨
       (h.messageType.toNat ≤ 1 ∧ (s.msg.v0.modeLen = none ∨ s.msg.v0.ouiFlags = none ∨
          s.msg.v0.typeFlags = none ∨ s.msg.v0.index1 = none ∨ s.msg.v0.index2 = none ∨ s.msg.v0.index3 = none)) ∨
       (2 ≤ h.messageType.toNat ∧ h.messageType.toNat ≤ 3 ∧ s.msg.v1.modeLen = none) ∨
       (4 ≤ h.messageType.toNat ∧ h.messageType.toNat ≤ 5 ∧ s.msg.v2.length = none) ∨
       (6 ≤ h.messageType.toNat ∧ h.messageType.toNat ≤ 7 ∧ s.msg.v3.protocolId = none) ∨
       (h.messageType.toNat ≤ 7 ∧ ∃ d i, s.msg.dlen = some d ∧ d.toNat ≤ 500 ∧ i < d.toNat ∧
          s.msg.data.get i = none) →
        exec .encaecp s = .refused .encodeReadsNone))

/-- R193 (b), (c): ENCAECP after a successful DECAECP reproduces the whole buffer, every octet and LEN, and never more
than 536 octets. The spec marks R193 as its own inference. -/
def Obligations.AecpReencodeReproduces : Prop :=
  ∀ s t : State, BufferOk s → exec .decaecp s = .next t → t.err = 0 →
    ∃ u, exec .encaecp t = .next u ∧ u.err = 0 ∧ u.buf = s.buf ∧ u.len = s.len ∧ u.len.toNat ≤ 536

/-- R193 (a): DECAECP after a successful ENCAECP returns the header, the common fields, the selected variant group and
the variable data. The spec marks R193 as its own inference. -/
def Obligations.AecpDecodeOfEncode : Prop :=
  ∀ s t : State, DataOk s.msg → exec .encaecp s = .next t → t.err = 0 →
    ∃ u, exec .decaecp t = .next u ∧ u.err = 0 ∧ u.msg.h = s.msg.h ∧ u.msg.aecp = s.msg.aecp ∧
      u.msg.data = s.msg.data ∧ u.msg.dlen = s.msg.dlen ∧
      (∀ ty, s.msg.h.messageType = some ty →
        (ty.toNat ≤ 1 → u.msg.v0 = s.msg.v0) ∧
        (2 ≤ ty.toNat → ty.toNat ≤ 3 → u.msg.v1 = s.msg.v1) ∧
        (4 ≤ ty.toNat → ty.toNat ≤ 5 → u.msg.v2 = s.msg.v2) ∧
        (6 ≤ ty.toNat → u.msg.v3 = s.msg.v3))

/-- R193 (d): changing only the low bit of the message type changes only the least significant bit of octet 1 of the
encoded frame. The spec marks R193 as its own inference. -/
def Obligations.AecpResponseBitStandsAlone : Prop :=
  ∀ (s t : State) (ty : BitVec 4), s.msg.h.messageType = some ty → exec .encaecp s = .next t → t.err = 0 →
    ∃ u, exec .encaecp { s with msg := { s.msg with h := { s.msg.h with messageType := some (ty ^^^ 1) } } } = .next u ∧
      u.err = 0 ∧ u.len = t.len ∧
      (∀ i, i ≠ 1 → u.buf.get i = t.buf.get i) ∧
      ∃ b, t.buf.get 1 = some b ∧ u.buf.get 1 = some (b ^^^ 1)

/-! ## Dispatch on the subtype -/

/-- R201: DECMSG with fewer than 4 octets raises TruncatedPacket(LEN); a subtype other than the three raises
UnknownSubtype; with subtype 0x7a, 0x7b, 0x7c it behaves exactly as DECADP, DECAECP, DECACMP. The spec marks R201 as
its decision D22. -/
def Obligations.DecmsgDispatchesOnSubtype : Prop :=
  (∀ r : Request, r.op = 0x18#8 → decode (.request r) = .ok .decmsg) ∧
  ∀ s : State, BufferOk s →
    if s.len.toNat < 4 then
      exec .decmsg s =
        .next { s with msg := Msg.empty, res := none, err := 1, errinfo := some (s.len.setWidth 16) }
    else ∃ h : Header, HeaderAt s.buf h ∧
      if h.subtype = 0x7a#7 then exec .decmsg s = exec .decadp s
      else if h.subtype = 0x7b#7 then exec .decmsg s = exec .decaecp s
      else if h.subtype = 0x7c#7 then exec .decmsg s = exec .decacmp s
      else exec .decmsg s =
        .next { s with msg := Msg.empty, res := none, err := 3, errinfo := some (h.subtype.setWidth 16) }

/-- R201, R206 (b): DECMSG completes: a frame of subtype 0x7a and at least 68 octets, one of subtype 0x7c, at least 56
octets, a defined message type and status, and one of subtype 0x7b that holds its variant's fixed part, are decoded to
the message that stands in BUF. The spec marks R201 as its decision D22. The spec marks R206 as its own inference. -/
def Obligations.DecmsgDecodesEachKind : Prop :=
  ∀ s : State, BufferOk s →
    (∀ h b, AdpFrame s.buf h b → h.subtype = 0x7a#7 → 68 ≤ s.len.toNat →
      exec .decmsg s = .next { s with msg := adpMsg h b, res := none, err := 0, errinfo := none }) ∧
    (∀ h b, AcmpFrame s.buf h b → h.subtype = 0x7c#7 → 56 ≤ s.len.toNat →
      h.messageType.toNat ≤ 13 → h.validTime.toNat ≤ 15 ∨ h.validTime.toNat = 31 →
      exec .decmsg s = .next { s with msg := acmpMsg h b, res := none, err := 0, errinfo := none }) ∧
    (∀ h c p bs, AecpFrame s.buf h c p bs → h.subtype = 0x7b#7 →
      variantOf h.messageType = .variant p.variant → s.len.toNat = p.variant.dataStart + bs.length →
      exec .decmsg s = .next { s with msg := aecpMsg h c p bs, res := none, err := 0, errinfo := none })

/-- R206 (a): DECMSG after a successful encode returns the message if and only if the subtype is the encoder's own,
for ADP and ACMP and AECP. Where the subtype is another, DECMSG does not succeed with that kind's message. An AECP
message is groups H and AECP, the variant group its message type selects, and the variable data (R175). The spec marks
R206 as its own inference. -/
def Obligations.DecmsgAfterEncode : Prop :=
  (∀ s t : State, exec .encadp s = .next t →
    ∃ u, exec .decmsg t = .next u ∧ ((u.msg.h = s.msg.h ∧ u.msg.adp = s.msg.adp) ↔ s.msg.h.subtype = some 0x7a#7)) ∧
  (∀ s t : State, exec .encacmp s = .next t → t.err = 0 →
    ∃ u, exec .decmsg t = .next u ∧ ((u.msg.h = s.msg.h ∧ u.msg.acmp = s.msg.acmp) ↔ s.msg.h.subtype = some 0x7c#7)) ∧
  (∀ s t : State, DataOk s.msg → exec .encaecp s = .next t → t.err = 0 →
    ∃ u, exec .decmsg t = .next u ∧
      ((u.msg.h = s.msg.h ∧ u.msg.aecp = s.msg.aecp ∧ u.msg.data = s.msg.data ∧ u.msg.dlen = s.msg.dlen ∧
        (∀ ty, s.msg.h.messageType = some ty →
          (ty.toNat ≤ 1 → u.msg.v0 = s.msg.v0) ∧
          (2 ≤ ty.toNat → ty.toNat ≤ 3 → u.msg.v1 = s.msg.v1) ∧
          (4 ≤ ty.toNat → ty.toNat ≤ 5 → u.msg.v2 = s.msg.v2) ∧
          (6 ≤ ty.toNat → u.msg.v3 = s.msg.v3))) ↔
        s.msg.h.subtype = some 0x7b#7))

/-! ## The frame rows of the opcode table -/

/-- R111, R101, R151: the row ADP, run on a frame it matches, decodes it as DECADP does; shorter than 68 octets it
raises TruncatedPacket(LEN). The spec marks R101 as its decision D20, R111 as its decision D2. -/
def Obligations.AdpRowDecodes : Prop :=
  (∀ (s : State) (h : Header) (b : Discovery), 68 ≤ s.len.toNat → AdpFrame s.buf h b → h.subtype = 0x7a#7 →
    exec (.adp h.bits h.messageType) s =
      .next { s with msg := { Msg.empty with h := .of h, adp := .of b }, res := none, err := 0, errinfo := none }) ∧
  (∀ (s : State) (p : FrameBits) (ty : BitVec 4), s.len.toNat < 68 →
    exec (.adp p ty) s =
      .next { s with msg := Msg.empty, res := none, err := 1, errinfo := some (s.len.setWidth 16) })

/-- R111, R102, R161, R163: each of the fourteen rows of a defined ACMP message type, run on a frame it matches,
decodes it, or raises UnknownStatus for a status 16 to 30; shorter than 56 octets it raises TruncatedPacket(LEN). The
spec marks R102 as its decision D20, R163 as its decision D18, R111 as its decision D2. -/
def Obligations.AcmpRowsDecode : Prop :=
  ∀ row ∈ (
    [(0#4, Instr.acmpConnectTxCommand), (1#4, Instr.acmpConnectTxResponse),
     (2#4, Instr.acmpDisconnectTxCommand), (3#4, Instr.acmpDisconnectTxResponse),
     (4#4, Instr.acmpGetTxStateCommand), (5#4, Instr.acmpGetTxStateResponse),
     (6#4, Instr.acmpConnectRxCommand), (7#4, Instr.acmpConnectRxResponse),
     (8#4, Instr.acmpDisconnectRxCommand), (9#4, Instr.acmpDisconnectRxResponse),
     (10#4, Instr.acmpGetRxStateCommand), (11#4, Instr.acmpGetRxStateResponse),
     (12#4, Instr.acmpGetTxConnectionCommand), (13#4, Instr.acmpGetTxConnectionResponse)] :
     List (BitVec 4 × (FrameBits → Instr))),
    (∀ (s : State) (h : Header) (b : Connection), 56 ≤ s.len.toNat → AcmpFrame s.buf h b → h.subtype = 0x7c#7 →
      h.messageType = row.1 →
      exec (row.2 h.bits) s =
        if h.validTime.toNat ≤ 15 ∨ h.validTime.toNat = 31 then
          .next { s with msg := { Msg.empty with h := .of h, acmp := .of b }, res := none, err := 0, errinfo := none }
        else .next { s with msg := Msg.empty, res := none, err := 5, errinfo := some (h.validTime.setWidth 16) }) ∧
    (∀ (s : State) (p : FrameBits), s.len.toNat < 56 →
      exec (row.2 p) s =
        .next { s with msg := Msg.empty, res := none, err := 1, errinfo := some (s.len.setWidth 16) })

/-- R105, R164: the two reserved ACMP rows, run on a frame of at least 56 octets, raise UnknownMessageType with their
message type, whatever the status; a shorter frame raises TruncatedPacket(LEN). The spec marks R164 as its decision
D20. -/
def Obligations.AcmpReservedRowsRaise : Prop :=
  ∀ row ∈ ([(14#4, Instr.acmpReserved14), (15#4, Instr.acmpReserved15)] : List (BitVec 4 × (FrameBits → Instr))),
    ∀ (s : State) (p : FrameBits), BufferOk s →
      exec (row.2 p) s =
        if s.len.toNat < 56 then
          .next { s with msg := Msg.empty, res := none, err := 1, errinfo := some (s.len.setWidth 16) }
        else .next { s with msg := Msg.empty, res := none, err := 4, errinfo := some (row.1.setWidth 16) }

/-- R103, R111, R177 to R181: each of the eight rows of a decodable AECP message type, run on a frame it matches,
decodes it with its own variant; a buffer shorter than prefix and fixed part raises TruncatedPacket(LEN). The spec
marks R111 as its decision D2. -/
def Obligations.AecpRowsDecode : Prop :=
  ∀ row ∈ ([
    (0#4, Variant.v0, Instr.aecpAvdeccMessageCommand), (1#4, .v0, .aecpAvdeccMessageResponse),
    (2#4, .v1, .aecpAddressAccessCommand), (3#4, .v1, .aecpAddressAccessResponse),
    (4#4, .v2, .aecpAvcCommand), (5#4, .v2, .aecpAvcResponse),
    (6#4, .v3, .aecpVendorUniqueCommand), (7#4, .v3, .aecpVendorUniqueResponse)] :
     List (BitVec 4 × Variant × (FrameBits → Instr))),
    (∀ (s : State) (h : Header) (c : AecpCommon) (p : Payload) (bs : List Byte), AecpFrame s.buf h c p bs →
      h.subtype = 0x7b#7 → h.messageType = row.1 → p.variant = row.2.1 →
      s.len.toNat = p.variant.dataStart + bs.length →
      exec (row.2.2 h.bits) s = .next { s with msg := aecpMsg h c p bs, res := none, err := 0, errinfo := none }) ∧
    (∀ (s : State) (p : FrameBits), BufferOk s → s.len.toNat < row.2.1.dataStart →
      exec (row.2.2 p) s =
        .next { s with msg := Msg.empty, res := none, err := 1, errinfo := some (s.len.setWidth 16) })

/-- R106, R176: the reserved AECP rows, run on a frame of at least 22 octets, raise UnknownMessageType (types 8 to 13) or
UnsupportedVariant (types 14 and 15); a shorter one raises TruncatedPacket(LEN). -/
def Obligations.AecpReservedRowsRaise : Prop :=
  ∀ row ∈ ([
    (8#4, 4#3, Instr.aecpReserved8), (9#4, 4#3, .aecpReserved9), (10#4, 4#3, .aecpReserved10),
    (11#4, 4#3, .aecpReserved11), (12#4, 4#3, .aecpReserved12), (13#4, 4#3, .aecpReserved13),
    (14#4, 6#3, .aecpExtendedCommand), (15#4, 6#3, .aecpExtendedResponse)] :
     List (BitVec 4 × BitVec 3 × (FrameBits → Instr))),
    ∀ (s : State) (p : FrameBits), BufferOk s →
      exec (row.2.2 p) s =
        if s.len.toNat < 22 then
          .next { s with msg := Msg.empty, res := none, err := 1, errinfo := some (s.len.setWidth 16) }
        else .next { s with msg := Msg.empty, res := none, err := row.2.1, errinfo := some (row.1.setWidth 16) }

/-- R201 with R111: running the frame in BUF by the mask and match rows of the opcode table is DECMSG: the
table-driven dispatch and the operation agree on every good buffer, errors included. That a frame can be demanded so
is the model's choice (log 3). The spec marks R201 as its decision D22, R111 as its decision D2. -/
def Obligations.FrameTableDispatchIsDecmsg : Prop :=
  ∀ (s : State) (rest : List Input), BufferOk s → s.inputs = .frame :: rest →
    step s = exec .decmsg { s with inputs := rest }

/-! ## Rules of the whole machine -/

/-- R34, R35, R32, R241: whatever the state before, every instruction that ends in a next state writes ERR and
ERRINFO: either ERR is 0 and ERRINFO none, or ERR is 1 to 6, ERRINFO holds a value and RES none. Nothing is sticky:
with any other RES, ERR and ERRINFO before, it ends in the same next state, these three registers included.
The spec marks R34 as its decision D4, R35 as its decision D4, R32 as its decision D1, R241 as its decision D24. -/
def Obligations.EveryInstructionWritesStatus : Prop :=
  (∀ (i : Instr) (s t : State), exec i s = .next t →
    (t.err = 0 ∧ t.errinfo = none) ∨ (t.err ≠ 0 ∧ t.err ≠ 7 ∧ t.errinfo ≠ none ∧ t.res = none)) ∧
  (∀ (i : Instr) (s t : State) (res : Option (BitVec 64)) (err : BitVec 3) (errinfo : Option (BitVec 16)),
    exec i s = .next t → exec i { s with res, err, errinfo } = .next t)

/-- R240: what a failing instruction leaves behind, by its class: a decode leaves no message and the buffer as it was,
a message encode leaves no buffer and the message as it was, a primitive leaves both as they were. The spec marks R240
as its decision D24. -/
def Obligations.FailureLeavesNoPartialOutput : Prop :=
  ∀ (i : Instr) (s t : State), exec i s = .next t → t.err ≠ 0 →
    t.res = none ∧
    match opClass i with
    | .primitive => t.buf = s.buf ∧ t.len = s.len ∧ t.msg = s.msg
    | .decode => t.msg = Msg.empty ∧ t.buf = s.buf ∧ t.len = s.len
    | .encode => t.buf = [] ∧ t.len = 0 ∧ t.msg = s.msg

/-- R38: only decodes change the message registers; a decode changes neither BUF nor LEN; a primitive never changes
LEN; no instruction changes the pending inputs. The spec marks R38 as its decision D1. -/
def Obligations.StateChangedOnlyAsDeclared : Prop :=
  ∀ (i : Instr) (s t : State), exec i s = .next t →
    t.inputs = s.inputs ∧
    (opClass i ≠ .decode → t.msg = s.msg) ∧
    (opClass i = .decode → t.buf = s.buf ∧ t.len = s.len) ∧
    (opClass i = .primitive → t.len = s.len)

/-- R232: no instruction ends with an error that the raise matrix does not give it. The spec marks R232 as its own
inference. -/
def Obligations.OnlyListedErrorsRaised : Prop :=
  ∀ (i : Instr) (s t : State), exec i s = .next t → t.err ≠ 0 → t.err ∈ raises i

/-- R37, R38: an instruction's outputs depend on BUF, LEN and MSG alone: run from two states that agree there it gives
the same outputs; a decode does not depend on MSG, and what an encode builds does not depend on BUF and LEN. The spec
marks R38 as its decision D1. -/
def Obligations.OutputsDependOnDeclaredInputs : Prop :=
  (∀ (i : Instr) (s s' t : State), s'.buf = s.buf → s'.len = s.len → s'.msg = s.msg → exec i s = .next t →
    exec i s' = .next { t with inputs := s'.inputs }) ∧
  (∀ (i : Instr) (s s' t : State), opClass i = .decode → s'.buf = s.buf → s'.len = s.len → exec i s = .next t →
    exec i s' = .next { t with inputs := s'.inputs }) ∧
  (∀ (i : Instr) (s s' t : State), opClass i = .encode → s'.msg = s.msg → exec i s = .next t →
    exec i s' = .next { t with inputs := s'.inputs })

/-- R59: every instruction is idempotent: run again on the state it left, it leaves that state. The spec marks R59 as
its own inference. -/
def Obligations.InstructionsIdempotent : Prop :=
  ∀ (i : Instr) (s t : State), s.buf.wf = true → exec i s = .next t → exec i t = .next t

/-- R29: the message registers do not alias: a register written is read back, and every other register, DATA and DLEN
read as before. The spec marks R29 as its decision D6. -/
def Obligations.RegistersDoNotAlias : Prop :=
  ∀ (m : Msg) (r : MsgReg) (v : BitVec r.width),
    (m.set r v).get r = some v ∧ (∀ r', r' ≠ r → (m.set r v).get r' = m.get r') ∧
      (m.set r v).data = m.data ∧ (m.set r v).dlen = m.dlen

/-- R214, R213, R212, R218: the three predicates the codec evaluates, over the whole range of their fields. The spec
marks R213 as its decision D20. The spec marks R218 as its own inference. -/
def Obligations.EnumerationDomains : Prop :=
  (∀ ty : BitVec 4, acmpMsgtypeDefined ty = true ↔ ty.toNat ≤ 13) ∧
  (∀ st : BitVec 5, acmpStatusDefined st = true ↔ st.toNat ≤ 15 ∨ st.toNat = 31) ∧
  (∀ ty : BitVec 4, variantOf ty =
    if ty.toNat ≤ 1 then .variant .v0 else if ty.toNat ≤ 3 then .variant .v1 else if ty.toNat ≤ 5 then .variant .v2
    else if ty.toNat ≤ 7 then .variant .v3 else if ty.toNat ≤ 13 then .unknown else .unsupported)

/-! ## Reset, steps and invariants -/

/-- R40: every element of the block's state after reset. That no input is pending is the model's choice (log 1). The
spec marks R40 as its decision D25. -/
def Obligations.ResetValues : Prop :=
  (∀ i, State.reset.buf.get i = none) ∧ State.reset.len = 0 ∧ (∀ r, State.reset.msg.get r = none) ∧
  (∀ i, State.reset.msg.data.get i = none) ∧ State.reset.msg.dlen = none ∧ State.reset.res = none ∧
  State.reset.err = 0 ∧ State.reset.errinfo = none ∧ State.reset.inputs = []

/-- The invariant of the machine holds after reset (R22, R23, R28, R34, R35, R40). The spec marks R22 as its decision
D8, R23 as its decision D8, R34 as its decision D4, R35 as its decision D4, R40 as its decision D25. -/
def Obligations.ResetMeetsInvariant : Prop := Inv State.reset

/-- R22, R23, R28, R34, R35: from every state that meets the invariant, whatever input is pending, a step that answers
a next state gives one that meets it. The spec marks R22 as its decision D8, R23 as its decision D8, R34 as its
decision D4, R35 as its decision D4. -/
def Obligations.StepKeepsInvariant : Prop :=
  ∀ s t : State, Inv s → step s = .next t → Inv t

/-- R23, R57: from a state that meets the invariant no step faults: no operation reads a cell that holds nothing. The
spec marks R23 as its decision D8. -/
def Obligations.NoFaultFromInvariant : Prop :=
  ∀ s : State, Inv s → noFault (step s) = true

/-- A step with a pending request runs the instruction its OP names (R84), and a step with a demand for the frame in
BUF runs the row its first two octets match (R111, R66), on the state without that input; nothing else is added. That
inputs stand in the state is the model's choice (log 1, log 3). The spec marks R84 as its decision D2, R111 as its
decision D2. The spec marks R66 as its own inference. -/
def Obligations.StepRunsDecodedInstruction : Prop :=
  (∀ (s : State) (r : Request) (rest : List Input) (i : Instr),
    s.inputs = .request r :: rest → decode (.request r) = .ok i → step s = exec i { s with inputs := rest }) ∧
  (∀ (s : State) (b0 b1 : Byte) (rest : List Input) (i : Instr),
    s.inputs = .frame :: rest → 4 ≤ s.len.toNat → s.buf.get 0 = some b0 → s.buf.get 1 = some b1 →
    decode (.frame (b0 ++ b1)) = .ok i → step s = exec i { s with inputs := rest })

/-- R85: a request whose OP is not in the table is refused. The spec marks R85 as its decision D3. -/
def Obligations.UnassignedOpRefused : Prop :=
  ∀ (s : State) (r : Request) (rest : List Input), s.inputs = .request r :: rest →
    ¬ (1 ≤ r.op.toNat ∧ r.op.toNat ≤ 9) → ¬ (16 ≤ r.op.toNat ∧ r.op.toNat ≤ 24) →
    step s = .refused (.noOperation r.op)

/-- R262: the first request after reset: decodes and buffer primitives raise TruncatedPacket(0), encodes are refused,
and RDBITS and WRBITS work at once. The spec marks R262 as its own inference. -/
def Obligations.FirstRequestAfterReset : Prop :=
  (∀ i : Instr, opClass i = .decode →
    exec i State.reset = .next { State.reset with err := 1, errinfo := some 0 }) ∧
  (∀ (off : BitVec 10) (val : BitVec 64),
    ∀ i ∈ [Instr.rdbe16 off, .rdbe32 off, .rdbe64 off, .wrbe16 off val, .wrbe32 off val, .wrbe64 off val,
           .cmpbe32 off val],
      exec i State.reset = .next { State.reset with err := 1, errinfo := some 0 }) ∧
  (∀ i : Instr, opClass i = .encode → exec i State.reset = .refused .encodeReadsNone) ∧
  (∀ (a : BitVec 8) (lo hi : BitVec 3) (val : BitVec 64), lo.toNat ≤ hi.toNat →
    (∃ t, exec (.rdbits a lo hi) State.reset = .next t) ∧ (∃ t, exec (.wrbits a lo hi val) State.reset = .next t))

/-! ## Host actions and instances -/

/-- R39, R260, R274, R28, R23: each host action taken as an input: RESET gives the reset state; a load sets BUF and
LEN, or is refused above 536 octets; a store changes one octet below LEN and is refused elsewhere; a register is
written; DATA and DLEN are written, or refused above 512 octets. That host actions are inputs that stand in the state,
and the names of the two stops that keep R23 and R28, are the model's choice (log 1, log 7, log 8). The spec marks R39
as its decision D33, R260 as its decision D25, R274 as its decision D8, R23 as its decision D8. -/
def Obligations.HostActions : Prop :=
  ∀ (s : State) (rest : List Input),
    (s.inputs = .host .reset :: rest → step s = .next { State.reset with inputs := rest }) ∧
    (∀ bs, s.inputs = .host (.loadBuffer bs) :: rest →
      if bs.length ≤ 536 then ∃ m : Memory, OctetsAt m 0 bs ∧ m.holdsExactly bs.length ∧
        step s = .next { s with buf := m, len := BitVec.ofNat 10 bs.length, inputs := rest }
      else step s = .refused (.loadTooLong bs.length)) ∧
    (∀ off b, s.inputs = .host (.storeOctet off b) :: rest →
      if off.toNat < s.len.toNat then
        ∃ m : Memory, m.get off.toNat = some b ∧ (∀ i, i ≠ off.toNat → m.get i = s.buf.get i) ∧
          step s = .next { s with buf := m, inputs := rest }
      else step s = .refused (.storeOutsideMessage off)) ∧
    (∀ r v, s.inputs = .host (.setReg r v) :: rest →
      step s = .next { s with msg := s.msg.set r v, inputs := rest }) ∧
    (∀ bs, s.inputs = .host (.setData bs) :: rest →
      if bs.length ≤ 512 then ∃ m : Memory, OctetsAt m 0 bs ∧ m.holdsExactly bs.length ∧
        step s = .next { s with msg := { s.msg with data := m, dlen := some (BitVec.ofNat 10 bs.length) },
                                inputs := rest }
      else step s = .refused (.dataTooLong bs.length))

/-- R39, R59: a host read changes nothing; it is refused exactly where the register or cell read holds none, and LEN
and ERR always hold a value. That a read is an input which stands in the state is the model's choice (log 1, log 11).
The spec marks R39 as its decision D33. The spec marks R59 as its own inference. -/
def Obligations.HostReads : Prop :=
  ∀ (s : State) (rest : List Input) (what : Readable), s.inputs = .host (.read what) :: rest →
    (step s = .next { s with inputs := rest } ∨ step s = .refused (.readOfNone what)) ∧
    (step s = .refused (.readOfNone what) ↔
      match what with
      | .buf off => s.buf.get off.toNat = none
      | .len => False
      | .reg r => s.msg.get r = none
      | .data i => s.msg.data.get i.toNat = none
      | .dlen => s.msg.dlen = none
      | .res => s.res = none
      | .err => False
      | .errinfo => s.errinfo = none)

/-- R63, R255: instances share nothing: a step of one leaves every other as it was, and steps of two different
instances give the same platform in either order. The spec marks R255 as its decision D31. -/
def Obligations.InstancesIndependent : Prop :=
  ∀ (p : Platform) (j k : Nat), j ≠ k →
    (∀ q, p.stepAt j = .next q → q[k]? = p[k]?) ∧
    (∀ q r, p.stepAt j = .next q → q.stepAt k = .next r → ∃ q', p.stepAt k = .next q' ∧ q'.stepAt j = .next r)

/-! ## Encodings -/

/-- R84, R90, R111: for every instruction, with every operand at every value, decoding its encoding gives it back. The
spec marks R84 as its decision D2, R111 as its decision D2. -/
def Obligations.DecodeOfEncode : Prop :=
  ∀ i : Instr, decode (encode i) = .ok i

/-- The same through octets: no bit of a request record or frame word is dropped. The octets of a request record are the
model's choice (log 4). -/
def Obligations.DecodeOctetsOfEncodeOctets : Prop :=
  ∀ i : Instr, decodeOctets (encode i).level (encodeOctets i) = .ok i

/-- R90, R111: where a frame word is an instruction, it is that instruction's encoding: a frame word has one meaning
and no bit of it is ignored. The spec marks R111 as its decision D2. -/
def Obligations.EncodeOfDecodedFrame : Prop :=
  ∀ (w : BitVec 16) (i : Instr), decode (.frame w) = .ok i → encode i = .frame w

/-- R80, R104, R111: the rows of the table are disjoint and cover exactly the three subtypes: a word with subtype
0x7a, 0x7b or 0x7c matches one row, any other word none; and no two operation rows share an OP. The spec marks R111 as
its decision D2. -/
def Obligations.TableRowsDisjointAndComplete : Prop :=
  (∀ w : BitVec 16, (frameTable.filter (rowMatches w)).length =
    if frameSubtype w = 0x7a#7 ∨ frameSubtype w = 0x7b#7 ∨ frameSubtype w = 0x7c#7 then 1 else 0) ∧
  (opTable.map (·.op)).Nodup

/-- R84, R103, R111: a few words written out from the tables decode to the instructions they stand for. A word of an
`OP` row gives `OP` alone, and its operands read as 0: the octets that follow it in a request record, here zeros, are
the model's choice (log 4). The spec marks R84 as its decision D2, R111 as its decision D2. -/
def Obligations.TableWordsDecode : Prop :=
  decodeTableWord 8 0x01 = some (.rdbits 0 0 0) ∧ decodeTableWord 8 0x18 = some .decmsg ∧
  decodeTableWord 8 0x0a = none ∧
  decodeTableWord 16 0xfa0f = some (.adp ⟨1, 0, 0⟩ 15) ∧
  decodeTableWord 16 0x7c87 = some (.acmpConnectRxResponse ⟨0, 1, 0⟩) ∧
  decodeTableWord 16 0xfb76 = some (.aecpVendorUniqueCommand ⟨1, 0, 7⟩) ∧
  decodeTableWord 16 0x7d00 = none
end

