-- ==== Sys2Proof/Laws/Memory.lean ====
section
/-!
SUPPORT. The laws of cells and big-endian integers: what a write leaves everywhere, that every memory operation keeps the
canonical form, and that a field written is the field read (R10, R50, R53).
-/

namespace Sys2Proof.Machine

/-! ## One cell -/

@[simp] theorem Memory.get_nil (i : Nat) : Memory.get [] i = none := rfl

theorem Memory.get_cons (c : Host.Cell) (m : Memory) (i : Nat) :
    Memory.get (c :: m) i = if c.1 = i then some c.2 else m.get i := rfl

theorem Memory.get_eq_none_iff (m : Memory) (i : Nat) : m.get i = none ↔ i ∉ m.map Prod.fst := by
  induction m with
  | nil => simp
  | cons c m ih =>
    rw [Memory.get_cons]
    by_cases h : c.1 = i
    · simp [h]
    · simp only [if_neg h, ih, List.map_cons, List.mem_cons, not_or]
      exact ⟨fun h' => ⟨fun e => h e.symm, h'⟩, fun h' => h'.2⟩

theorem Memory.isSome_get_iff (m : Memory) (i : Nat) : (m.get i).isSome ↔ i ∈ m.map Prod.fst := by
  have := m.get_eq_none_iff i
  cases h : m.get i <;> simp_all

theorem Memory.get_put (m : Memory) (i j : Nat) (v : Byte) :
    (m.put i v).get j = if i = j then some v else m.get j := by
  induction m with
  | nil => simp [Memory.put, Memory.get_cons]
  | cons c m ih =>
    obtain ⟨a, b⟩ := c
    simp only [Memory.put]
    split
    · simp [Memory.get_cons]
    · split
      · subst_vars
        simp only [Memory.get_cons]
        split <;> simp_all
      · simp only [Memory.get_cons, ih]
        split
        · split
          · omega
          · rfl
        · rfl

@[simp] theorem Memory.get_put_self (m : Memory) (i : Nat) (v : Byte) : (m.put i v).get i = some v := by
  simp [Memory.get_put]

theorem Memory.get_put_ne (m : Memory) {i j : Nat} (v : Byte) (h : i ≠ j) : (m.put i v).get j = m.get j := by
  simp [Memory.get_put, h]

theorem Memory.mem_addresses_put (m : Memory) (i j : Nat) (v : Byte) :
    j ∈ (m.put i v).map Prod.fst ↔ j = i ∨ j ∈ m.map Prod.fst := by
  rw [← Memory.isSome_get_iff, ← Memory.isSome_get_iff, Memory.get_put]
  by_cases h : i = j
  · simp [h]
  · simp [h, Ne.symm h]

/-! ## The canonical form -/

theorem Memory.wf_iff (m : Memory) : m.wf = true ↔ (m.map Prod.fst).Pairwise (· < ·) := by
  simp [Memory.wf]

/-- Two canonical memories that read alike are the same data. -/
theorem Memory.eq_of_get_eq (m n : Memory) (hm : m.wf) (hn : n.wf) (h : ∀ i, m.get i = n.get i) : m = n := by
  rw [Memory.wf_iff] at hm hn
  induction m generalizing n with
  | nil =>
    cases n with
    | nil => rfl
    | cons d n => have := h d.1; simp [Memory.get_cons] at this
  | cons c m ih =>
    cases n with
    | nil => have := h c.1; simp [Memory.get_cons] at this
    | cons d n =>
      simp only [List.map_cons, List.pairwise_cons] at hm hn
      have hc : ∀ x, (Memory.get n x).isSome → d.1 < x := fun x hx =>
        hn.1 x ((Memory.isSome_get_iff n x).1 hx)
      have hd : ∀ x, (Memory.get m x).isSome → c.1 < x := fun x hx =>
        hm.1 x ((Memory.isSome_get_iff m x).1 hx)
      have h1 := h c.1
      have h2 := h d.1
      simp only [Memory.get_cons, if_true] at h1 h2
      have e : c.1 = d.1 := by
        by_contra hne
        rw [if_neg (Ne.symm hne)] at h1
        rw [if_neg hne] at h2
        have := hc c.1 (by rw [← h1]; rfl)
        have := hd d.1 (by rw [h2]; rfl)
        omega
      have e2 : c.2 = d.2 := by rw [if_pos e.symm] at h1; exact Option.some.inj h1
      have : m = n := by
        refine ih n hm.2 hn.2 fun i => ?_
        have hi := h i
        simp only [Memory.get_cons, e] at hi
        by_cases hdi : d.1 = i
        · rw [(Memory.get_eq_none_iff m i).2, (Memory.get_eq_none_iff n i).2]
          · intro hmem; have := hn.1 i hmem; omega
          · intro hmem; have := hm.1 i hmem; omega
        · simpa [hdi] using hi
      subst this
      rw [Prod.ext e e2]

theorem Memory.wf_put (m : Memory) (i : Nat) (v : Byte) (h : m.wf) : (m.put i v).wf := by
  rw [Memory.wf_iff] at h ⊢
  induction m with
  | nil => simp [Memory.put]
  | cons c m ih =>
    obtain ⟨a, b⟩ := c
    simp only [List.map_cons, List.pairwise_cons] at h
    simp only [Memory.put]
    split
    · simp only [List.map_cons, List.pairwise_cons, List.mem_cons]
      refine ⟨?_, h.1, h.2⟩
      rintro x (rfl | hx)
      · assumption
      · have := h.1 x hx; omega
    · split
      · subst_vars; simpa using h
      · simp only [List.map_cons, List.pairwise_cons]
        refine ⟨fun x hx => ?_, ih h.2⟩
        rcases (Memory.mem_addresses_put m i x v).1 hx with rfl | hx
        · omega
        · exact h.1 x hx

theorem Memory.wf_writeOctets (m : Memory) (off : Nat) (bs : List Byte) (h : m.wf) : (m.writeOctets off bs).wf := by
  induction bs generalizing m off with
  | nil => exact h
  | cons b bs ih => exact ih _ _ (m.wf_put off b h)

theorem Memory.wf_memWrite (m : Memory) (off n v : Nat) (h : m.wf) : (m.memWrite off n v).wf :=
  m.wf_writeOctets _ _ h

theorem Memory.wf_setField (m : Memory) (off : Nat) {w : Nat} (v : BitVec w) (h : m.wf) : (m.setField off v).wf :=
  m.wf_memWrite _ _ _ h

theorem Memory.holdsExactly_wf (m : Memory) (n : Nat) (h : m.holdsExactly n) : m.wf := by
  rw [Memory.wf_iff, h]; exact List.pairwise_lt_range

/-- R23 in words: exactly the cells below `n` hold an octet. -/
theorem Memory.isSome_get_of_holdsExactly (m : Memory) (n i : Nat) (h : m.holdsExactly n) :
    (m.get i).isSome ↔ i < n := by
  rw [Memory.isSome_get_iff, h, List.mem_range]

theorem Memory.holdsExactly_of_get (m : Memory) (n : Nat) (hm : m.wf) (h : ∀ i, (m.get i).isSome ↔ i < n) :
    m.holdsExactly n := by
  have hs : (m.map Prod.fst).Pairwise (· < ·) := (Memory.wf_iff m).1 hm
  refine List.Perm.eq_of_pairwise (le := (· < ·)) (fun a b _ _ h1 h2 => absurd h1 (by omega)) hs
    List.pairwise_lt_range ?_
  refine (List.perm_ext_iff_of_nodup (hs.imp (fun h => Nat.ne_of_lt h)) List.nodup_range).2 fun a => ?_
  rw [← Memory.isSome_get_iff, h, List.mem_range]

/-! ## Octets -/

theorem Memory.addresses_ofOctets (bs : List Byte) : (Memory.ofOctets bs).holdsExactly bs.length := by
  simp [Memory.holdsExactly, Memory.ofOctets, List.map_fst_zip]

theorem Memory.wf_ofOctets (bs : List Byte) : (Memory.ofOctets bs).wf :=
  Memory.holdsExactly_wf _ _ (Memory.addresses_ofOctets bs)

theorem Memory.get_zip (bs : List Byte) (k i : Nat) :
    Memory.get ((List.range' k bs.length).zip bs) (k + i) = bs[i]? := by
  induction bs generalizing k i with
  | nil => simp
  | cons b bs ih =>
    rw [List.length_cons, List.range'_succ, List.zip_cons_cons, Memory.get_cons]
    cases i with
    | zero => simp
    | succ i =>
      have := ih (k + 1) i
      rw [show k + 1 + i = k + (i + 1) by omega] at this
      simp [this]

theorem Memory.get_ofOctets (bs : List Byte) (i : Nat) : (Memory.ofOctets bs).get i = bs[i]? := by
  have := Memory.get_zip bs 0 i
  rwa [Nat.zero_add, ← List.range_eq_range'] at this

theorem Memory.get_writeOctets (m : Memory) (off : Nat) (bs : List Byte) (i : Nat) :
    (m.writeOctets off bs).get i = if off ≤ i ∧ i < off + bs.length then bs[i - off]? else m.get i := by
  induction bs generalizing m off with
  | nil => simp [Memory.writeOctets]
  | cons b bs ih =>
    rw [Memory.writeOctets, ih, Memory.get_put]
    simp only [List.length_cons]
    by_cases h1 : off = i
    · subst h1; simp
    · by_cases h2 : off + 1 ≤ i ∧ i < off + 1 + bs.length
      · rw [if_pos h2, if_pos (by omega), show i - off = (i - (off + 1)) + 1 by omega, List.getElem?_cons_succ]
      · rw [if_neg h2, if_neg h1, if_neg (by omega)]

/-- A write leaves every cell outside it alone. -/
theorem Memory.get_writeOctets_outside (m : Memory) (off : Nat) (bs : List Byte) (i : Nat)
    (h : i < off ∨ off + bs.length ≤ i) : (m.writeOctets off bs).get i = m.get i := by
  rw [Memory.get_writeOctets, if_neg (by omega)]

theorem Memory.gather_eq_some (m : Memory) (is : List Nat) (bs : List Byte) :
    m.gather is = some bs ↔ is.map m.get = bs.map some := by
  induction is generalizing bs with
  | nil => cases bs <;> simp [Memory.gather]
  | cons i is ih =>
    cases bs with
    | nil =>
      simp only [Memory.gather, List.map_cons, List.map_nil, reduceCtorEq, iff_false]
      cases m.get i <;> cases m.gather is <;> simp
    | cons b bs =>
      have := ih bs
      simp only [Memory.gather, List.map_cons, List.cons.injEq]
      rw [← this]
      cases m.get i <;> cases m.gather is <;> simp

theorem Memory.gather_congr (m n : Memory) (is : List Nat) (h : ∀ i ∈ is, m.get i = n.get i) :
    m.gather is = n.gather is := by
  induction is with
  | nil => rfl
  | cons i is ih =>
    simp only [Memory.gather]
    rw [h i (by simp), ih (fun j hj => h j (by simp [hj]))]

/-- Everything a read of octets can answer: `bs` exactly if cell `off + k` holds `bs[k]` for each of the `n`. -/
theorem Memory.readOctets_eq_some (m : Memory) (off n : Nat) (bs : List Byte) :
    m.readOctets off n = some bs ↔ bs.length = n ∧ ∀ k, k < n → m.get (off + k) = bs[k]? := by
  rw [Memory.readOctets, Memory.gather_eq_some]
  constructor
  · intro h
    have hl : bs.length = n := by have := congrArg List.length h; simpa using this.symm
    refine ⟨hl, fun k hk => ?_⟩
    have := congrArg (fun l => l[k]?) h
    simp only [List.map_map, List.getElem?_map, List.getElem?_range hk, Option.map_some, Function.comp] at this
    rw [List.getElem?_eq_getElem (by omega)] at this ⊢
    simpa using this
  · rintro ⟨hl, h⟩
    apply List.ext_getElem?
    intro k
    by_cases hk : k < n
    · simp only [List.map_map, List.getElem?_map, List.getElem?_range hk, Option.map_some, Function.comp]
      rw [h k hk, List.getElem?_eq_getElem (by omega)]
      rfl
    · rw [List.getElem?_eq_none (by simpa using hk), List.getElem?_eq_none (by simpa [hl] using hk)]

theorem Memory.readOctets_congr (m n : Memory) (off k : Nat) (h : ∀ i, off ≤ i → i < off + k → m.get i = n.get i) :
    m.readOctets off k = n.readOctets off k := by
  apply Memory.gather_congr
  intro i hi
  obtain ⟨j, hj, rfl⟩ := List.mem_map.1 hi
  have := List.mem_range.1 hj
  exact h _ (by omega) (by omega)

/-- A read within the cells that hold octets answers them. -/
theorem Memory.readOctets_isSome (m : Memory) (off n len : Nat) (h : m.holdsExactly len) (hn : off + n ≤ len) :
    (m.readOctets off n).isSome := by
  have : ∃ bs, m.readOctets off n = some bs := by
    refine ⟨(List.range n).map (fun k => (m.get (off + k)).getD 0), ?_⟩
    rw [Memory.readOctets_eq_some]
    refine ⟨by simp, fun k hk => ?_⟩
    have := (Memory.isSome_get_of_holdsExactly m len (off + k) h).2 (by omega)
    rw [List.getElem?_map, List.getElem?_range hk]
    cases hg : m.get (off + k) <;> simp_all
  obtain ⟨bs, hbs⟩ := this
  simp [hbs]

theorem Memory.readOctets_writeOctets_same (m : Memory) (off : Nat) (bs : List Byte) :
    (m.writeOctets off bs).readOctets off bs.length = some bs := by
  rw [Memory.readOctets_eq_some]
  refine ⟨rfl, fun k hk => ?_⟩
  rw [Memory.get_writeOctets, if_pos (by omega)]
  simp

theorem Memory.readOctets_writeOctets_disjoint (m : Memory) (o n off : Nat) (bs : List Byte)
    (h : o + n ≤ off ∨ off + bs.length ≤ o) : (m.writeOctets off bs).readOctets o n = m.readOctets o n := by
  apply Memory.readOctets_congr
  intro i h1 h2
  exact Memory.get_writeOctets_outside _ _ _ _ (by omega)

theorem Memory.readOctets_ofOctets (bs : List Byte) (off n : Nat) (h : off + n ≤ bs.length) :
    (Memory.ofOctets bs).readOctets off n = some ((bs.drop off).take n) := by
  rw [Memory.readOctets_eq_some]
  refine ⟨by simp; omega, fun k hk => ?_⟩
  rw [Memory.get_ofOctets, List.getElem?_take, if_pos hk, List.getElem?_drop]

/-! ## Big-endian integers -/

@[simp] theorem length_beOctets (n v : Nat) : (beOctets n v).length = n := by
  induction n generalizing v with
  | zero => rfl
  | succ n ih => simp [beOctets, ih]

theorem beValue_lt (bs : List Byte) : beValue bs < 256 ^ bs.length := by
  induction bs with
  | nil => simp [beValue]
  | cons b bs ih =>
    have hb : b.toNat < 256 := b.isLt
    simp only [beValue, List.length_cons]
    calc b.toNat * 256 ^ bs.length + beValue bs
        < b.toNat * 256 ^ bs.length + 256 ^ bs.length := by omega
      _ = (b.toNat + 1) * 256 ^ bs.length := by ring
      _ ≤ 256 * 256 ^ bs.length := Nat.mul_le_mul_right _ hb
      _ = 256 ^ (bs.length + 1) := by ring

/-- The octets of an integer have its value, modulo what `n` octets hold. -/
theorem beValue_beOctets (n v : Nat) : beValue (beOctets n v) = v % 256 ^ n := by
  induction n generalizing v with
  | zero => simp [beOctets, beValue, Nat.mod_one]
  | succ n ih =>
    simp only [beOctets, beValue, length_beOctets, ih, BitVec.toNat_ofNat]
    have h : v % 256 ^ (n + 1) = v % (256 ^ n * 256) := by rw [Nat.pow_succ]
    rw [h, Nat.mod_mul]
    norm_num
    ring

theorem beOctets_mod (n v k : Nat) (h : n ≤ k) : beOctets n (v % 256 ^ k) = beOctets n v := by
  induction n with
  | zero => rfl
  | succ n ih =>
    simp only [beOctets, ih (by omega)]
    congr 1
    apply BitVec.eq_of_toNat_eq
    simp only [BitVec.toNat_ofNat]
    obtain ⟨d, rfl⟩ := Nat.exists_eq_add_of_le h
    rw [show n + 1 + d = n + (d + 1) by omega, Nat.pow_add, Nat.mod_mul_right_div_self]
    rw [Nat.mod_mod_of_dvd]
    exact ⟨256 ^ d, by ring⟩

/-- Octets are the octets of their value. -/
theorem beOctets_beValue (bs : List Byte) : beOctets bs.length (beValue bs) = bs := by
  induction bs with
  | nil => rfl
  | cons b bs ih =>
    have hlt := beValue_lt bs
    have hb : b.toNat < 256 := b.isLt
    have hp : 0 < 256 ^ bs.length := Nat.pow_pos (by omega)
    simp only [beValue, List.length_cons, beOctets]
    congr 1
    · apply BitVec.eq_of_toNat_eq
      rw [BitVec.toNat_ofNat, Nat.add_comm, Nat.add_mul_div_right _ _ hp, Nat.div_eq_of_lt hlt, Nat.zero_add]
      exact Nat.mod_eq_of_lt hb
    · rw [← beOctets_mod _ _ bs.length le_rfl, Nat.add_comm, Nat.add_mul_mod_self_right, Nat.mod_eq_of_lt hlt, ih]

/-! ## Fields (R88) -/

theorem Memory.field_eq (m : Memory) (off w : Nat) :
    m.field off w = (m.readOctets off (w / 8)).map (fun bs => BitVec.ofNat w (beValue bs)) := by
  simp [Memory.field, Memory.memRead, Option.map_map, Function.comp_def]

/-- A field written is the field read. -/
theorem Memory.field_setField_same (m : Memory) (off : Nat) {w : Nat} (v : BitVec w) (hw : 8 * (w / 8) = w) :
    (m.setField off v).field off w = some v := by
  have hr := Memory.readOctets_writeOctets_same m off (beOctets (w / 8) v.toNat)
  rw [length_beOctets] at hr
  rw [Memory.field_eq, Memory.setField, Memory.memWrite, hr]
  simp only [Option.map_some, beValue_beOctets, Option.some.injEq]
  have : v.toNat < 256 ^ (w / 8) := by
    have h := v.isLt
    rw [show (256 : Nat) = 2 ^ 8 by norm_num, ← Nat.pow_mul, hw]
    exact h
  rw [Nat.mod_eq_of_lt this, BitVec.ofNat_toNat, BitVec.setWidth_eq]

/-- A field elsewhere is read as before. -/
theorem Memory.field_setField_disjoint (m : Memory) (o off w : Nat) {w' : Nat} (v : BitVec w')
    (h : o + w / 8 ≤ off ∨ off + w' / 8 ≤ o) : (m.setField off v).field o w = m.field o w := by
  rw [Memory.field_eq, Memory.field_eq, Memory.setField, Memory.memWrite,
    Memory.readOctets_writeOctets_disjoint _ _ _ _ _ (by simpa using h)]

theorem Memory.field_writeOctets_disjoint (m : Memory) (o off w : Nat) (bs : List Byte)
    (h : o + w / 8 ≤ off ∨ off + bs.length ≤ o) : (m.writeOctets off bs).field o w = m.field o w := by
  rw [Memory.field_eq, Memory.field_eq, Memory.readOctets_writeOctets_disjoint _ _ _ _ _ h]

/-- A write leaves every cell outside the field alone. -/
theorem Memory.get_setField_outside (m : Memory) (off i : Nat) {w : Nat} (v : BitVec w)
    (h : i < off ∨ off + w / 8 ≤ i) : (m.setField off v).get i = m.get i := by
  rw [Memory.setField, Memory.memWrite, Memory.get_writeOctets_outside]
  simpa using h

theorem Memory.readOctets_setField_disjoint (m : Memory) (o n off : Nat) {w : Nat} (v : BitVec w)
    (h : o + n ≤ off ∨ off + w / 8 ≤ o) : (m.setField off v).readOctets o n = m.readOctets o n := by
  rw [Memory.setField, Memory.memWrite, Memory.readOctets_writeOctets_disjoint _ _ _ _ _ (by simpa using h)]

/-- A field read within the cells that hold octets answers a value. -/
theorem Memory.field_isSome (m : Memory) (off w len : Nat) (h : m.holdsExactly len) (hn : off + w / 8 ≤ len) :
    (m.field off w).isSome := by
  rw [Memory.field_eq]
  simpa using Memory.readOctets_isSome m off (w / 8) len h hn

/-- Writing back the field that was read changes no cell. -/
theorem Memory.setField_of_field (m : Memory) (off : Nat) {w : Nat} (v : BitVec w) (n : Memory)
    (hw : 8 * (w / 8) = w) (h : m.field off w = some v) (i : Nat) (h1 : off ≤ i) (h2 : i < off + w / 8) :
    (n.setField off v).get i = m.get i := by
  rw [Memory.field_eq, Option.map_eq_some_iff] at h
  obtain ⟨bs, hbs, hv⟩ := h
  obtain ⟨hl, hg⟩ := (Memory.readOctets_eq_some _ _ _ _).1 hbs
  have hlt := beValue_lt bs
  have hval : v.toNat = beValue bs := by
    rw [← hv, BitVec.toNat_ofNat]
    apply Nat.mod_eq_of_lt
    calc beValue bs < 256 ^ bs.length := hlt
      _ = 2 ^ w := by rw [hl, show (256 : Nat) = 2 ^ 8 by norm_num, ← Nat.pow_mul, hw]
  rw [Memory.setField, Memory.memWrite, Memory.get_writeOctets, if_pos (by simpa using ⟨h1, h2⟩), hval, ← hl,
    beOctets_beValue]
  have := hg (i - off) (by omega)
  rw [show off + (i - off) = i by omega] at this
  exact this.symm

/-! ## Building a buffer from offset 0 up -/

theorem Memory.holdsExactly_nil : Memory.holdsExactly [] 0 := rfl

/-- Octets written at the end of the cells that hold octets extend them. -/
theorem Memory.holdsExactly_writeOctets (m : Memory) (n : Nat) (bs : List Byte) (h : m.holdsExactly n) :
    (m.writeOctets n bs).holdsExactly (n + bs.length) := by
  apply Memory.holdsExactly_of_get _ _ (m.wf_writeOctets _ _ (m.holdsExactly_wf n h))
  intro i
  rw [Memory.get_writeOctets]
  split
  · rename_i hi
    rw [List.getElem?_eq_getElem (by omega)]
    simp only [Option.isSome_some, true_iff]
    omega
  · rw [Memory.isSome_get_of_holdsExactly m n i h]
    omega

theorem Memory.holdsExactly_setField (m : Memory) (n : Nat) {w : Nat} (v : BitVec w) (h : m.holdsExactly n) :
    (m.setField n v).holdsExactly (n + w / 8) := by
  have := Memory.holdsExactly_writeOctets m n (beOctets (w / 8) v.toNat) h
  rwa [length_beOctets] at this

/-- Octets written over cells that hold octets change no extent. -/
theorem Memory.holdsExactly_writeOctets_within (m : Memory) (n off : Nat) (bs : List Byte) (h : m.holdsExactly n)
    (hn : off + bs.length ≤ n) : (m.writeOctets off bs).holdsExactly n := by
  apply Memory.holdsExactly_of_get _ _ (m.wf_writeOctets _ _ (m.holdsExactly_wf n h))
  intro i
  rw [Memory.get_writeOctets]
  split
  · rename_i hi
    rw [List.getElem?_eq_getElem (by omega)]
    simp only [Option.isSome_some, true_iff]
    omega
  · rw [Memory.isSome_get_of_holdsExactly m n i h]

theorem Memory.holdsExactly_put_within (m : Memory) (n off : Nat) (b : Byte) (h : m.holdsExactly n) (hn : off < n) :
    (m.put off b).holdsExactly n := by
  have := Memory.holdsExactly_writeOctets_within m n off [b] h (by simpa using hn)
  exact this

end Sys2Proof.Machine
end

