-- ==== Sys2Proof/Laws/State.lean ====
section
/-!
SUPPORT. One lemma per field per update of State, and the laws of the message register groups (R24 to R29, R33).
-/

namespace Sys2Proof.Machine

/-! ## The end of an operation, field by field -/

@[simp] theorem State.succeed_buf (s : State) (r : Option (BitVec 64)) : (s.succeed r).buf = s.buf := rfl
@[simp] theorem State.succeed_len (s : State) (r : Option (BitVec 64)) : (s.succeed r).len = s.len := rfl
@[simp] theorem State.succeed_msg (s : State) (r : Option (BitVec 64)) : (s.succeed r).msg = s.msg := rfl
@[simp] theorem State.succeed_res (s : State) (r : Option (BitVec 64)) : (s.succeed r).res = r := rfl
@[simp] theorem State.succeed_err (s : State) (r : Option (BitVec 64)) : (s.succeed r).err = 0 := rfl
@[simp] theorem State.succeed_errinfo (s : State) (r : Option (BitVec 64)) : (s.succeed r).errinfo = none := rfl
@[simp] theorem State.succeed_inputs (s : State) (r : Option (BitVec 64)) : (s.succeed r).inputs = s.inputs := rfl

@[simp] theorem State.raise_primitive_buf (s : State) (e : CodecError) : (s.raise .primitive e).buf = s.buf := rfl
@[simp] theorem State.raise_primitive_len (s : State) (e : CodecError) : (s.raise .primitive e).len = s.len := rfl
@[simp] theorem State.raise_primitive_msg (s : State) (e : CodecError) : (s.raise .primitive e).msg = s.msg := rfl
@[simp] theorem State.raise_primitive_res (s : State) (e : CodecError) : (s.raise .primitive e).res = none := rfl
@[simp] theorem State.raise_primitive_err (s : State) (e : CodecError) : (s.raise .primitive e).err = e.code := rfl
@[simp] theorem State.raise_primitive_errinfo (s : State) (e : CodecError) : (s.raise .primitive e).errinfo = some e.info := rfl
@[simp] theorem State.raise_primitive_inputs (s : State) (e : CodecError) : (s.raise .primitive e).inputs = s.inputs := rfl

@[simp] theorem State.raise_decode_buf (s : State) (e : CodecError) : (s.raise .decode e).buf = s.buf := rfl
@[simp] theorem State.raise_decode_len (s : State) (e : CodecError) : (s.raise .decode e).len = s.len := rfl
@[simp] theorem State.raise_decode_msg (s : State) (e : CodecError) : (s.raise .decode e).msg = Msg.empty := rfl
@[simp] theorem State.raise_decode_res (s : State) (e : CodecError) : (s.raise .decode e).res = none := rfl
@[simp] theorem State.raise_decode_err (s : State) (e : CodecError) : (s.raise .decode e).err = e.code := rfl
@[simp] theorem State.raise_decode_errinfo (s : State) (e : CodecError) : (s.raise .decode e).errinfo = some e.info := rfl
@[simp] theorem State.raise_decode_inputs (s : State) (e : CodecError) : (s.raise .decode e).inputs = s.inputs := rfl

@[simp] theorem State.raise_encode_buf (s : State) (e : CodecError) : (s.raise .encode e).buf = [] := rfl
@[simp] theorem State.raise_encode_len (s : State) (e : CodecError) : (s.raise .encode e).len = 0 := rfl
@[simp] theorem State.raise_encode_msg (s : State) (e : CodecError) : (s.raise .encode e).msg = s.msg := rfl
@[simp] theorem State.raise_encode_res (s : State) (e : CodecError) : (s.raise .encode e).res = none := rfl
@[simp] theorem State.raise_encode_err (s : State) (e : CodecError) : (s.raise .encode e).err = e.code := rfl
@[simp] theorem State.raise_encode_errinfo (s : State) (e : CodecError) : (s.raise .encode e).errinfo = some e.info := rfl
@[simp] theorem State.raise_encode_inputs (s : State) (e : CodecError) : (s.raise .encode e).inputs = s.inputs := rfl

@[simp] theorem State.finishDecode_buf (s : State) (m : Msg) : (s.finishDecode m).buf = s.buf := rfl
@[simp] theorem State.finishDecode_len (s : State) (m : Msg) : (s.finishDecode m).len = s.len := rfl
@[simp] theorem State.finishDecode_msg (s : State) (m : Msg) : (s.finishDecode m).msg = m := rfl
@[simp] theorem State.finishDecode_res (s : State) (m : Msg) : (s.finishDecode m).res = none := rfl
@[simp] theorem State.finishDecode_err (s : State) (m : Msg) : (s.finishDecode m).err = 0 := rfl
@[simp] theorem State.finishDecode_errinfo (s : State) (m : Msg) : (s.finishDecode m).errinfo = none := rfl
@[simp] theorem State.finishDecode_inputs (s : State) (m : Msg) : (s.finishDecode m).inputs = s.inputs := rfl

@[simp] theorem State.finishEncode_buf (s : State) (m : Memory) (n : Nat) : (s.finishEncode m n).buf = m := rfl
@[simp] theorem State.finishEncode_len (s : State) (m : Memory) (n : Nat) : (s.finishEncode m n).len = BitVec.ofNat 10 n := rfl
@[simp] theorem State.finishEncode_msg (s : State) (m : Memory) (n : Nat) : (s.finishEncode m n).msg = s.msg := rfl
@[simp] theorem State.finishEncode_res (s : State) (m : Memory) (n : Nat) : (s.finishEncode m n).res = none := rfl
@[simp] theorem State.finishEncode_err (s : State) (m : Memory) (n : Nat) : (s.finishEncode m n).err = 0 := rfl
@[simp] theorem State.finishEncode_errinfo (s : State) (m : Memory) (n : Nat) : (s.finishEncode m n).errinfo = none := rfl
@[simp] theorem State.finishEncode_inputs (s : State) (m : Memory) (n : Nat) : (s.finishEncode m n).inputs = s.inputs := rfl

/-- Raising an error, whatever the class: the status registers, and the pending inputs stay. -/
theorem State.raise_status (s : State) (k : OpClass) (e : CodecError) :
    (s.raise k e).err = e.code ∧ (s.raise k e).errinfo = some e.info ∧ (s.raise k e).res = none ∧
      (s.raise k e).inputs = s.inputs := by
  cases k <;> exact ⟨rfl, rfl, rfl, rfl⟩

/-- No error has code 0 or code 7 (R34, R230). -/
theorem CodecError.code_range (e : CodecError) : e.code ≠ 0 ∧ e.code ≠ 7 := by
  cases e <;> simp [CodecError.code]

/-! ## Register groups and values -/

@[simp] theorem HRegs.value_of (x : Header) : (HRegs.of x).value = some x := rfl

@[simp] theorem HRegs.value_empty : HRegs.empty.value = none := rfl

/-- A group that holds a value holds it in every register. -/
theorem HRegs.value_eq_some (r : HRegs) (x : Header) : r.value = some x ↔ r = .of x := by
  constructor
  · intro h
    obtain ⟨_, hCd, h⟩ := Option.bind_eq_some_iff.1 h
    obtain ⟨_, hSubtype, h⟩ := Option.bind_eq_some_iff.1 h
    obtain ⟨_, hSv, h⟩ := Option.bind_eq_some_iff.1 h
    obtain ⟨_, hVersion, h⟩ := Option.bind_eq_some_iff.1 h
    obtain ⟨_, hMessageType, h⟩ := Option.bind_eq_some_iff.1 h
    obtain ⟨_, hValidTime, h⟩ := Option.bind_eq_some_iff.1 h
    obtain ⟨_, hDataLength, h⟩ := Option.bind_eq_some_iff.1 h
    cases h
    cases r
    simp_all [HRegs.of]
  · rintro rfl
    rfl

@[simp] theorem AdpRegs.value_of (x : Discovery) : (AdpRegs.of x).value = some x := rfl

@[simp] theorem AdpRegs.value_empty : AdpRegs.empty.value = none := rfl

/-- A group that holds a value holds it in every register. -/
theorem AdpRegs.value_eq_some (r : AdpRegs) (x : Discovery) : r.value = some x ↔ r = .of x := by
  constructor
  · intro h
    obtain ⟨_, hEntityId, h⟩ := Option.bind_eq_some_iff.1 h
    obtain ⟨_, hVendorId, h⟩ := Option.bind_eq_some_iff.1 h
    obtain ⟨_, hModelId, h⟩ := Option.bind_eq_some_iff.1 h
    obtain ⟨_, hEntityCapabilities, h⟩ := Option.bind_eq_some_iff.1 h
    obtain ⟨_, hTalkerStreamSources, h⟩ := Option.bind_eq_some_iff.1 h
    obtain ⟨_, hTalkerCapabilities, h⟩ := Option.bind_eq_some_iff.1 h
    obtain ⟨_, hListenerStreamSinks, h⟩ := Option.bind_eq_some_iff.1 h
    obtain ⟨_, hListenerCapabilities, h⟩ := Option.bind_eq_some_iff.1 h
    obtain ⟨_, hControllerCapabilities, h⟩ := Option.bind_eq_some_iff.1 h
    obtain ⟨_, hAvailableIndex, h⟩ := Option.bind_eq_some_iff.1 h
    obtain ⟨_, hGmId, h⟩ := Option.bind_eq_some_iff.1 h
    obtain ⟨_, hDefaultAudioFormat, h⟩ := Option.bind_eq_some_iff.1 h
    obtain ⟨_, hDefaultVideoFormat, h⟩ := Option.bind_eq_some_iff.1 h
    obtain ⟨_, hAssociationId, h⟩ := Option.bind_eq_some_iff.1 h
    obtain ⟨_, hEntityType, h⟩ := Option.bind_eq_some_iff.1 h
    cases h
    cases r
    simp_all [AdpRegs.of]
  · rintro rfl
    rfl

@[simp] theorem AcmpRegs.value_of (x : Connection) : (AcmpRegs.of x).value = some x := rfl

@[simp] theorem AcmpRegs.value_empty : AcmpRegs.empty.value = none := rfl

/-- A group that holds a value holds it in every register. -/
theorem AcmpRegs.value_eq_some (r : AcmpRegs) (x : Connection) : r.value = some x ↔ r = .of x := by
  constructor
  · intro h
    obtain ⟨_, hStreamId, h⟩ := Option.bind_eq_some_iff.1 h
    obtain ⟨_, hControllerId, h⟩ := Option.bind_eq_some_iff.1 h
    obtain ⟨_, hTalkerId, h⟩ := Option.bind_eq_some_iff.1 h
    obtain ⟨_, hListenerId, h⟩ := Option.bind_eq_some_iff.1 h
    obtain ⟨_, hTalkerUniqueId, h⟩ := Option.bind_eq_some_iff.1 h
    obtain ⟨_, hListenerUniqueId, h⟩ := Option.bind_eq_some_iff.1 h
    obtain ⟨_, hDestMac, h⟩ := Option.bind_eq_some_iff.1 h
    obtain ⟨_, hConnectionCount, h⟩ := Option.bind_eq_some_iff.1 h
    obtain ⟨_, hSequenceId, h⟩ := Option.bind_eq_some_iff.1 h
    obtain ⟨_, hFlags, h⟩ := Option.bind_eq_some_iff.1 h
    obtain ⟨_, hDefaultFormat, h⟩ := Option.bind_eq_some_iff.1 h
    cases h
    cases r
    simp_all [AcmpRegs.of]
  · rintro rfl
    rfl

@[simp] theorem AecpRegs.value_of (x : AecpCommon) : (AecpRegs.of x).value = some x := rfl

@[simp] theorem AecpRegs.value_empty : AecpRegs.empty.value = none := rfl

/-- A group that holds a value holds it in every register. -/
theorem AecpRegs.value_eq_some (r : AecpRegs) (x : AecpCommon) : r.value = some x ↔ r = .of x := by
  constructor
  · intro h
    obtain ⟨_, hTargetId, h⟩ := Option.bind_eq_some_iff.1 h
    obtain ⟨_, hControllerId, h⟩ := Option.bind_eq_some_iff.1 h
    obtain ⟨_, hSequenceId, h⟩ := Option.bind_eq_some_iff.1 h
    cases h
    cases r
    simp_all [AecpRegs.of]
  · rintro rfl
    rfl

@[simp] theorem V0Regs.value_of (x : VendorMessage) : (V0Regs.of x).value = some x := rfl

@[simp] theorem V0Regs.value_empty : V0Regs.empty.value = none := rfl

/-- A group that holds a value holds it in every register. -/
theorem V0Regs.value_eq_some (r : V0Regs) (x : VendorMessage) : r.value = some x ↔ r = .of x := by
  constructor
  · intro h
    obtain ⟨_, hModeLen, h⟩ := Option.bind_eq_some_iff.1 h
    obtain ⟨_, hOuiFlags, h⟩ := Option.bind_eq_some_iff.1 h
    obtain ⟨_, hTypeFlags, h⟩ := Option.bind_eq_some_iff.1 h
    obtain ⟨_, hIndex1, h⟩ := Option.bind_eq_some_iff.1 h
    obtain ⟨_, hIndex2, h⟩ := Option.bind_eq_some_iff.1 h
    obtain ⟨_, hIndex3, h⟩ := Option.bind_eq_some_iff.1 h
    cases h
    cases r
    simp_all [V0Regs.of]
  · rintro rfl
    rfl

@[simp] theorem V1Regs.value_of (x : AddressAccess) : (V1Regs.of x).value = some x := rfl

@[simp] theorem V1Regs.value_empty : V1Regs.empty.value = none := rfl

/-- A group that holds a value holds it in every register. -/
theorem V1Regs.value_eq_some (r : V1Regs) (x : AddressAccess) : r.value = some x ↔ r = .of x := by
  constructor
  · intro h
    obtain ⟨_, hModeLen, h⟩ := Option.bind_eq_some_iff.1 h
    cases h
    cases r
    simp_all [V1Regs.of]
  · rintro rfl
    rfl

@[simp] theorem V2Regs.value_of (x : LegacyCommand) : (V2Regs.of x).value = some x := rfl

@[simp] theorem V2Regs.value_empty : V2Regs.empty.value = none := rfl

/-- A group that holds a value holds it in every register. -/
theorem V2Regs.value_eq_some (r : V2Regs) (x : LegacyCommand) : r.value = some x ↔ r = .of x := by
  constructor
  · intro h
    obtain ⟨_, hLength, h⟩ := Option.bind_eq_some_iff.1 h
    cases h
    cases r
    simp_all [V2Regs.of]
  · rintro rfl
    rfl

@[simp] theorem V3Regs.value_of (x : VendorSpecific) : (V3Regs.of x).value = some x := rfl

@[simp] theorem V3Regs.value_empty : V3Regs.empty.value = none := rfl

/-- A group that holds a value holds it in every register. -/
theorem V3Regs.value_eq_some (r : V3Regs) (x : VendorSpecific) : r.value = some x ↔ r = .of x := by
  constructor
  · intro h
    obtain ⟨_, hProtocolId, h⟩ := Option.bind_eq_some_iff.1 h
    cases h
    cases r
    simp_all [V3Regs.of]
  · rintro rfl
    rfl

/-! ## The message values, group by group -/

@[simp] theorem Msg.empty_h : Msg.empty.h = .empty := rfl
@[simp] theorem Msg.empty_adp : Msg.empty.adp = .empty := rfl
@[simp] theorem Msg.empty_acmp : Msg.empty.acmp = .empty := rfl
@[simp] theorem Msg.empty_aecp : Msg.empty.aecp = .empty := rfl
@[simp] theorem Msg.empty_v0 : Msg.empty.v0 = .empty := rfl
@[simp] theorem Msg.empty_v1 : Msg.empty.v1 = .empty := rfl
@[simp] theorem Msg.empty_v2 : Msg.empty.v2 = .empty := rfl
@[simp] theorem Msg.empty_v3 : Msg.empty.v3 = .empty := rfl
@[simp] theorem Msg.empty_data : Msg.empty.data = [] := rfl
@[simp] theorem Msg.empty_dlen : Msg.empty.dlen = none := rfl

@[simp] theorem Msg.withData_h (m : Msg) (bs : List Byte) : (m.withData bs).h = m.h := rfl
@[simp] theorem Msg.withData_adp (m : Msg) (bs : List Byte) : (m.withData bs).adp = m.adp := rfl
@[simp] theorem Msg.withData_acmp (m : Msg) (bs : List Byte) : (m.withData bs).acmp = m.acmp := rfl
@[simp] theorem Msg.withData_aecp (m : Msg) (bs : List Byte) : (m.withData bs).aecp = m.aecp := rfl
@[simp] theorem Msg.withData_v0 (m : Msg) (bs : List Byte) : (m.withData bs).v0 = m.v0 := rfl
@[simp] theorem Msg.withData_v1 (m : Msg) (bs : List Byte) : (m.withData bs).v1 = m.v1 := rfl
@[simp] theorem Msg.withData_v2 (m : Msg) (bs : List Byte) : (m.withData bs).v2 = m.v2 := rfl
@[simp] theorem Msg.withData_v3 (m : Msg) (bs : List Byte) : (m.withData bs).v3 = m.v3 := rfl
@[simp] theorem Msg.withData_data (m : Msg) (bs : List Byte) : (m.withData bs).data = Memory.ofOctets bs := rfl
@[simp] theorem Msg.withData_dlen (m : Msg) (bs : List Byte) : (m.withData bs).dlen = some (BitVec.ofNat 10 bs.length) := rfl

@[simp] theorem Msg.withPayload_v0_h (m : Msg) (p : VendorMessage) : (m.withPayload (.v0 p)).h = m.h := rfl
@[simp] theorem Msg.withPayload_v0_adp (m : Msg) (p : VendorMessage) : (m.withPayload (.v0 p)).adp = m.adp := rfl
@[simp] theorem Msg.withPayload_v0_acmp (m : Msg) (p : VendorMessage) : (m.withPayload (.v0 p)).acmp = m.acmp := rfl
@[simp] theorem Msg.withPayload_v0_aecp (m : Msg) (p : VendorMessage) : (m.withPayload (.v0 p)).aecp = m.aecp := rfl
@[simp] theorem Msg.withPayload_v0_v0 (m : Msg) (p : VendorMessage) : (m.withPayload (.v0 p)).v0 = .of p := rfl
@[simp] theorem Msg.withPayload_v0_v1 (m : Msg) (p : VendorMessage) : (m.withPayload (.v0 p)).v1 = m.v1 := rfl
@[simp] theorem Msg.withPayload_v0_v2 (m : Msg) (p : VendorMessage) : (m.withPayload (.v0 p)).v2 = m.v2 := rfl
@[simp] theorem Msg.withPayload_v0_v3 (m : Msg) (p : VendorMessage) : (m.withPayload (.v0 p)).v3 = m.v3 := rfl
@[simp] theorem Msg.withPayload_v0_data (m : Msg) (p : VendorMessage) : (m.withPayload (.v0 p)).data = m.data := rfl
@[simp] theorem Msg.withPayload_v0_dlen (m : Msg) (p : VendorMessage) : (m.withPayload (.v0 p)).dlen = m.dlen := rfl

@[simp] theorem Msg.withPayload_v1_h (m : Msg) (p : AddressAccess) : (m.withPayload (.v1 p)).h = m.h := rfl
@[simp] theorem Msg.withPayload_v1_adp (m : Msg) (p : AddressAccess) : (m.withPayload (.v1 p)).adp = m.adp := rfl
@[simp] theorem Msg.withPayload_v1_acmp (m : Msg) (p : AddressAccess) : (m.withPayload (.v1 p)).acmp = m.acmp := rfl
@[simp] theorem Msg.withPayload_v1_aecp (m : Msg) (p : AddressAccess) : (m.withPayload (.v1 p)).aecp = m.aecp := rfl
@[simp] theorem Msg.withPayload_v1_v0 (m : Msg) (p : AddressAccess) : (m.withPayload (.v1 p)).v0 = m.v0 := rfl
@[simp] theorem Msg.withPayload_v1_v1 (m : Msg) (p : AddressAccess) : (m.withPayload (.v1 p)).v1 = .of p := rfl
@[simp] theorem Msg.withPayload_v1_v2 (m : Msg) (p : AddressAccess) : (m.withPayload (.v1 p)).v2 = m.v2 := rfl
@[simp] theorem Msg.withPayload_v1_v3 (m : Msg) (p : AddressAccess) : (m.withPayload (.v1 p)).v3 = m.v3 := rfl
@[simp] theorem Msg.withPayload_v1_data (m : Msg) (p : AddressAccess) : (m.withPayload (.v1 p)).data = m.data := rfl
@[simp] theorem Msg.withPayload_v1_dlen (m : Msg) (p : AddressAccess) : (m.withPayload (.v1 p)).dlen = m.dlen := rfl

@[simp] theorem Msg.withPayload_v2_h (m : Msg) (p : LegacyCommand) : (m.withPayload (.v2 p)).h = m.h := rfl
@[simp] theorem Msg.withPayload_v2_adp (m : Msg) (p : LegacyCommand) : (m.withPayload (.v2 p)).adp = m.adp := rfl
@[simp] theorem Msg.withPayload_v2_acmp (m : Msg) (p : LegacyCommand) : (m.withPayload (.v2 p)).acmp = m.acmp := rfl
@[simp] theorem Msg.withPayload_v2_aecp (m : Msg) (p : LegacyCommand) : (m.withPayload (.v2 p)).aecp = m.aecp := rfl
@[simp] theorem Msg.withPayload_v2_v0 (m : Msg) (p : LegacyCommand) : (m.withPayload (.v2 p)).v0 = m.v0 := rfl
@[simp] theorem Msg.withPayload_v2_v1 (m : Msg) (p : LegacyCommand) : (m.withPayload (.v2 p)).v1 = m.v1 := rfl
@[simp] theorem Msg.withPayload_v2_v2 (m : Msg) (p : LegacyCommand) : (m.withPayload (.v2 p)).v2 = .of p := rfl
@[simp] theorem Msg.withPayload_v2_v3 (m : Msg) (p : LegacyCommand) : (m.withPayload (.v2 p)).v3 = m.v3 := rfl
@[simp] theorem Msg.withPayload_v2_data (m : Msg) (p : LegacyCommand) : (m.withPayload (.v2 p)).data = m.data := rfl
@[simp] theorem Msg.withPayload_v2_dlen (m : Msg) (p : LegacyCommand) : (m.withPayload (.v2 p)).dlen = m.dlen := rfl

@[simp] theorem Msg.withPayload_v3_h (m : Msg) (p : VendorSpecific) : (m.withPayload (.v3 p)).h = m.h := rfl
@[simp] theorem Msg.withPayload_v3_adp (m : Msg) (p : VendorSpecific) : (m.withPayload (.v3 p)).adp = m.adp := rfl
@[simp] theorem Msg.withPayload_v3_acmp (m : Msg) (p : VendorSpecific) : (m.withPayload (.v3 p)).acmp = m.acmp := rfl
@[simp] theorem Msg.withPayload_v3_aecp (m : Msg) (p : VendorSpecific) : (m.withPayload (.v3 p)).aecp = m.aecp := rfl
@[simp] theorem Msg.withPayload_v3_v0 (m : Msg) (p : VendorSpecific) : (m.withPayload (.v3 p)).v0 = m.v0 := rfl
@[simp] theorem Msg.withPayload_v3_v1 (m : Msg) (p : VendorSpecific) : (m.withPayload (.v3 p)).v1 = m.v1 := rfl
@[simp] theorem Msg.withPayload_v3_v2 (m : Msg) (p : VendorSpecific) : (m.withPayload (.v3 p)).v2 = m.v2 := rfl
@[simp] theorem Msg.withPayload_v3_v3 (m : Msg) (p : VendorSpecific) : (m.withPayload (.v3 p)).v3 = .of p := rfl
@[simp] theorem Msg.withPayload_v3_data (m : Msg) (p : VendorSpecific) : (m.withPayload (.v3 p)).data = m.data := rfl
@[simp] theorem Msg.withPayload_v3_dlen (m : Msg) (p : VendorSpecific) : (m.withPayload (.v3 p)).dlen = m.dlen := rfl

@[simp] theorem headerMsg_h (h : Header) : (headerMsg h).h = .of h := rfl
@[simp] theorem headerMsg_adp (h : Header) : (headerMsg h).adp = Msg.empty.adp := rfl
@[simp] theorem headerMsg_acmp (h : Header) : (headerMsg h).acmp = Msg.empty.acmp := rfl
@[simp] theorem headerMsg_aecp (h : Header) : (headerMsg h).aecp = Msg.empty.aecp := rfl
@[simp] theorem headerMsg_v0 (h : Header) : (headerMsg h).v0 = Msg.empty.v0 := rfl
@[simp] theorem headerMsg_v1 (h : Header) : (headerMsg h).v1 = Msg.empty.v1 := rfl
@[simp] theorem headerMsg_v2 (h : Header) : (headerMsg h).v2 = Msg.empty.v2 := rfl
@[simp] theorem headerMsg_v3 (h : Header) : (headerMsg h).v3 = Msg.empty.v3 := rfl
@[simp] theorem headerMsg_data (h : Header) : (headerMsg h).data = Msg.empty.data := rfl
@[simp] theorem headerMsg_dlen (h : Header) : (headerMsg h).dlen = Msg.empty.dlen := rfl

@[simp] theorem adpMsg_h (h : Header) (b : Discovery) : (adpMsg h b).h = .of h := rfl
@[simp] theorem adpMsg_adp (h : Header) (b : Discovery) : (adpMsg h b).adp = .of b := rfl
@[simp] theorem adpMsg_acmp (h : Header) (b : Discovery) : (adpMsg h b).acmp = Msg.empty.acmp := rfl
@[simp] theorem adpMsg_aecp (h : Header) (b : Discovery) : (adpMsg h b).aecp = Msg.empty.aecp := rfl
@[simp] theorem adpMsg_v0 (h : Header) (b : Discovery) : (adpMsg h b).v0 = Msg.empty.v0 := rfl
@[simp] theorem adpMsg_v1 (h : Header) (b : Discovery) : (adpMsg h b).v1 = Msg.empty.v1 := rfl
@[simp] theorem adpMsg_v2 (h : Header) (b : Discovery) : (adpMsg h b).v2 = Msg.empty.v2 := rfl
@[simp] theorem adpMsg_v3 (h : Header) (b : Discovery) : (adpMsg h b).v3 = Msg.empty.v3 := rfl
@[simp] theorem adpMsg_data (h : Header) (b : Discovery) : (adpMsg h b).data = Msg.empty.data := rfl
@[simp] theorem adpMsg_dlen (h : Header) (b : Discovery) : (adpMsg h b).dlen = Msg.empty.dlen := rfl

@[simp] theorem acmpMsg_h (h : Header) (b : Connection) : (acmpMsg h b).h = .of h := rfl
@[simp] theorem acmpMsg_adp (h : Header) (b : Connection) : (acmpMsg h b).adp = Msg.empty.adp := rfl
@[simp] theorem acmpMsg_acmp (h : Header) (b : Connection) : (acmpMsg h b).acmp = .of b := rfl
@[simp] theorem acmpMsg_aecp (h : Header) (b : Connection) : (acmpMsg h b).aecp = Msg.empty.aecp := rfl
@[simp] theorem acmpMsg_v0 (h : Header) (b : Connection) : (acmpMsg h b).v0 = Msg.empty.v0 := rfl
@[simp] theorem acmpMsg_v1 (h : Header) (b : Connection) : (acmpMsg h b).v1 = Msg.empty.v1 := rfl
@[simp] theorem acmpMsg_v2 (h : Header) (b : Connection) : (acmpMsg h b).v2 = Msg.empty.v2 := rfl
@[simp] theorem acmpMsg_v3 (h : Header) (b : Connection) : (acmpMsg h b).v3 = Msg.empty.v3 := rfl
@[simp] theorem acmpMsg_data (h : Header) (b : Connection) : (acmpMsg h b).data = Msg.empty.data := rfl
@[simp] theorem acmpMsg_dlen (h : Header) (b : Connection) : (acmpMsg h b).dlen = Msg.empty.dlen := rfl

/-- The groups that every AECP decode fills, whatever the variant. -/
theorem aecpMsg_common (h : Header) (c : AecpCommon) (p : Payload) (bs : List Byte) :
    (aecpMsg h c p bs).h = .of h ∧ (aecpMsg h c p bs).aecp = .of c ∧ (aecpMsg h c p bs).adp = .empty ∧
      (aecpMsg h c p bs).acmp = .empty ∧ (aecpMsg h c p bs).data = Memory.ofOctets bs ∧
      (aecpMsg h c p bs).dlen = some (BitVec.ofNat 10 bs.length) := by
  cases p <;> exact ⟨rfl, rfl, rfl, rfl, rfl, rfl⟩

end Sys2Proof.Machine
end

