-- ==== Sys2Proof/Laws/Operations.lean ====
section
/-!
SUPPORT. For each shared operation one lemma that says once everything it can do when it answers a next state; the
meanings and the statements about them cite these instead of unfolding.
-/

namespace Sys2Proof.Machine

/-! ## Going on with what was read -/

theorem withCells_eq_next {α : Type} (x : Option α) (k : α → Result) (t : State) :
    withCells x k = .next t ↔ ∃ a, x = some a ∧ k a = .next t := by
  cases x <;> simp [withCells]

theorem withRegs_eq_next {α : Type} (x : Option α) (k : α → Result) (t : State) :
    withRegs x k = .next t ↔ ∃ a, x = some a ∧ k a = .next t := by
  cases x <;> simp [withRegs]

@[simp] theorem withCells_some {α : Type} (a : α) (k : α → Result) : withCells (some a) k = k a := rfl

@[simp] theorem withRegs_some {α : Type} (a : α) (k : α → Result) : withRegs (some a) k = k a := rfl

/-! ## Bit ranges and buffer accesses -/

/-- RDBITS answers a next state exactly for a range, and the same one from every state but for what it keeps. -/
theorem execRdbits_next {a : BitVec 8} {lo hi : BitVec 3} {s t : State} (h : execRdbits a lo hi s = .next t) :
    rangeOk lo hi = true ∧ t = s.succeed (some (BitVec.ofNat 64 (extractBits a lo hi))) := by
  unfold execRdbits at h
  split at h
  · exact ⟨‹_›, by simpa using h.symm⟩
  · cases h

theorem execWrbits_next {a : BitVec 8} {lo hi : BitVec 3} {val : BitVec 64} {s t : State}
    (h : execWrbits a lo hi val s = .next t) :
    rangeOk lo hi = true ∧
      ((fits val (rangeWidth lo hi) = true ∧ t = s.succeed (some ((insertBits a lo hi val).setWidth 64))) ∨
       (fits val (rangeWidth lo hi) = false ∧
          t = s.raise .primitive (.valueOutOfRange (BitVec.ofNat 16 (rangeWidth lo hi))))) := by
  unfold execWrbits at h
  split at h
  · refine ⟨‹_›, ?_⟩
    split at h
    · exact .inl ⟨‹_›, by simpa using h.symm⟩
    · exact .inr ⟨Bool.eq_false_iff.2 ‹_›, by simpa using h.symm⟩
  · cases h

theorem loadBe_next {n : Nat} {off : BitVec 10} {s t : State} {k : Nat → BitVec 64} (h : loadBe n off s k = .next t) :
    (off.toNat + n ≤ s.len.toNat ∧ ∃ v, s.buf.memRead off.toNat n = some v ∧ t = s.succeed (some (k v))) ∨
    (s.len.toNat < off.toNat + n ∧ t = s.raise .primitive (.truncatedPacket s.len)) := by
  unfold loadBe at h
  split at h
  · rename_i hb
    obtain ⟨v, hv, ht⟩ := (withCells_eq_next _ _ _).1 h
    exact .inl ⟨by simpa [inBounds] using hb, v, hv, by simpa using ht.symm⟩
  · rename_i hb
    exact .inr ⟨by simpa [inBounds] using hb, by simpa using h.symm⟩

theorem storeBe_next {n : Nat} {off : BitVec 10} {val : BitVec 64} {s t : State} (h : storeBe n off val s = .next t) :
    (off.toNat + n ≤ s.len.toNat ∧ val.toNat < 2 ^ (8 * n) ∧
        t = { s.succeed none with buf := s.buf.memWrite off.toNat n val.toNat }) ∨
    (off.toNat + n ≤ s.len.toNat ∧ 2 ^ (8 * n) ≤ val.toNat ∧
        t = s.raise .primitive (.valueOutOfRange (BitVec.ofNat 16 (8 * n)))) ∨
    (s.len.toNat < off.toNat + n ∧ t = s.raise .primitive (.truncatedPacket s.len)) := by
  unfold storeBe at h
  split at h
  · rename_i hb
    have hb : off.toNat + n ≤ s.len.toNat := by simpa [inBounds] using hb
    split at h
    · rename_i hf
      exact .inl ⟨hb, by simpa [fits] using hf, by simpa using h.symm⟩
    · rename_i hf
      exact .inr (.inl ⟨hb, by simpa [fits] using hf, by simpa using h.symm⟩)
  · rename_i hb
    exact .inr (.inr ⟨by simpa [inBounds] using hb, by simpa using h.symm⟩)

/-! ## Message decodes and encodes -/

theorem decodeHeader_next {s t : State} (h : decodeHeader s = .next t) :
    (s.len.toNat < hdrLen ∧ t = s.raise .decode (.truncatedPacket s.len)) ∨
    (hdrLen ≤ s.len.toNat ∧ ∃ x, readHeader s.buf = some x ∧ t = s.finishDecode (headerMsg x)) := by
  unfold decodeHeader at h
  split at h
  · exact .inl ⟨‹_›, by simpa [failDecode] using h.symm⟩
  · obtain ⟨x, hx, ht⟩ := (withCells_eq_next _ _ _).1 h
    exact .inr ⟨Nat.le_of_not_lt ‹_›, x, hx, by simpa using ht.symm⟩

theorem encodeHeader_next {s t : State} (h : encodeHeader s = .next t) :
    ∃ x, s.msg.h.value = some x ∧ t = s.finishEncode (writeHeader [] x) hdrLen := by
  obtain ⟨x, hx, ht⟩ := (withRegs_eq_next _ _ _).1 h
  exact ⟨x, hx, by simpa using ht.symm⟩

theorem decodeAdp_next {hd : Option Header} {s t : State} (h : decodeAdp hd s = .next t) :
    (s.len.toNat < adpLen ∧ t = s.raise .decode (.truncatedPacket s.len)) ∨
    (adpLen ≤ s.len.toNat ∧ ∃ x b, hd = some x ∧ readDiscovery s.buf = some b ∧ t = s.finishDecode (adpMsg x b)) := by
  unfold decodeAdp at h
  split at h
  · exact .inl ⟨‹_›, by simpa [failDecode] using h.symm⟩
  · obtain ⟨x, hx, h⟩ := (withCells_eq_next _ _ _).1 h
    obtain ⟨b, hb, h⟩ := (withCells_eq_next _ _ _).1 h
    exact .inr ⟨Nat.le_of_not_lt ‹_›, x, b, hx, hb, by simpa using h.symm⟩

theorem encodeAdp_next {s t : State} (h : encodeAdp s = .next t) :
    ∃ x b, s.msg.h.value = some x ∧ s.msg.adp.value = some b ∧
      t = s.finishEncode (writeDiscovery (writeHeader [] x) b) adpLen := by
  obtain ⟨x, hx, h⟩ := (withRegs_eq_next _ _ _).1 h
  obtain ⟨b, hb, h⟩ := (withRegs_eq_next _ _ _).1 h
  exact ⟨x, b, hx, hb, by simpa using h.symm⟩

/-- The ACMP domain checks: no error exactly for a defined message type and a defined status; else the first offender. -/
theorem acmpCheck_eq (h : Header) :
    (acmpCheck h = none ∧ acmpMsgtypeDefined h.messageType = true ∧ acmpStatusDefined h.validTime = true) ∨
    (acmpCheck h = some (.unknownMessageType h.messageType) ∧ acmpMsgtypeDefined h.messageType = false) ∨
    (acmpCheck h = some (.unknownStatus h.validTime) ∧ acmpMsgtypeDefined h.messageType = true ∧
      acmpStatusDefined h.validTime = false) := by
  unfold acmpCheck
  cases acmpMsgtypeDefined h.messageType <;> cases acmpStatusDefined h.validTime <;> simp

theorem decodeAcmp_next {hd : Option Header} {s t : State} (h : decodeAcmp hd s = .next t) :
    (s.len.toNat < acmpLen ∧ t = s.raise .decode (.truncatedPacket s.len)) ∨
    (acmpLen ≤ s.len.toNat ∧ ∃ x, hd = some x ∧
      ((∃ e, acmpCheck x = some e ∧ t = s.raise .decode e) ∨
       (acmpCheck x = none ∧ ∃ b, readConnection s.buf = some b ∧ t = s.finishDecode (acmpMsg x b)))) := by
  unfold decodeAcmp at h
  split at h
  · exact .inl ⟨‹_›, by simpa [failDecode] using h.symm⟩
  · obtain ⟨x, hx, h⟩ := (withCells_eq_next _ _ _).1 h
    refine .inr ⟨Nat.le_of_not_lt ‹_›, x, hx, ?_⟩
    split at h
    · exact .inl ⟨_, ‹_›, by simpa [failDecode] using h.symm⟩
    · obtain ⟨b, hb, h⟩ := (withCells_eq_next _ _ _).1 h
      exact .inr ⟨‹_›, b, hb, by simpa using h.symm⟩

theorem encodeAcmp_next {s t : State} (h : encodeAcmp s = .next t) :
    ∃ x b, s.msg.h.value = some x ∧ s.msg.acmp.value = some b ∧
      ((∃ e, acmpCheck x = some e ∧ t = s.raise .encode e) ∨
       (acmpCheck x = none ∧ t = s.finishEncode (writeConnection (writeHeader [] x) b) acmpLen)) := by
  obtain ⟨x, hx, h⟩ := (withRegs_eq_next _ _ _).1 h
  obtain ⟨b, hb, h⟩ := (withRegs_eq_next _ _ _).1 h
  refine ⟨x, b, hx, hb, ?_⟩
  split at h
  · exact .inl ⟨_, ‹_›, by simpa [failEncode] using h.symm⟩
  · exact .inr ⟨‹_›, by simpa using h.symm⟩

theorem decodeAecpPayload_next {x : Header} {c : AecpCommon} {v : Variant} {s t : State}
    (h : decodeAecpPayload x c v s = .next t) :
    (s.len.toNat < aecpPrefixLen + v.fixed ∧ t = s.raise .decode (.truncatedPacket s.len)) ∨
    (aecpPrefixLen + v.fixed ≤ s.len.toNat ∧ ∃ p bs, readPayload s.buf v = some p ∧
      s.buf.readOctets (aecpPrefixLen + v.fixed) (s.len.toNat - (aecpPrefixLen + v.fixed)) = some bs ∧
      t = s.finishDecode (aecpMsg x c p bs)) := by
  unfold decodeAecpPayload at h
  simp only at h
  split at h
  · exact .inl ⟨‹_›, by simpa [failDecode] using h.symm⟩
  · obtain ⟨p, hp, h⟩ := (withCells_eq_next _ _ _).1 h
    obtain ⟨bs, hbs, h⟩ := (withCells_eq_next _ _ _).1 h
    exact .inr ⟨Nat.le_of_not_lt ‹_›, p, bs, hp, hbs, by simpa using h.symm⟩

theorem decodeAecp_next {hd : Option Header} {s t : State} (h : decodeAecp hd s = .next t) :
    (s.len.toNat < aecpPrefixLen ∧ t = s.raise .decode (.truncatedPacket s.len)) ∨
    (aecpPrefixLen ≤ s.len.toNat ∧ ∃ x c, hd = some x ∧ readAecpCommon s.buf = some c ∧
      ((variantOf x.messageType = .unsupported ∧ t = s.raise .decode (.unsupportedVariant x.messageType)) ∨
       (variantOf x.messageType = .unknown ∧ t = s.raise .decode (.unknownMessageType x.messageType)) ∨
       (∃ v, variantOf x.messageType = .variant v ∧ decodeAecpPayload x c v s = .next t))) := by
  unfold decodeAecp at h
  split at h
  · exact .inl ⟨‹_›, by simpa [failDecode] using h.symm⟩
  · obtain ⟨x, hx, h⟩ := (withCells_eq_next _ _ _).1 h
    obtain ⟨c, hc, h⟩ := (withCells_eq_next _ _ _).1 h
    refine .inr ⟨Nat.le_of_not_lt ‹_›, x, c, hx, hc, ?_⟩
    split at h
    · exact .inl ⟨‹_›, by simpa [failDecode] using h.symm⟩
    · exact .inr (.inl ⟨‹_›, by simpa [failDecode] using h.symm⟩)
    · exact .inr (.inr ⟨_, ‹_›, h⟩)

theorem encodeAecpPayload_next {x : Header} {c : AecpCommon} {v : Variant} {s t : State}
    (h : encodeAecpPayload x c v s = .next t) :
    ∃ p d, s.msg.payload v = some p ∧ s.msg.dlen = some d ∧
      ((v.dataMax < d.toNat ∧ t = s.raise .encode (.valueOutOfRange (d.setWidth 16))) ∨
       (d.toNat ≤ v.dataMax ∧ ∃ bs, s.msg.data.readOctets 0 d.toNat = some bs ∧
          t = s.finishEncode ((writePayload (writeAecpCommon (writeHeader [] x) c) p).writeOctets
            (aecpPrefixLen + v.fixed) bs) (aecpPrefixLen + v.fixed + d.toNat))) := by
  unfold encodeAecpPayload at h
  obtain ⟨p, hp, h⟩ := (withRegs_eq_next _ _ _).1 h
  obtain ⟨d, hd, h⟩ := (withRegs_eq_next _ _ _).1 h
  refine ⟨p, d, hp, hd, ?_⟩
  split at h
  · exact .inl ⟨‹_›, by simpa [failEncode] using h.symm⟩
  · obtain ⟨bs, hbs, h⟩ := (withRegs_eq_next _ _ _).1 h
    exact .inr ⟨Nat.le_of_not_lt ‹_›, bs, hbs, by simpa using h.symm⟩

theorem encodeAecp_next {s t : State} (h : encodeAecp s = .next t) :
    ∃ x c, s.msg.h.value = some x ∧ s.msg.aecp.value = some c ∧
      ((variantOf x.messageType = .unsupported ∧ t = s.raise .encode (.unsupportedVariant x.messageType)) ∨
       (variantOf x.messageType = .unknown ∧ t = s.raise .encode (.unknownMessageType x.messageType)) ∨
       (∃ v, variantOf x.messageType = .variant v ∧ encodeAecpPayload x c v s = .next t)) := by
  obtain ⟨x, hx, h⟩ := (withRegs_eq_next _ _ _).1 h
  obtain ⟨c, hc, h⟩ := (withRegs_eq_next _ _ _).1 h
  refine ⟨x, c, hx, hc, ?_⟩
  split at h
  · exact .inl ⟨‹_›, by simpa [failEncode] using h.symm⟩
  · exact .inr (.inl ⟨‹_›, by simpa [failEncode] using h.symm⟩)
  · exact .inr (.inr ⟨_, ‹_›, h⟩)

theorem decodeMessage_next {s t : State} (h : decodeMessage s = .next t) :
    (s.len.toNat < hdrLen ∧ t = s.raise .decode (.truncatedPacket s.len)) ∨
    (hdrLen ≤ s.len.toNat ∧ ∃ b, s.buf.get 0 = some b ∧
      ((b.extractLsb' 0 7 = subtypeAdp ∧ decodeAdp (readHeader s.buf) s = .next t) ∨
       (b.extractLsb' 0 7 = subtypeAecp ∧ decodeAecp (readHeader s.buf) s = .next t) ∨
       (b.extractLsb' 0 7 = subtypeAcmp ∧ decodeAcmp (readHeader s.buf) s = .next t) ∨
       (b.extractLsb' 0 7 ≠ subtypeAdp ∧ b.extractLsb' 0 7 ≠ subtypeAecp ∧ b.extractLsb' 0 7 ≠ subtypeAcmp ∧
          t = s.raise .decode (.unknownSubtype (b.extractLsb' 0 7))))) := by
  unfold decodeMessage at h
  split at h
  · exact .inl ⟨‹_›, by simpa [failDecode] using h.symm⟩
  · obtain ⟨b, hb, h⟩ := (withCells_eq_next _ _ _).1 h
    refine .inr ⟨Nat.le_of_not_lt ‹_›, b, hb, ?_⟩
    simp only at h
    split at h
    · exact .inl ⟨‹_›, h⟩
    · split at h
      · exact .inr (.inl ⟨‹_›, h⟩)
      · split at h
        · exact .inr (.inr (.inl ⟨‹_›, h⟩))
        · exact .inr (.inr (.inr ⟨‹_›, ‹_›, ‹_›, by simpa [failDecode] using h.symm⟩))

/-! ## Host actions -/

theorem hostStep_next {a : HostAction} {s t : State} (h : hostStep a s = .next t) :
    match a with
    | .reset => t = { State.reset with inputs := s.inputs }
    | .loadBuffer bs =>
      bs.length ≤ Config.bufCap ∧ t = { s with buf := Memory.ofOctets bs, len := BitVec.ofNat 10 bs.length }
    | .storeOctet off b => off.toNat < s.len.toNat ∧ t = { s with buf := s.buf.put off.toNat b }
    | .setReg r v => t = { s with msg := s.msg.set r v }
    | .setData bs => bs.length ≤ Config.dataCap ∧ t = { s with msg := s.msg.withData bs }
    | .read what => (∃ v, hostValue s what = some v) ∧ t = s := by
  cases a with
  | reset => simpa [hostStep, applyReset] using h.symm
  | loadBuffer bs =>
    simp only [hostStep, loadBuffer] at h
    split at h
    · exact ⟨‹_›, by simpa using h.symm⟩
    · cases h
  | storeOctet off b =>
    simp only [hostStep, storeOctet] at h
    split at h
    · exact ⟨‹_›, by simpa using h.symm⟩
    · cases h
  | setReg r v => simpa [hostStep, setRegister] using h.symm
  | setData bs =>
    simp only [hostStep, setData] at h
    split at h
    · exact ⟨‹_›, by simpa using h.symm⟩
    · cases h
  | read what =>
    simp only [hostStep, hostRead] at h
    split at h
    · exact ⟨⟨_, ‹_›⟩, by simpa using h.symm⟩
    · cases h

/-- A step that answers a next state: nothing pending and nothing changed, or the first input was taken. -/
theorem step_next {s t : State} (h : step s = .next t) :
    (s.inputs = [] ∧ t = s) ∨
    (∃ i rest, s.inputs = i :: rest ∧
      ((∃ instr, fetch i { s with inputs := rest } = .run instr ∧ exec instr { s with inputs := rest } = .next t) ∨
       fetch i { s with inputs := rest } = .done (.next t))) := by
  unfold step at h
  split at h
  · exact .inl ⟨‹_›, by simpa using h.symm⟩
  · rename_i i rest hi
    refine .inr ⟨i, rest, hi, ?_⟩
    split at h
    · exact .inl ⟨_, ‹_›, h⟩
    · rename_i o ho
      exact .inr (by rw [ho, h])

end Sys2Proof.Machine
end

