-- ==== Sys2Proof/Laws/Fields.lean ====
section
/-!
SUPPORT. The reads and writes of Machine/Fields.lean against the layout relations of Machine/Layout.lean: a read answers
a value exactly where it stands, a write makes it stand, and the extents and cells that writes leave.
-/

namespace Sys2Proof.Machine

/-! ## Integers -/

theorem getElem?_beOctets (n v k : Nat) (h : k < n) :
    (beOctets n v)[k]? = some (BitVec.ofNat 8 (v / 256 ^ (n - 1 - k))) := by
  induction n generalizing k with
  | zero => omega
  | succ n ih =>
    cases k with
    | zero => simp [beOctets]
    | succ k =>
      rw [beOctets, List.getElem?_cons_succ, ih k (by omega)]
      congr 4
      omega

theorem octets_eq_beOctets (bs : List Byte) (n v : Nat) (hl : bs.length = n)
    (h : ∀ k, k < n → bs[k]? = some (BitVec.ofNat 8 (v / 256 ^ (n - 1 - k)))) : bs = beOctets n v := by
  apply List.ext_getElem?
  intro k
  by_cases hk : k < n
  · rw [h k hk, getElem?_beOctets n v k hk]
  · rw [List.getElem?_eq_none (by omega), List.getElem?_eq_none (by simp; omega)]

/-- `MemRead` answers exactly the integer that stands there. -/
theorem Memory.memRead_eq_some (m : Memory) (off n v : Nat) :
    m.memRead off n = some v ↔ FieldAt m off n v ∧ v < 256 ^ n := by
  rw [Memory.memRead, Option.map_eq_some_iff]
  constructor
  · rintro ⟨bs, hbs, rfl⟩
    obtain ⟨hl, hg⟩ := (Memory.readOctets_eq_some _ _ _ _).1 hbs
    have hlt := beValue_lt bs
    rw [hl] at hlt
    refine ⟨fun k hk => ?_, hlt⟩
    rw [hg k hk, ← getElem?_beOctets n _ k hk]
    conv_lhs => rw [← beOctets_beValue bs, hl]
  · rintro ⟨h, hlt⟩
    refine ⟨beOctets n v, ?_, by rw [beValue_beOctets, Nat.mod_eq_of_lt hlt]⟩
    rw [Memory.readOctets_eq_some]
    exact ⟨length_beOctets _ _, fun k hk => by rw [h k hk, getElem?_beOctets n v k hk]⟩

theorem pow_octets (w : Nat) (hw : 8 * (w / 8) = w) : 256 ^ (w / 8) = 2 ^ w := by
  rw [show (256 : Nat) = 2 ^ 8 by norm_num, ← Nat.pow_mul, hw]

/-- A field read answers exactly the value that stands there. -/
theorem Memory.field_eq_some (m : Memory) (off : Nat) {w : Nat} (v : BitVec w) (hw : 8 * (w / 8) = w) :
    m.field off w = some v ↔ FieldAt m off (w / 8) v.toNat := by
  rw [Memory.field, Option.map_eq_some_iff]
  constructor
  · rintro ⟨x, hx, rfl⟩
    obtain ⟨h, hlt⟩ := (Memory.memRead_eq_some _ _ _ _).1 hx
    rw [pow_octets w hw] at hlt
    rwa [BitVec.toNat_ofNat, Nat.mod_eq_of_lt hlt]
  · intro h
    refine ⟨v.toNat, (Memory.memRead_eq_some _ _ _ _).2 ⟨h, ?_⟩, by simp⟩
    rw [pow_octets w hw]
    exact v.isLt

theorem FieldAt.congr {m n : Memory} {off k v : Nat} (h : FieldAt m off k v)
    (hg : ∀ i, off ≤ i → i < off + k → n.get i = m.get i) : FieldAt n off k v := fun j hj => by
  rw [hg _ (by omega) (by omega), h j hj]

/-- After `MemWrite` the integer stands there. -/
theorem Memory.fieldAt_memWrite (m : Memory) (off n v : Nat) : FieldAt (m.memWrite off n v) off n v := by
  intro k hk
  rw [Memory.memWrite, Memory.get_writeOctets, if_pos (by simpa using hk), ← getElem?_beOctets n v k hk]
  simp

theorem Memory.get_memWrite_outside (m : Memory) (off n v i : Nat) (h : i < off ∨ off + n ≤ i) :
    (m.memWrite off n v).get i = m.get i := by
  rw [Memory.memWrite, Memory.get_writeOctets_outside]
  simpa using h

theorem Memory.fieldAt_setField_same (m : Memory) (off : Nat) {w : Nat} (v : BitVec w) :
    FieldAt (m.setField off v) off (w / 8) v.toNat :=
  Memory.fieldAt_memWrite _ _ _ _

theorem Memory.fieldAt_setField_disjoint (m : Memory) (off o n x : Nat) {w : Nat} (v : BitVec w)
    (h : o + n ≤ off ∨ off + w / 8 ≤ o) : FieldAt (m.setField off v) o n x ↔ FieldAt m o n x := by
  constructor <;> intro hf <;> refine hf.congr fun i h1 h2 => ?_
  · rw [Memory.get_setField_outside]; omega
  · rw [Memory.get_setField_outside]; omega

/-! ## The header -/

theorem unpackHeader_eq_iff (b0 b1 b2 b3 : Byte) (h : Header) :
    unpackHeader b0 b1 b2 b3 = h ↔
      b0 = BitVec.ofNat 8 (h.cd.toNat * 128 + h.subtype.toNat) ∧
      b1 = BitVec.ofNat 8 (h.sv.toNat * 128 + h.version.toNat * 16 + h.messageType.toNat) ∧
      b2 = BitVec.ofNat 8 (h.validTime.toNat * 8 + h.dataLength.toNat / 256) ∧
      b3 = BitVec.ofNat 8 (h.dataLength.toNat % 256) := by
  obtain ⟨cd, st, sv, ver, ty, vt, dl⟩ := h
  have h0 := b0.isLt
  have h1 := b1.isLt
  have h2 := b2.isLt
  have h3 := b3.isLt
  have e0 := cd.isLt
  have e1 := st.isLt
  have e2 := sv.isLt
  have e3 := ver.isLt
  have e4 := ty.isLt
  have e5 := vt.isLt
  have e6 := dl.isLt
  simp only [unpackHeader, Header.mk.injEq, ← BitVec.toNat_inj, BitVec.extractLsb'_toNat, BitVec.toNat_append,
    BitVec.toNat_ofNat, Nat.shiftRight_eq_div_pow]
  rw [← Nat.shiftLeft_add_eq_or_of_lt h3, Nat.shiftLeft_eq]
  constructor
  · rintro ⟨q0, q1, q2, q3, q4, q5, q6⟩
    refine ⟨?_, ?_, ?_, ?_⟩ <;> omega
  · rintro ⟨q0, q1, q2, q3⟩
    refine ⟨?_, ?_, ?_, ?_, ?_, ?_, ?_⟩ <;> omega

/-- The header is read exactly where it stands. -/
theorem readHeader_eq_some (m : Memory) (h : Header) : readHeader m = some h ↔ HeaderAt m h := by
  simp only [readHeader, HeaderAt, Option.bind_eq_bind, Option.bind_eq_some_iff, Option.pure_def, Option.some.injEq]
  constructor
  · rintro ⟨b0, h0, b1, h1, b2, h2, b3, h3, e⟩
    obtain ⟨e0, e1, e2, e3⟩ := (unpackHeader_eq_iff _ _ _ _ _).1 e
    exact ⟨by rw [h0, e0], by rw [h1, e1], by rw [h2, e2], by rw [h3, e3]⟩
  · rintro ⟨h0, h1, h2, h3⟩
    exact ⟨_, h0, _, h1, _, h2, _, h3, (unpackHeader_eq_iff _ _ _ _ _).2 ⟨rfl, rfl, rfl, rfl⟩⟩

/-- A frame row reads the header of a frame whose first two octets are the row's word. -/
theorem frameHeader_eq_some (m : Memory) (h : Header) (hh : HeaderAt m h) :
    frameHeader (frameWord h.subtype h.bits h.messageType) m = some h := by
  obtain ⟨h0, h1, h2, h3⟩ := hh
  simp only [frameHeader, h2, h3, Option.bind_eq_bind, Option.bind_some, Option.pure_def, Option.some.injEq]
  refine (unpackHeader_eq_iff _ _ _ _ _).2 ⟨?_, ?_, rfl, rfl⟩
  · obtain ⟨cd, st, sv, ver, ty, vt, dl⟩ := h
    have e0 := cd.isLt
    have e1 := st.isLt
    have e2 := sv.isLt
    have e3 := ver.isLt
    have e4 := ty.isLt
    apply BitVec.eq_of_toNat_eq
    simp only [frameWord, Header.bits, BitVec.extractLsb'_toNat, BitVec.toNat_append, BitVec.toNat_ofNat,
      Nat.shiftRight_eq_div_pow]
    rw [← Nat.shiftLeft_add_eq_or_of_lt e1, ← Nat.shiftLeft_add_eq_or_of_lt e2, ← Nat.shiftLeft_add_eq_or_of_lt e3,
      ← Nat.shiftLeft_add_eq_or_of_lt e4]
    simp only [Nat.shiftLeft_eq]
    omega
  · obtain ⟨cd, st, sv, ver, ty, vt, dl⟩ := h
    have e0 := cd.isLt
    have e1 := st.isLt
    have e2 := sv.isLt
    have e3 := ver.isLt
    have e4 := ty.isLt
    apply BitVec.eq_of_toNat_eq
    simp only [frameWord, Header.bits, BitVec.extractLsb'_toNat, BitVec.toNat_append, BitVec.toNat_ofNat,
      Nat.shiftRight_eq_div_pow]
    rw [← Nat.shiftLeft_add_eq_or_of_lt e1, ← Nat.shiftLeft_add_eq_or_of_lt e2, ← Nat.shiftLeft_add_eq_or_of_lt e3,
      ← Nat.shiftLeft_add_eq_or_of_lt e4]
    simp only [Nat.shiftLeft_eq]
    omega

/-- The four octets of a header as R90 places them. -/
theorem packHeader_eq (h : Header) :
    packHeader h =
      [BitVec.ofNat 8 (h.cd.toNat * 128 + h.subtype.toNat),
       BitVec.ofNat 8 (h.sv.toNat * 128 + h.version.toNat * 16 + h.messageType.toNat),
       BitVec.ofNat 8 (h.validTime.toNat * 8 + h.dataLength.toNat / 256),
       BitVec.ofNat 8 (h.dataLength.toNat % 256)] := by
  obtain ⟨cd, st, sv, ver, ty, vt, dl⟩ := h
  have e1 := st.isLt
  have e3 := ver.isLt
  have e4 := ty.isLt
  have e6 := dl.isLt
  have e7 : dl.toNat >>> 8 % 2 ^ 3 < 2 ^ 3 := Nat.mod_lt _ (by norm_num)
  simp only [packHeader, List.cons.injEq, and_true, ← BitVec.toNat_inj, BitVec.extractLsb'_toNat, BitVec.toNat_append,
    BitVec.toNat_ofNat]
  rw [← Nat.shiftLeft_add_eq_or_of_lt e1, ← Nat.shiftLeft_add_eq_or_of_lt e3, ← Nat.shiftLeft_add_eq_or_of_lt e4,
    ← Nat.shiftLeft_add_eq_or_of_lt e7]
  simp only [Nat.shiftLeft_eq, Nat.shiftRight_eq_div_pow]
  refine ⟨?_, ?_, ?_, ?_⟩ <;> omega

@[simp] theorem length_packHeader (h : Header) : (packHeader h).length = 4 := rfl

/-- After the header is written it stands in octets 0 to 3. -/
theorem headerAt_writeHeader (m : Memory) (h : Header) : HeaderAt (writeHeader m h) h := by
  simp only [HeaderAt, writeHeader, Memory.get_writeOctets, packHeader_eq]
  exact ⟨rfl, rfl, rfl, rfl⟩

theorem HeaderAt.congr {m n : Memory} {h : Header} (hh : HeaderAt m h) (hg : ∀ i, i < 4 → n.get i = m.get i) :
    HeaderAt n h := by
  obtain ⟨h0, h1, h2, h3⟩ := hh
  exact ⟨by rw [hg 0 (by omega), h0], by rw [hg 1 (by omega), h1], by rw [hg 2 (by omega), h2],
    by rw [hg 3 (by omega), h3]⟩

theorem get_writeHeader_outside (m : Memory) (h : Header) (i : Nat) (hi : 4 ≤ i) :
    (writeHeader m h).get i = m.get i := by
  rw [writeHeader, Memory.get_writeOctets_outside]
  right
  simpa using hi

theorem holdsExactly_writeHeader (h : Header) : (writeHeader [] h).holdsExactly 4 :=
  Memory.holdsExactly_writeOctets [] 0 (packHeader h) Memory.holdsExactly_nil

/-- Four cells that hold octets hold a header. -/
theorem exists_headerAt (m : Memory) (len : Nat) (hm : m.holdsExactly len) (hl : 4 ≤ len) : ∃ h, HeaderAt m h := by
  have hs : ∀ i, i < 4 → ∃ b, m.get i = some b := fun i hi =>
    Option.isSome_iff_exists.1 ((m.isSome_get_of_holdsExactly len i hm).2 (by omega))
  obtain ⟨b0, h0⟩ := hs 0 (by omega)
  obtain ⟨b1, h1⟩ := hs 1 (by omega)
  obtain ⟨b2, h2⟩ := hs 2 (by omega)
  obtain ⟨b3, h3⟩ := hs 3 (by omega)
  refine ⟨unpackHeader b0 b1 b2 b3, (readHeader_eq_some _ _).1 ?_⟩
  simp [readHeader, h0, h1, h2, h3]

/-! ## The message bodies

Six lemmas for each part of a frame: what a read answers, what a write leaves alone, the extent it leaves, that the
value stands there after a write, that the relation depends on the part's own cells only, and that cells which hold octets
hold a value. -/

theorem readDiscovery_eq_some (m : Memory) (b : Discovery) :
    readDiscovery m = some b ↔ DiscoveryAt m b := by
  constructor
  · intro h
    obtain ⟨_, h0, h⟩ := Option.bind_eq_some_iff.1 h
    obtain ⟨_, h1, h⟩ := Option.bind_eq_some_iff.1 h
    obtain ⟨_, h2, h⟩ := Option.bind_eq_some_iff.1 h
    obtain ⟨_, h3, h⟩ := Option.bind_eq_some_iff.1 h
    obtain ⟨_, h4, h⟩ := Option.bind_eq_some_iff.1 h
    obtain ⟨_, h5, h⟩ := Option.bind_eq_some_iff.1 h
    obtain ⟨_, h6, h⟩ := Option.bind_eq_some_iff.1 h
    obtain ⟨_, h7, h⟩ := Option.bind_eq_some_iff.1 h
    obtain ⟨_, h8, h⟩ := Option.bind_eq_some_iff.1 h
    obtain ⟨_, h9, h⟩ := Option.bind_eq_some_iff.1 h
    obtain ⟨_, h10, h⟩ := Option.bind_eq_some_iff.1 h
    obtain ⟨_, h11, h⟩ := Option.bind_eq_some_iff.1 h
    obtain ⟨_, h12, h⟩ := Option.bind_eq_some_iff.1 h
    obtain ⟨_, h13, h⟩ := Option.bind_eq_some_iff.1 h
    obtain ⟨_, h14, h⟩ := Option.bind_eq_some_iff.1 h
    cases h
    exact ⟨(m.field_eq_some 4 _ rfl).1 h0, (m.field_eq_some 12 _ rfl).1 h1, (m.field_eq_some 16 _ rfl).1 h2,
      (m.field_eq_some 20 _ rfl).1 h3, (m.field_eq_some 24 _ rfl).1 h4, (m.field_eq_some 26 _ rfl).1 h5,
      (m.field_eq_some 28 _ rfl).1 h6, (m.field_eq_some 30 _ rfl).1 h7, (m.field_eq_some 32 _ rfl).1 h8,
      (m.field_eq_some 36 _ rfl).1 h9, (m.field_eq_some 40 _ rfl).1 h10, (m.field_eq_some 48 _ rfl).1 h11,
      (m.field_eq_some 52 _ rfl).1 h12, (m.field_eq_some 56 _ rfl).1 h13, (m.field_eq_some 64 _ rfl).1 h14⟩
  · rintro ⟨h0, h1, h2, h3, h4, h5, h6, h7, h8, h9, h10, h11, h12, h13, h14⟩
    simp only [readDiscovery, (m.field_eq_some 4 b.entityId rfl).2 h0, (m.field_eq_some 12 b.vendorId rfl).2 h1,
      (m.field_eq_some 16 b.modelId rfl).2 h2, (m.field_eq_some 20 b.entityCapabilities rfl).2 h3, (m.field_eq_some 24
      b.talkerStreamSources rfl).2 h4, (m.field_eq_some 26 b.talkerCapabilities rfl).2 h5, (m.field_eq_some 28
      b.listenerStreamSinks rfl).2 h6, (m.field_eq_some 30 b.listenerCapabilities rfl).2 h7, (m.field_eq_some 32
      b.controllerCapabilities rfl).2 h8, (m.field_eq_some 36 b.availableIndex rfl).2 h9, (m.field_eq_some 40 b.gmId
      rfl).2 h10, (m.field_eq_some 48 b.defaultAudioFormat rfl).2 h11, (m.field_eq_some 52 b.defaultVideoFormat rfl).2
      h12, (m.field_eq_some 56 b.associationId rfl).2 h13, (m.field_eq_some 64 b.entityType rfl).2 h14,
      Option.bind_eq_bind, Option.bind_some, Option.pure_def]

theorem get_writeDiscovery_outside (m : Memory) (b : Discovery) (i : Nat) (hi : i < 4 ∨ 68 ≤ i) :
    (writeDiscovery m b).get i = m.get i := by
  simp only [writeDiscovery]
  repeat rw [Memory.get_setField_outside _ _ _ _ (by omega)]

theorem holdsExactly_writeDiscovery (m : Memory) (b : Discovery) (hm : m.holdsExactly 4) :
    (writeDiscovery m b).holdsExactly 68 := by
  replace hm := Memory.holdsExactly_setField _ _ b.entityId hm
  replace hm := Memory.holdsExactly_setField _ _ b.vendorId hm
  replace hm := Memory.holdsExactly_setField _ _ b.modelId hm
  replace hm := Memory.holdsExactly_setField _ _ b.entityCapabilities hm
  replace hm := Memory.holdsExactly_setField _ _ b.talkerStreamSources hm
  replace hm := Memory.holdsExactly_setField _ _ b.talkerCapabilities hm
  replace hm := Memory.holdsExactly_setField _ _ b.listenerStreamSinks hm
  replace hm := Memory.holdsExactly_setField _ _ b.listenerCapabilities hm
  replace hm := Memory.holdsExactly_setField _ _ b.controllerCapabilities hm
  replace hm := Memory.holdsExactly_setField _ _ b.availableIndex hm
  replace hm := Memory.holdsExactly_setField _ _ b.gmId hm
  replace hm := Memory.holdsExactly_setField _ _ b.defaultAudioFormat hm
  replace hm := Memory.holdsExactly_setField _ _ b.defaultVideoFormat hm
  replace hm := Memory.holdsExactly_setField _ _ b.associationId hm
  replace hm := Memory.holdsExactly_setField _ _ b.entityType hm
  exact hm

/-- After the part is written it stands there. -/
theorem discoveryAt_writeDiscovery (m : Memory) (b : Discovery) : DiscoveryAt (writeDiscovery m b) b := by
  simp only [DiscoveryAt, writeDiscovery]
  refine ⟨?_, ?_, ?_, ?_, ?_, ?_, ?_, ?_, ?_, ?_, ?_, ?_, ?_, ?_, ?_⟩
  all_goals
    repeat rw [Memory.fieldAt_setField_disjoint _ _ _ _ _ _ (by omega)]
    exact Memory.fieldAt_setField_same _ _ _

theorem DiscoveryAt.congr {m n : Memory} {b : Discovery} (hb : DiscoveryAt m b)
    (hg : ∀ i, 4 ≤ i → i < 68 → n.get i = m.get i) : DiscoveryAt n b := by
  have sub : ∀ off k v, 4 ≤ off → off + k ≤ 68 → FieldAt m off k v → FieldAt n off k v :=
    fun off k v h1 h2 hf => hf.congr fun i h3 h4 => hg i (by omega) (by omega)
  obtain ⟨h0, h1, h2, h3, h4, h5, h6, h7, h8, h9, h10, h11, h12, h13, h14⟩ := hb
  exact ⟨sub _ _ _ (by omega) (by omega) h0, sub _ _ _ (by omega) (by omega) h1, sub _ _ _ (by omega) (by omega) h2,
    sub _ _ _ (by omega) (by omega) h3, sub _ _ _ (by omega) (by omega) h4, sub _ _ _ (by omega) (by omega) h5, sub _
    _ _ (by omega) (by omega) h6, sub _ _ _ (by omega) (by omega) h7, sub _ _ _ (by omega) (by omega) h8, sub _ _ _
    (by omega) (by omega) h9, sub _ _ _ (by omega) (by omega) h10, sub _ _ _ (by omega) (by omega) h11, sub _ _ _ (by
    omega) (by omega) h12, sub _ _ _ (by omega) (by omega) h13, sub _ _ _ (by omega) (by omega) h14⟩

theorem exists_discoveryAt (m : Memory) (len : Nat) (hm : m.holdsExactly len) (hl : 68 ≤ len) :
    ∃ b, DiscoveryAt m b := by
  obtain ⟨x0, h0⟩ := Option.isSome_iff_exists.1 (m.field_isSome 4 64 len hm (by omega))
  obtain ⟨x1, h1⟩ := Option.isSome_iff_exists.1 (m.field_isSome 12 32 len hm (by omega))
  obtain ⟨x2, h2⟩ := Option.isSome_iff_exists.1 (m.field_isSome 16 32 len hm (by omega))
  obtain ⟨x3, h3⟩ := Option.isSome_iff_exists.1 (m.field_isSome 20 32 len hm (by omega))
  obtain ⟨x4, h4⟩ := Option.isSome_iff_exists.1 (m.field_isSome 24 16 len hm (by omega))
  obtain ⟨x5, h5⟩ := Option.isSome_iff_exists.1 (m.field_isSome 26 16 len hm (by omega))
  obtain ⟨x6, h6⟩ := Option.isSome_iff_exists.1 (m.field_isSome 28 16 len hm (by omega))
  obtain ⟨x7, h7⟩ := Option.isSome_iff_exists.1 (m.field_isSome 30 16 len hm (by omega))
  obtain ⟨x8, h8⟩ := Option.isSome_iff_exists.1 (m.field_isSome 32 32 len hm (by omega))
  obtain ⟨x9, h9⟩ := Option.isSome_iff_exists.1 (m.field_isSome 36 32 len hm (by omega))
  obtain ⟨x10, h10⟩ := Option.isSome_iff_exists.1 (m.field_isSome 40 64 len hm (by omega))
  obtain ⟨x11, h11⟩ := Option.isSome_iff_exists.1 (m.field_isSome 48 32 len hm (by omega))
  obtain ⟨x12, h12⟩ := Option.isSome_iff_exists.1 (m.field_isSome 52 32 len hm (by omega))
  obtain ⟨x13, h13⟩ := Option.isSome_iff_exists.1 (m.field_isSome 56 64 len hm (by omega))
  obtain ⟨x14, h14⟩ := Option.isSome_iff_exists.1 (m.field_isSome 64 32 len hm (by omega))
  refine ⟨⟨x0, x1, x2, x3, x4, x5, x6, x7, x8, x9, x10, x11, x12, x13, x14⟩, (readDiscovery_eq_some _ _).1 ?_⟩
  simp only [readDiscovery, h0, h1, h2, h3, h4, h5, h6, h7, h8, h9, h10, h11, h12, h13, h14, Option.bind_eq_bind,
    Option.bind_some, Option.pure_def]

theorem readConnection_eq_some (m : Memory) (b : Connection) :
    readConnection m = some b ↔ ConnectionAt m b := by
  constructor
  · intro h
    obtain ⟨_, h0, h⟩ := Option.bind_eq_some_iff.1 h
    obtain ⟨_, h1, h⟩ := Option.bind_eq_some_iff.1 h
    obtain ⟨_, h2, h⟩ := Option.bind_eq_some_iff.1 h
    obtain ⟨_, h3, h⟩ := Option.bind_eq_some_iff.1 h
    obtain ⟨_, h4, h⟩ := Option.bind_eq_some_iff.1 h
    obtain ⟨_, h5, h⟩ := Option.bind_eq_some_iff.1 h
    obtain ⟨_, h6, h⟩ := Option.bind_eq_some_iff.1 h
    obtain ⟨_, h7, h⟩ := Option.bind_eq_some_iff.1 h
    obtain ⟨_, h8, h⟩ := Option.bind_eq_some_iff.1 h
    obtain ⟨_, h9, h⟩ := Option.bind_eq_some_iff.1 h
    obtain ⟨_, h10, h⟩ := Option.bind_eq_some_iff.1 h
    cases h
    exact ⟨(m.field_eq_some 4 _ rfl).1 h0, (m.field_eq_some 12 _ rfl).1 h1, (m.field_eq_some 20 _ rfl).1 h2,
      (m.field_eq_some 28 _ rfl).1 h3, (m.field_eq_some 36 _ rfl).1 h4, (m.field_eq_some 38 _ rfl).1 h5,
      (m.field_eq_some 40 _ rfl).1 h6, (m.field_eq_some 46 _ rfl).1 h7, (m.field_eq_some 48 _ rfl).1 h8,
      (m.field_eq_some 50 _ rfl).1 h9, (m.field_eq_some 52 _ rfl).1 h10⟩
  · rintro ⟨h0, h1, h2, h3, h4, h5, h6, h7, h8, h9, h10⟩
    simp only [readConnection, (m.field_eq_some 4 b.streamId rfl).2 h0, (m.field_eq_some 12 b.controllerId rfl).2 h1,
      (m.field_eq_some 20 b.talkerId rfl).2 h2, (m.field_eq_some 28 b.listenerId rfl).2 h3, (m.field_eq_some 36
      b.talkerUniqueId rfl).2 h4, (m.field_eq_some 38 b.listenerUniqueId rfl).2 h5, (m.field_eq_some 40 b.destMac
      rfl).2 h6, (m.field_eq_some 46 b.connectionCount rfl).2 h7, (m.field_eq_some 48 b.sequenceId rfl).2 h8,
      (m.field_eq_some 50 b.flags rfl).2 h9, (m.field_eq_some 52 b.defaultFormat rfl).2 h10, Option.bind_eq_bind,
      Option.bind_some, Option.pure_def]

theorem get_writeConnection_outside (m : Memory) (b : Connection) (i : Nat) (hi : i < 4 ∨ 56 ≤ i) :
    (writeConnection m b).get i = m.get i := by
  simp only [writeConnection]
  repeat rw [Memory.get_setField_outside _ _ _ _ (by omega)]

theorem holdsExactly_writeConnection (m : Memory) (b : Connection) (hm : m.holdsExactly 4) :
    (writeConnection m b).holdsExactly 56 := by
  replace hm := Memory.holdsExactly_setField _ _ b.streamId hm
  replace hm := Memory.holdsExactly_setField _ _ b.controllerId hm
  replace hm := Memory.holdsExactly_setField _ _ b.talkerId hm
  replace hm := Memory.holdsExactly_setField _ _ b.listenerId hm
  replace hm := Memory.holdsExactly_setField _ _ b.talkerUniqueId hm
  replace hm := Memory.holdsExactly_setField _ _ b.listenerUniqueId hm
  replace hm := Memory.holdsExactly_setField _ _ b.destMac hm
  replace hm := Memory.holdsExactly_setField _ _ b.connectionCount hm
  replace hm := Memory.holdsExactly_setField _ _ b.sequenceId hm
  replace hm := Memory.holdsExactly_setField _ _ b.flags hm
  replace hm := Memory.holdsExactly_setField _ _ b.defaultFormat hm
  exact hm

/-- After the part is written it stands there. -/
theorem connectionAt_writeConnection (m : Memory) (b : Connection) : ConnectionAt (writeConnection m b) b := by
  simp only [ConnectionAt, writeConnection]
  refine ⟨?_, ?_, ?_, ?_, ?_, ?_, ?_, ?_, ?_, ?_, ?_⟩
  all_goals
    repeat rw [Memory.fieldAt_setField_disjoint _ _ _ _ _ _ (by omega)]
    exact Memory.fieldAt_setField_same _ _ _

theorem ConnectionAt.congr {m n : Memory} {b : Connection} (hb : ConnectionAt m b)
    (hg : ∀ i, 4 ≤ i → i < 56 → n.get i = m.get i) : ConnectionAt n b := by
  have sub : ∀ off k v, 4 ≤ off → off + k ≤ 56 → FieldAt m off k v → FieldAt n off k v :=
    fun off k v h1 h2 hf => hf.congr fun i h3 h4 => hg i (by omega) (by omega)
  obtain ⟨h0, h1, h2, h3, h4, h5, h6, h7, h8, h9, h10⟩ := hb
  exact ⟨sub _ _ _ (by omega) (by omega) h0, sub _ _ _ (by omega) (by omega) h1, sub _ _ _ (by omega) (by omega) h2,
    sub _ _ _ (by omega) (by omega) h3, sub _ _ _ (by omega) (by omega) h4, sub _ _ _ (by omega) (by omega) h5, sub _
    _ _ (by omega) (by omega) h6, sub _ _ _ (by omega) (by omega) h7, sub _ _ _ (by omega) (by omega) h8, sub _ _ _
    (by omega) (by omega) h9, sub _ _ _ (by omega) (by omega) h10⟩

theorem exists_connectionAt (m : Memory) (len : Nat) (hm : m.holdsExactly len) (hl : 56 ≤ len) :
    ∃ b, ConnectionAt m b := by
  obtain ⟨x0, h0⟩ := Option.isSome_iff_exists.1 (m.field_isSome 4 64 len hm (by omega))
  obtain ⟨x1, h1⟩ := Option.isSome_iff_exists.1 (m.field_isSome 12 64 len hm (by omega))
  obtain ⟨x2, h2⟩ := Option.isSome_iff_exists.1 (m.field_isSome 20 64 len hm (by omega))
  obtain ⟨x3, h3⟩ := Option.isSome_iff_exists.1 (m.field_isSome 28 64 len hm (by omega))
  obtain ⟨x4, h4⟩ := Option.isSome_iff_exists.1 (m.field_isSome 36 16 len hm (by omega))
  obtain ⟨x5, h5⟩ := Option.isSome_iff_exists.1 (m.field_isSome 38 16 len hm (by omega))
  obtain ⟨x6, h6⟩ := Option.isSome_iff_exists.1 (m.field_isSome 40 48 len hm (by omega))
  obtain ⟨x7, h7⟩ := Option.isSome_iff_exists.1 (m.field_isSome 46 16 len hm (by omega))
  obtain ⟨x8, h8⟩ := Option.isSome_iff_exists.1 (m.field_isSome 48 16 len hm (by omega))
  obtain ⟨x9, h9⟩ := Option.isSome_iff_exists.1 (m.field_isSome 50 16 len hm (by omega))
  obtain ⟨x10, h10⟩ := Option.isSome_iff_exists.1 (m.field_isSome 52 32 len hm (by omega))
  refine ⟨⟨x0, x1, x2, x3, x4, x5, x6, x7, x8, x9, x10⟩, (readConnection_eq_some _ _).1 ?_⟩
  simp only [readConnection, h0, h1, h2, h3, h4, h5, h6, h7, h8, h9, h10, Option.bind_eq_bind, Option.bind_some,
    Option.pure_def]

theorem readAecpCommon_eq_some (m : Memory) (b : AecpCommon) :
    readAecpCommon m = some b ↔ AecpCommonAt m b := by
  constructor
  · intro h
    obtain ⟨_, h0, h⟩ := Option.bind_eq_some_iff.1 h
    obtain ⟨_, h1, h⟩ := Option.bind_eq_some_iff.1 h
    obtain ⟨_, h2, h⟩ := Option.bind_eq_some_iff.1 h
    cases h
    exact ⟨(m.field_eq_some 4 _ rfl).1 h0, (m.field_eq_some 12 _ rfl).1 h1, (m.field_eq_some 20 _ rfl).1 h2⟩
  · rintro ⟨h0, h1, h2⟩
    simp only [readAecpCommon, (m.field_eq_some 4 b.targetId rfl).2 h0, (m.field_eq_some 12 b.controllerId rfl).2 h1,
      (m.field_eq_some 20 b.sequenceId rfl).2 h2, Option.bind_eq_bind, Option.bind_some, Option.pure_def]

theorem get_writeAecpCommon_outside (m : Memory) (b : AecpCommon) (i : Nat) (hi : i < 4 ∨ 22 ≤ i) :
    (writeAecpCommon m b).get i = m.get i := by
  simp only [writeAecpCommon]
  repeat rw [Memory.get_setField_outside _ _ _ _ (by omega)]

theorem holdsExactly_writeAecpCommon (m : Memory) (b : AecpCommon) (hm : m.holdsExactly 4) :
    (writeAecpCommon m b).holdsExactly 22 := by
  replace hm := Memory.holdsExactly_setField _ _ b.targetId hm
  replace hm := Memory.holdsExactly_setField _ _ b.controllerId hm
  replace hm := Memory.holdsExactly_setField _ _ b.sequenceId hm
  exact hm

/-- After the part is written it stands there. -/
theorem aecpCommonAt_writeAecpCommon (m : Memory) (b : AecpCommon) : AecpCommonAt (writeAecpCommon m b) b := by
  simp only [AecpCommonAt, writeAecpCommon]
  refine ⟨?_, ?_, ?_⟩
  all_goals
    repeat rw [Memory.fieldAt_setField_disjoint _ _ _ _ _ _ (by omega)]
    exact Memory.fieldAt_setField_same _ _ _

theorem AecpCommonAt.congr {m n : Memory} {b : AecpCommon} (hb : AecpCommonAt m b)
    (hg : ∀ i, 4 ≤ i → i < 22 → n.get i = m.get i) : AecpCommonAt n b := by
  have sub : ∀ off k v, 4 ≤ off → off + k ≤ 22 → FieldAt m off k v → FieldAt n off k v :=
    fun off k v h1 h2 hf => hf.congr fun i h3 h4 => hg i (by omega) (by omega)
  obtain ⟨h0, h1, h2⟩ := hb
  exact ⟨sub _ _ _ (by omega) (by omega) h0, sub _ _ _ (by omega) (by omega) h1, sub _ _ _ (by omega) (by omega) h2⟩

theorem exists_aecpCommonAt (m : Memory) (len : Nat) (hm : m.holdsExactly len) (hl : 22 ≤ len) :
    ∃ b, AecpCommonAt m b := by
  obtain ⟨x0, h0⟩ := Option.isSome_iff_exists.1 (m.field_isSome 4 64 len hm (by omega))
  obtain ⟨x1, h1⟩ := Option.isSome_iff_exists.1 (m.field_isSome 12 64 len hm (by omega))
  obtain ⟨x2, h2⟩ := Option.isSome_iff_exists.1 (m.field_isSome 20 16 len hm (by omega))
  refine ⟨⟨x0, x1, x2⟩, (readAecpCommon_eq_some _ _).1 ?_⟩
  simp only [readAecpCommon, h0, h1, h2, Option.bind_eq_bind, Option.bind_some, Option.pure_def]

theorem readVendorMessage_eq_some (m : Memory) (b : VendorMessage) :
    readVendorMessage m = some b ↔ VendorMessageAt m b := by
  constructor
  · intro h
    obtain ⟨_, h0, h⟩ := Option.bind_eq_some_iff.1 h
    obtain ⟨_, h1, h⟩ := Option.bind_eq_some_iff.1 h
    obtain ⟨_, h2, h⟩ := Option.bind_eq_some_iff.1 h
    obtain ⟨_, h3, h⟩ := Option.bind_eq_some_iff.1 h
    obtain ⟨_, h4, h⟩ := Option.bind_eq_some_iff.1 h
    obtain ⟨_, h5, h⟩ := Option.bind_eq_some_iff.1 h
    cases h
    exact ⟨(m.field_eq_some 22 _ rfl).1 h0, (m.field_eq_some 24 _ rfl).1 h1, (m.field_eq_some 28 _ rfl).1 h2,
      (m.field_eq_some 30 _ rfl).1 h3, (m.field_eq_some 32 _ rfl).1 h4, (m.field_eq_some 34 _ rfl).1 h5⟩
  · rintro ⟨h0, h1, h2, h3, h4, h5⟩
    simp only [readVendorMessage, (m.field_eq_some 22 b.modeLen rfl).2 h0, (m.field_eq_some 24 b.ouiFlags rfl).2 h1,
      (m.field_eq_some 28 b.typeFlags rfl).2 h2, (m.field_eq_some 30 b.index1 rfl).2 h3, (m.field_eq_some 32 b.index2
      rfl).2 h4, (m.field_eq_some 34 b.index3 rfl).2 h5, Option.bind_eq_bind, Option.bind_some, Option.pure_def]

theorem get_writeVendorMessage_outside (m : Memory) (b : VendorMessage) (i : Nat) (hi : i < 22 ∨ 36 ≤ i) :
    (writeVendorMessage m b).get i = m.get i := by
  simp only [writeVendorMessage]
  repeat rw [Memory.get_setField_outside _ _ _ _ (by omega)]

theorem holdsExactly_writeVendorMessage (m : Memory) (b : VendorMessage) (hm : m.holdsExactly 22) :
    (writeVendorMessage m b).holdsExactly 36 := by
  replace hm := Memory.holdsExactly_setField _ _ b.modeLen hm
  replace hm := Memory.holdsExactly_setField _ _ b.ouiFlags hm
  replace hm := Memory.holdsExactly_setField _ _ b.typeFlags hm
  replace hm := Memory.holdsExactly_setField _ _ b.index1 hm
  replace hm := Memory.holdsExactly_setField _ _ b.index2 hm
  replace hm := Memory.holdsExactly_setField _ _ b.index3 hm
  exact hm

/-- After the part is written it stands there. -/
theorem vendorMessageAt_writeVendorMessage (m : Memory) (b : VendorMessage) :
    VendorMessageAt (writeVendorMessage m b) b := by
  simp only [VendorMessageAt, writeVendorMessage]
  refine ⟨?_, ?_, ?_, ?_, ?_, ?_⟩
  all_goals
    repeat rw [Memory.fieldAt_setField_disjoint _ _ _ _ _ _ (by omega)]
    exact Memory.fieldAt_setField_same _ _ _

theorem VendorMessageAt.congr {m n : Memory} {b : VendorMessage} (hb : VendorMessageAt m b)
    (hg : ∀ i, 22 ≤ i → i < 36 → n.get i = m.get i) : VendorMessageAt n b := by
  have sub : ∀ off k v, 22 ≤ off → off + k ≤ 36 → FieldAt m off k v → FieldAt n off k v :=
    fun off k v h1 h2 hf => hf.congr fun i h3 h4 => hg i (by omega) (by omega)
  obtain ⟨h0, h1, h2, h3, h4, h5⟩ := hb
  exact ⟨sub _ _ _ (by omega) (by omega) h0, sub _ _ _ (by omega) (by omega) h1, sub _ _ _ (by omega) (by omega) h2,
    sub _ _ _ (by omega) (by omega) h3, sub _ _ _ (by omega) (by omega) h4, sub _ _ _ (by omega) (by omega) h5⟩

theorem exists_vendorMessageAt (m : Memory) (len : Nat) (hm : m.holdsExactly len) (hl : 36 ≤ len) :
    ∃ b, VendorMessageAt m b := by
  obtain ⟨x0, h0⟩ := Option.isSome_iff_exists.1 (m.field_isSome 22 16 len hm (by omega))
  obtain ⟨x1, h1⟩ := Option.isSome_iff_exists.1 (m.field_isSome 24 32 len hm (by omega))
  obtain ⟨x2, h2⟩ := Option.isSome_iff_exists.1 (m.field_isSome 28 16 len hm (by omega))
  obtain ⟨x3, h3⟩ := Option.isSome_iff_exists.1 (m.field_isSome 30 16 len hm (by omega))
  obtain ⟨x4, h4⟩ := Option.isSome_iff_exists.1 (m.field_isSome 32 16 len hm (by omega))
  obtain ⟨x5, h5⟩ := Option.isSome_iff_exists.1 (m.field_isSome 34 16 len hm (by omega))
  refine ⟨⟨x0, x1, x2, x3, x4, x5⟩, (readVendorMessage_eq_some _ _).1 ?_⟩
  simp only [readVendorMessage, h0, h1, h2, h3, h4, h5, Option.bind_eq_bind, Option.bind_some, Option.pure_def]

theorem readAddressAccess_eq_some (m : Memory) (b : AddressAccess) :
    readAddressAccess m = some b ↔ AddressAccessAt m b := by
  constructor
  · intro h
    obtain ⟨_, h0, h⟩ := Option.bind_eq_some_iff.1 h
    cases h
    exact (m.field_eq_some 22 _ rfl).1 h0
  · intro h0
    simp only [readAddressAccess, (m.field_eq_some 22 b.modeLen rfl).2 h0, Option.bind_eq_bind, Option.bind_some,
      Option.pure_def]

theorem get_writeAddressAccess_outside (m : Memory) (b : AddressAccess) (i : Nat) (hi : i < 22 ∨ 24 ≤ i) :
    (writeAddressAccess m b).get i = m.get i := by
  simp only [writeAddressAccess]
  rw [Memory.get_setField_outside _ _ _ _ (by omega)]

theorem holdsExactly_writeAddressAccess (m : Memory) (b : AddressAccess) (hm : m.holdsExactly 22) :
    (writeAddressAccess m b).holdsExactly 24 := by
  replace hm := Memory.holdsExactly_setField _ _ b.modeLen hm
  exact hm

/-- After the part is written it stands there. -/
theorem addressAccessAt_writeAddressAccess (m : Memory) (b : AddressAccess) :
    AddressAccessAt (writeAddressAccess m b) b := by
  exact Memory.fieldAt_setField_same _ _ _

theorem AddressAccessAt.congr {m n : Memory} {b : AddressAccess} (hb : AddressAccessAt m b)
    (hg : ∀ i, 22 ≤ i → i < 24 → n.get i = m.get i) : AddressAccessAt n b := by
  exact FieldAt.congr hb fun i h1 h2 => hg i (by omega) (by omega)

theorem exists_addressAccessAt (m : Memory) (len : Nat) (hm : m.holdsExactly len) (hl : 24 ≤ len) :
    ∃ b, AddressAccessAt m b := by
  obtain ⟨x0, h0⟩ := Option.isSome_iff_exists.1 (m.field_isSome 22 16 len hm (by omega))
  refine ⟨⟨x0⟩, (readAddressAccess_eq_some _ _).1 ?_⟩
  simp only [readAddressAccess, h0, Option.bind_eq_bind, Option.bind_some, Option.pure_def]

theorem readLegacyCommand_eq_some (m : Memory) (b : LegacyCommand) :
    readLegacyCommand m = some b ↔ LegacyCommandAt m b := by
  constructor
  · intro h
    obtain ⟨_, h0, h⟩ := Option.bind_eq_some_iff.1 h
    cases h
    exact (m.field_eq_some 22 _ rfl).1 h0
  · intro h0
    simp only [readLegacyCommand, (m.field_eq_some 22 b.length rfl).2 h0, Option.bind_eq_bind, Option.bind_some,
      Option.pure_def]

theorem get_writeLegacyCommand_outside (m : Memory) (b : LegacyCommand) (i : Nat) (hi : i < 22 ∨ 24 ≤ i) :
    (writeLegacyCommand m b).get i = m.get i := by
  simp only [writeLegacyCommand]
  rw [Memory.get_setField_outside _ _ _ _ (by omega)]

theorem holdsExactly_writeLegacyCommand (m : Memory) (b : LegacyCommand) (hm : m.holdsExactly 22) :
    (writeLegacyCommand m b).holdsExactly 24 := by
  replace hm := Memory.holdsExactly_setField _ _ b.length hm
  exact hm

/-- After the part is written it stands there. -/
theorem legacyCommandAt_writeLegacyCommand (m : Memory) (b : LegacyCommand) :
    LegacyCommandAt (writeLegacyCommand m b) b := by
  exact Memory.fieldAt_setField_same _ _ _

theorem LegacyCommandAt.congr {m n : Memory} {b : LegacyCommand} (hb : LegacyCommandAt m b)
    (hg : ∀ i, 22 ≤ i → i < 24 → n.get i = m.get i) : LegacyCommandAt n b := by
  exact FieldAt.congr hb fun i h1 h2 => hg i (by omega) (by omega)

theorem exists_legacyCommandAt (m : Memory) (len : Nat) (hm : m.holdsExactly len) (hl : 24 ≤ len) :
    ∃ b, LegacyCommandAt m b := by
  obtain ⟨x0, h0⟩ := Option.isSome_iff_exists.1 (m.field_isSome 22 16 len hm (by omega))
  refine ⟨⟨x0⟩, (readLegacyCommand_eq_some _ _).1 ?_⟩
  simp only [readLegacyCommand, h0, Option.bind_eq_bind, Option.bind_some, Option.pure_def]

theorem readVendorSpecific_eq_some (m : Memory) (b : VendorSpecific) :
    readVendorSpecific m = some b ↔ VendorSpecificAt m b := by
  constructor
  · intro h
    obtain ⟨_, h0, h⟩ := Option.bind_eq_some_iff.1 h
    cases h
    exact (m.field_eq_some 22 _ rfl).1 h0
  · intro h0
    simp only [readVendorSpecific, (m.field_eq_some 22 b.protocolId rfl).2 h0, Option.bind_eq_bind, Option.bind_some,
      Option.pure_def]

theorem get_writeVendorSpecific_outside (m : Memory) (b : VendorSpecific) (i : Nat) (hi : i < 22 ∨ 28 ≤ i) :
    (writeVendorSpecific m b).get i = m.get i := by
  simp only [writeVendorSpecific]
  rw [Memory.get_setField_outside _ _ _ _ (by omega)]

theorem holdsExactly_writeVendorSpecific (m : Memory) (b : VendorSpecific) (hm : m.holdsExactly 22) :
    (writeVendorSpecific m b).holdsExactly 28 := by
  replace hm := Memory.holdsExactly_setField _ _ b.protocolId hm
  exact hm

/-- After the part is written it stands there. -/
theorem vendorSpecificAt_writeVendorSpecific (m : Memory) (b : VendorSpecific) :
    VendorSpecificAt (writeVendorSpecific m b) b := by
  exact Memory.fieldAt_setField_same _ _ _

theorem VendorSpecificAt.congr {m n : Memory} {b : VendorSpecific} (hb : VendorSpecificAt m b)
    (hg : ∀ i, 22 ≤ i → i < 28 → n.get i = m.get i) : VendorSpecificAt n b := by
  exact FieldAt.congr hb fun i h1 h2 => hg i (by omega) (by omega)

theorem exists_vendorSpecificAt (m : Memory) (len : Nat) (hm : m.holdsExactly len) (hl : 28 ≤ len) :
    ∃ b, VendorSpecificAt m b := by
  obtain ⟨x0, h0⟩ := Option.isSome_iff_exists.1 (m.field_isSome 22 48 len hm (by omega))
  refine ⟨⟨x0⟩, (readVendorSpecific_eq_some _ _).1 ?_⟩
  simp only [readVendorSpecific, h0, Option.bind_eq_bind, Option.bind_some, Option.pure_def]

/-! ## The payload and the variable data -/

theorem readPayload_eq_some (m : Memory) (v : Variant) (p : Payload) :
    readPayload m v = some p ↔ p.variant = v ∧ PayloadAt m p := by
  cases v <;> cases p <;>
    simp [readPayload, Payload.variant, PayloadAt, readVendorMessage_eq_some, readAddressAccess_eq_some,
      readLegacyCommand_eq_some, readVendorSpecific_eq_some]

/-- The variable data starts after the prefix and the fixed part (R103). -/
theorem Variant.dataStart_eq (v : Variant) : aecpPrefixLen + v.fixed = v.dataStart := by cases v <;> rfl

theorem Variant.dataStart_ge (v : Variant) : 24 ≤ v.dataStart := by cases v <;> simp [Variant.dataStart]

theorem get_writePayload_outside (m : Memory) (p : Payload) (i : Nat) (hi : i < 22 ∨ p.variant.dataStart ≤ i) :
    (writePayload m p).get i = m.get i := by
  cases p with
  | v0 p => exact get_writeVendorMessage_outside m p i hi
  | v1 p => exact get_writeAddressAccess_outside m p i hi
  | v2 p => exact get_writeLegacyCommand_outside m p i hi
  | v3 p => exact get_writeVendorSpecific_outside m p i hi

theorem holdsExactly_writePayload (m : Memory) (p : Payload) (hm : m.holdsExactly 22) :
    (writePayload m p).holdsExactly p.variant.dataStart := by
  cases p with
  | v0 p => exact holdsExactly_writeVendorMessage m p hm
  | v1 p => exact holdsExactly_writeAddressAccess m p hm
  | v2 p => exact holdsExactly_writeLegacyCommand m p hm
  | v3 p => exact holdsExactly_writeVendorSpecific m p hm

/-- After the payload is written it stands there. -/
theorem payloadAt_writePayload (m : Memory) (p : Payload) : PayloadAt (writePayload m p) p := by
  cases p with
  | v0 p => exact vendorMessageAt_writeVendorMessage m p
  | v1 p => exact addressAccessAt_writeAddressAccess m p
  | v2 p => exact legacyCommandAt_writeLegacyCommand m p
  | v3 p => exact vendorSpecificAt_writeVendorSpecific m p

theorem PayloadAt.congr {m n : Memory} {p : Payload} (hp : PayloadAt m p)
    (hg : ∀ i, 22 ≤ i → i < p.variant.dataStart → n.get i = m.get i) : PayloadAt n p := by
  cases p with
  | v0 p => exact VendorMessageAt.congr hp hg
  | v1 p => exact AddressAccessAt.congr hp hg
  | v2 p => exact LegacyCommandAt.congr hp hg
  | v3 p => exact VendorSpecificAt.congr hp hg

theorem exists_payloadAt (m : Memory) (v : Variant) (len : Nat) (hm : m.holdsExactly len) (hl : v.dataStart ≤ len) :
    ∃ p : Payload, p.variant = v ∧ PayloadAt m p := by
  cases v with
  | v0 => exact (exists_vendorMessageAt m len hm hl).elim fun p hp => ⟨.v0 p, rfl, hp⟩
  | v1 => exact (exists_addressAccessAt m len hm hl).elim fun p hp => ⟨.v1 p, rfl, hp⟩
  | v2 => exact (exists_legacyCommandAt m len hm hl).elim fun p hp => ⟨.v2 p, rfl, hp⟩
  | v3 => exact (exists_vendorSpecificAt m len hm hl).elim fun p hp => ⟨.v3 p, rfl, hp⟩

/-- Reading octets answers exactly the octets that stand there. -/
theorem readOctets_eq_some_iff (m : Memory) (off n : Nat) (bs : List Byte) :
    m.readOctets off n = some bs ↔ bs.length = n ∧ OctetsAt m off bs := by
  rw [Memory.readOctets_eq_some]
  constructor
  · rintro ⟨rfl, h⟩
    exact ⟨rfl, h⟩
  · rintro ⟨rfl, h⟩
    exact ⟨rfl, h⟩

theorem OctetsAt.congr {m n : Memory} {off : Nat} {bs : List Byte} (h : OctetsAt m off bs)
    (hg : ∀ i, off ≤ i → i < off + bs.length → n.get i = m.get i) : OctetsAt n off bs := fun k hk => by
  rw [hg _ (by omega) (by omega), h k hk]

theorem octetsAt_writeOctets (m : Memory) (off : Nat) (bs : List Byte) : OctetsAt (m.writeOctets off bs) off bs := by
  intro k hk
  rw [Memory.get_writeOctets, if_pos (by omega)]
  simp

theorem octetsAt_ofOctets (bs : List Byte) : OctetsAt (Memory.ofOctets bs) 0 bs := by
  intro k _
  rw [Nat.zero_add, Memory.get_ofOctets]

end Sys2Proof.Machine
end

