-- ==== Sys2Proof/Laws/Codec.lean ====
section
/-!
SUPPORT. The shared decodes and encodes, forward: what each answers for a frame that stands in `BUF` or for registers that
hold a message, in the terms of Machine/Layout.lean, with the frames that the encodes build.
-/

namespace Sys2Proof.Machine

/-! ## Registers that hold nothing -/

theorem HRegs.value_eq_none (g : HRegs) (h : ∃ r, g.get r = none) : g.value = none := by
  obtain ⟨r, hr⟩ := h
  cases hv : g.value with
  | none => rfl
  | some x =>
    rw [HRegs.value_eq_some] at hv
    subst hv
    cases r <;> cases hr

theorem AdpRegs.value_eq_none (g : AdpRegs) (h : ∃ r, g.get r = none) : g.value = none := by
  obtain ⟨r, hr⟩ := h
  cases hv : g.value with
  | none => rfl
  | some x =>
    rw [AdpRegs.value_eq_some] at hv
    subst hv
    cases r <;> cases hr

theorem AcmpRegs.value_eq_none (g : AcmpRegs) (h : ∃ r, g.get r = none) : g.value = none := by
  obtain ⟨r, hr⟩ := h
  cases hv : g.value with
  | none => rfl
  | some x =>
    rw [AcmpRegs.value_eq_some] at hv
    subst hv
    cases r <;> cases hr

/-! ## Cells are determined by what stands in them -/

theorem FieldAt.get_eq {m n : Memory} {off k v : Nat} (h1 : FieldAt m off k v) (h2 : FieldAt n off k v) (i : Nat)
    (hl : off ≤ i) (hh : i < off + k) : m.get i = n.get i := by
  have a := h1 (i - off) (by omega)
  have b := h2 (i - off) (by omega)
  rw [show off + (i - off) = i by omega] at a b
  rw [a, b]

theorem OctetsAt.get_eq {m n : Memory} {off : Nat} {bs : List Byte} (h1 : OctetsAt m off bs) (h2 : OctetsAt n off bs)
    (i : Nat) (hl : off ≤ i) (hh : i < off + bs.length) : m.get i = n.get i := by
  have a := h1 (i - off) (by omega)
  have b := h2 (i - off) (by omega)
  rw [show off + (i - off) = i by omega] at a b
  rw [a, b]

theorem HeaderAt.get_eq {m n : Memory} {h : Header} (h1 : HeaderAt m h) (h2 : HeaderAt n h) (i : Nat) (hi : i < 4) :
    m.get i = n.get i := by
  obtain ⟨a0, a1, a2, a3⟩ := h1
  obtain ⟨b0, b1, b2, b3⟩ := h2
  interval_cases i <;> simp [*]

theorem DiscoveryAt.get_eq {m n : Memory} {b : Discovery} (h1 : DiscoveryAt m b) (h2 : DiscoveryAt n b) (i : Nat)
    (hl : 4 ≤ i) (hh : i < 68) : m.get i = n.get i := by
  obtain ⟨a0, a1, a2, a3, a4, a5, a6, a7, a8, a9, a10, a11, a12, a13, a14⟩ := h1
  obtain ⟨b0, b1, b2, b3, b4, b5, b6, b7, b8, b9, b10, b11, b12, b13, b14⟩ := h2
  rcases Nat.lt_or_ge i 12 with c | c0
  · exact a0.get_eq b0 i hl c
  rcases Nat.lt_or_ge i 16 with c | c1
  · exact a1.get_eq b1 i c0 c
  rcases Nat.lt_or_ge i 20 with c | c2
  · exact a2.get_eq b2 i c1 c
  rcases Nat.lt_or_ge i 24 with c | c3
  · exact a3.get_eq b3 i c2 c
  rcases Nat.lt_or_ge i 26 with c | c4
  · exact a4.get_eq b4 i c3 c
  rcases Nat.lt_or_ge i 28 with c | c5
  · exact a5.get_eq b5 i c4 c
  rcases Nat.lt_or_ge i 30 with c | c6
  · exact a6.get_eq b6 i c5 c
  rcases Nat.lt_or_ge i 32 with c | c7
  · exact a7.get_eq b7 i c6 c
  rcases Nat.lt_or_ge i 36 with c | c8
  · exact a8.get_eq b8 i c7 c
  rcases Nat.lt_or_ge i 40 with c | c9
  · exact a9.get_eq b9 i c8 c
  rcases Nat.lt_or_ge i 48 with c | c10
  · exact a10.get_eq b10 i c9 c
  rcases Nat.lt_or_ge i 52 with c | c11
  · exact a11.get_eq b11 i c10 c
  rcases Nat.lt_or_ge i 56 with c | c12
  · exact a12.get_eq b12 i c11 c
  rcases Nat.lt_or_ge i 64 with c | c13
  · exact a13.get_eq b13 i c12 c
  exact a14.get_eq b14 i c13 hh

theorem ConnectionAt.get_eq {m n : Memory} {b : Connection} (h1 : ConnectionAt m b) (h2 : ConnectionAt n b) (i : Nat)
    (hl : 4 ≤ i) (hh : i < 56) : m.get i = n.get i := by
  obtain ⟨a0, a1, a2, a3, a4, a5, a6, a7, a8, a9, a10⟩ := h1
  obtain ⟨b0, b1, b2, b3, b4, b5, b6, b7, b8, b9, b10⟩ := h2
  rcases Nat.lt_or_ge i 12 with c | c0
  · exact a0.get_eq b0 i hl c
  rcases Nat.lt_or_ge i 20 with c | c1
  · exact a1.get_eq b1 i c0 c
  rcases Nat.lt_or_ge i 28 with c | c2
  · exact a2.get_eq b2 i c1 c
  rcases Nat.lt_or_ge i 36 with c | c3
  · exact a3.get_eq b3 i c2 c
  rcases Nat.lt_or_ge i 38 with c | c4
  · exact a4.get_eq b4 i c3 c
  rcases Nat.lt_or_ge i 40 with c | c5
  · exact a5.get_eq b5 i c4 c
  rcases Nat.lt_or_ge i 46 with c | c6
  · exact a6.get_eq b6 i c5 c
  rcases Nat.lt_or_ge i 48 with c | c7
  · exact a7.get_eq b7 i c6 c
  rcases Nat.lt_or_ge i 50 with c | c8
  · exact a8.get_eq b8 i c7 c
  rcases Nat.lt_or_ge i 52 with c | c9
  · exact a9.get_eq b9 i c8 c
  exact a10.get_eq b10 i c9 hh

theorem AecpCommonAt.get_eq {m n : Memory} {b : AecpCommon} (h1 : AecpCommonAt m b) (h2 : AecpCommonAt n b) (i : Nat)
    (hl : 4 ≤ i) (hh : i < 22) : m.get i = n.get i := by
  obtain ⟨a0, a1, a2⟩ := h1
  obtain ⟨b0, b1, b2⟩ := h2
  rcases Nat.lt_or_ge i 12 with c | c0
  · exact a0.get_eq b0 i hl c
  rcases Nat.lt_or_ge i 20 with c | c1
  · exact a1.get_eq b1 i c0 c
  exact a2.get_eq b2 i c1 hh

theorem PayloadAt.get_eq {m n : Memory} {p : Payload} (h1 : PayloadAt m p) (h2 : PayloadAt n p) (i : Nat)
    (hl : 22 ≤ i) (hh : i < p.variant.dataStart) : m.get i = n.get i := by
  cases p with
  | v0 b =>
    obtain ⟨a0, a1, a2, a3, a4, a5⟩ := h1
    obtain ⟨b0, b1, b2, b3, b4, b5⟩ := h2
    rcases Nat.lt_or_ge i 24 with c | c0
    · exact a0.get_eq b0 i hl c
    rcases Nat.lt_or_ge i 28 with c | c1
    · exact a1.get_eq b1 i c0 c
    rcases Nat.lt_or_ge i 30 with c | c2
    · exact a2.get_eq b2 i c1 c
    rcases Nat.lt_or_ge i 32 with c | c3
    · exact a3.get_eq b3 i c2 c
    rcases Nat.lt_or_ge i 34 with c | c4
    · exact a4.get_eq b4 i c3 c
    exact a5.get_eq b5 i c4 hh
  | v1 b => exact FieldAt.get_eq h1 h2 i hl hh
  | v2 b => exact FieldAt.get_eq h1 h2 i hl hh
  | v3 b => exact FieldAt.get_eq h1 h2 i hl hh

theorem AecpFrame.get_eq {m n : Memory} {h : Header} {c : AecpCommon} {p : Payload} {bs : List Byte}
    (h1 : AecpFrame m h c p bs) (h2 : AecpFrame n h c p bs) (i : Nat) (hi : i < p.variant.dataStart + bs.length) :
    m.get i = n.get i := by
  rcases Nat.lt_or_ge i 4 with c1 | c1
  · exact h1.1.get_eq h2.1 i c1
  rcases Nat.lt_or_ge i 22 with c2 | c2
  · exact h1.2.1.get_eq h2.2.1 i c1 c2
  rcases Nat.lt_or_ge i p.variant.dataStart with c3 | c3
  · exact PayloadAt.get_eq h1.2.2.1 h2.2.2.1 i c2 c3
  exact h1.2.2.2.get_eq h2.2.2.2 i c3 hi

/-- Two memories of one extent with the same cells are one. -/
theorem Memory.eq_of_holdsExactly {m n : Memory} {k : Nat} (hm : m.holdsExactly k) (hn : n.holdsExactly k)
    (h : ∀ i, i < k → m.get i = n.get i) : m = n := by
  apply Memory.eq_of_get_eq m n (Memory.holdsExactly_wf m k hm) (Memory.holdsExactly_wf n k hn)
  intro i
  by_cases hi : i < k
  · exact h i hi
  · have a : ¬ (m.get i).isSome := fun hs => hi ((m.isSome_get_of_holdsExactly k i hm).1 hs)
    have b : ¬ (n.get i).isSome := fun hs => hi ((n.isSome_get_of_holdsExactly k i hn).1 hs)
    simp only [Option.isSome_iff_ne_none, ne_eq, not_not] at a b
    rw [a, b]

/-! ## The frames that encodes build -/

theorem adpFrame_write (h : Header) (b : Discovery) : AdpFrame (writeDiscovery (writeHeader [] h) b) h b :=
  ⟨(headerAt_writeHeader [] h).congr fun i hi => get_writeDiscovery_outside _ _ _ (by omega),
   discoveryAt_writeDiscovery _ _⟩

theorem acmpFrame_write (h : Header) (b : Connection) : AcmpFrame (writeConnection (writeHeader [] h) b) h b :=
  ⟨(headerAt_writeHeader [] h).congr fun i hi => get_writeConnection_outside _ _ _ (by omega),
   connectionAt_writeConnection _ _⟩

theorem aecpFrame_write (h : Header) (c : AecpCommon) (p : Payload) (bs : List Byte) :
    AecpFrame ((writePayload (writeAecpCommon (writeHeader [] h) c) p).writeOctets p.variant.dataStart bs) h c p bs := by
  have := p.variant.dataStart_ge
  have hout : ∀ i, i < p.variant.dataStart →
      ((writePayload (writeAecpCommon (writeHeader [] h) c) p).writeOctets p.variant.dataStart bs).get i =
        (writePayload (writeAecpCommon (writeHeader [] h) c) p).get i :=
    fun i hi => Memory.get_writeOctets_outside _ _ _ _ (.inl hi)
  refine ⟨?_, ?_, ?_, octetsAt_writeOctets _ _ _⟩
  · refine (headerAt_writeHeader [] h).congr fun i hi => ?_
    rw [hout i (by omega), get_writePayload_outside _ _ _ (by omega), get_writeAecpCommon_outside _ _ _ (by omega)]
  · refine (aecpCommonAt_writeAecpCommon (writeHeader [] h) c).congr fun i hi hi' => ?_
    rw [hout i (by omega), get_writePayload_outside _ _ _ (by omega)]
  · exact (payloadAt_writePayload _ _).congr fun i hi hi' => hout i hi'

theorem holdsExactly_aecpFrame (h : Header) (c : AecpCommon) (p : Payload) (bs : List Byte) :
    ((writePayload (writeAecpCommon (writeHeader [] h) c) p).writeOctets p.variant.dataStart bs).holdsExactly
      (p.variant.dataStart + bs.length) :=
  Memory.holdsExactly_writeOctets _ _ _
    (holdsExactly_writePayload _ _ (holdsExactly_writeAecpCommon _ _ (holdsExactly_writeHeader h)))

theorem Variant.dataMax_add_dataStart (v : Variant) : v.dataMax + v.dataStart = 536 := by cases v <;> rfl

/-! ## Domain checks -/

theorem acmpCheck_unknownMessageType (h : Header) (ht : 13 < h.messageType.toNat) :
    acmpCheck h = some (.unknownMessageType h.messageType) := by
  simp [acmpCheck, acmpMsgtypeDefined, ht]

theorem acmpCheck_unknownStatus (h : Header) (ht : h.messageType.toNat ≤ 13)
    (hs : 16 ≤ h.validTime.toNat ∧ h.validTime.toNat ≤ 30) : acmpCheck h = some (.unknownStatus h.validTime) := by
  have h2 : ¬ h.validTime.toNat = 31 := by omega
  simp [acmpCheck, acmpMsgtypeDefined, acmpStatusDefined, ht, h2]
  omega

theorem acmpCheck_none (h : Header) (ht : h.messageType.toNat ≤ 13)
    (hs : h.validTime.toNat ≤ 15 ∨ h.validTime.toNat = 31) : acmpCheck h = none := by
  simp [acmpCheck, acmpMsgtypeDefined, acmpStatusDefined, ht]
  omega

theorem variantOf_unsupported (t : BitVec 4) (h : 14 ≤ t.toNat) : variantOf t = .unsupported := by
  revert t
  decide

theorem variantOf_unknown (t : BitVec 4) (h : 8 ≤ t.toNat) (h' : t.toNat ≤ 13) : variantOf t = .unknown := by
  revert t
  decide

theorem variantOf_v0 (t : BitVec 4) (h' : t.toNat ≤ 1) : variantOf t = .variant .v0 := by
  revert t
  decide

theorem variantOf_v1 (t : BitVec 4) (h : 2 ≤ t.toNat) (h' : t.toNat ≤ 3) : variantOf t = .variant .v1 := by
  revert t
  decide

theorem variantOf_v2 (t : BitVec 4) (h : 4 ≤ t.toNat) (h' : t.toNat ≤ 5) : variantOf t = .variant .v2 := by
  revert t
  decide

theorem variantOf_v3 (t : BitVec 4) (h : 6 ≤ t.toNat) (h' : t.toNat ≤ 7) : variantOf t = .variant .v3 := by
  revert t
  decide

/-! ## Decodes -/

theorem decodeHeader_ok (s : State) (h : Header) (hl : 4 ≤ s.len.toNat) (hh : HeaderAt s.buf h) :
    decodeHeader s = .next (s.finishDecode (headerMsg h)) := by
  rw [decodeHeader, if_neg (by simp [hdrLen]; omega), (readHeader_eq_some _ _).2 hh, withCells_some]

theorem decodeAdp_short (s : State) (x : Option Header) (h : s.len.toNat < 68) :
    decodeAdp x s = .next (s.raise .decode (.truncatedPacket s.len)) := by
  rw [decodeAdp, if_pos (by simpa [adpLen] using h), failDecode]

theorem decodeAdp_ok (s : State) (x : Header) (b : Discovery) (hl : 68 ≤ s.len.toNat) (hb : DiscoveryAt s.buf b) :
    decodeAdp (some x) s = .next (s.finishDecode (adpMsg x b)) := by
  rw [decodeAdp, if_neg (by simp [adpLen]; omega), (readDiscovery_eq_some _ _).2 hb, withCells_some, withCells_some]

theorem decodeAcmp_short (s : State) (x : Option Header) (h : s.len.toNat < 56) :
    decodeAcmp x s = .next (s.raise .decode (.truncatedPacket s.len)) := by
  rw [decodeAcmp, if_pos (by simpa [acmpLen] using h), failDecode]

theorem decodeAcmp_raise (s : State) (x : Header) (e : CodecError) (hl : 56 ≤ s.len.toNat) (he : acmpCheck x = some e) :
    decodeAcmp (some x) s = .next (s.raise .decode e) := by
  rw [decodeAcmp, if_neg (by simp [acmpLen]; omega), withCells_some, he]
  rfl

theorem decodeAcmp_ok (s : State) (x : Header) (b : Connection) (hl : 56 ≤ s.len.toNat) (he : acmpCheck x = none)
    (hb : ConnectionAt s.buf b) : decodeAcmp (some x) s = .next (s.finishDecode (acmpMsg x b)) := by
  rw [decodeAcmp, if_neg (by simp [acmpLen]; omega), withCells_some, he, (readConnection_eq_some _ _).2 hb]
  rfl

theorem decodeAecp_short (s : State) (x : Option Header) (h : s.len.toNat < 22) :
    decodeAecp x s = .next (s.raise .decode (.truncatedPacket s.len)) := by
  rw [decodeAecp, if_pos (by simpa [aecpPrefixLen] using h), failDecode]

/-- With header and common fields in the buffer, an AECP decode is settled by the message type. -/
theorem decodeAecp_long (s : State) (x : Header) (c : AecpCommon) (hl : 22 ≤ s.len.toNat) (hc : AecpCommonAt s.buf c) :
    decodeAecp (some x) s =
      match variantOf x.messageType with
      | .unsupported => failDecode (.unsupportedVariant x.messageType) s
      | .unknown => failDecode (.unknownMessageType x.messageType) s
      | .variant v => decodeAecpPayload x c v s := by
  rw [decodeAecp, if_neg (by simp [aecpPrefixLen]; omega), withCells_some, (readAecpCommon_eq_some _ _).2 hc]
  rfl

theorem decodeAecpPayload_short (s : State) (x : Header) (c : AecpCommon) (v : Variant)
    (h : s.len.toNat < v.dataStart) :
    decodeAecpPayload x c v s = .next (s.raise .decode (.truncatedPacket s.len)) := by
  rw [decodeAecpPayload, Variant.dataStart_eq, if_pos h, failDecode]

theorem decodeAecpPayload_ok (s : State) (x : Header) (c : AecpCommon) (p : Payload) (bs : List Byte)
    (hl : s.len.toNat = p.variant.dataStart + bs.length) (hp : PayloadAt s.buf p)
    (hd : OctetsAt s.buf p.variant.dataStart bs) :
    decodeAecpPayload x c p.variant s = .next (s.finishDecode (aecpMsg x c p bs)) := by
  rw [decodeAecpPayload, Variant.dataStart_eq]
  simp only [(readPayload_eq_some _ _ p).2 ⟨rfl, hp⟩, withCells_some,
    show s.len.toNat - p.variant.dataStart = bs.length by omega,
    (readOctets_eq_some_iff s.buf p.variant.dataStart bs.length bs).2 ⟨rfl, hd⟩]
  rw [if_neg (by omega)]

theorem decodeAecp_ok (s : State) (x : Header) (c : AecpCommon) (p : Payload) (bs : List Byte)
    (hv : variantOf x.messageType = .variant p.variant) (hc : AecpCommonAt s.buf c)
    (hl : s.len.toNat = p.variant.dataStart + bs.length) (hp : PayloadAt s.buf p)
    (hd : OctetsAt s.buf p.variant.dataStart bs) :
    decodeAecp (some x) s = .next (s.finishDecode (aecpMsg x c p bs)) := by
  have := p.variant.dataStart_ge
  rw [decodeAecp_long s x c (by omega) hc, hv]
  exact decodeAecpPayload_ok s x c p bs hl hp hd

/-! ## Encodes -/

theorem encodeHeader_ok (s : State) (h : Header) (hh : s.msg.h = .of h) :
    encodeHeader s = .next (s.finishEncode (writeHeader [] h) 4) := by
  rw [encodeHeader, hh, HRegs.value_of, withRegs_some]
  rfl

theorem encodeAdp_ok (s : State) (h : Header) (b : Discovery) (hh : s.msg.h = .of h) (hb : s.msg.adp = .of b) :
    encodeAdp s = .next (s.finishEncode (writeDiscovery (writeHeader [] h) b) 68) := by
  rw [encodeAdp, hh, HRegs.value_of, withRegs_some, hb, AdpRegs.value_of, withRegs_some]
  rfl

theorem encodeAcmp_raise (s : State) (h : Header) (b : Connection) (e : CodecError) (hh : s.msg.h = .of h)
    (hb : s.msg.acmp = .of b) (he : acmpCheck h = some e) : encodeAcmp s = .next (s.raise .encode e) := by
  rw [encodeAcmp, hh, HRegs.value_of, withRegs_some, hb, AcmpRegs.value_of, withRegs_some, he]
  rfl

theorem encodeAcmp_ok (s : State) (h : Header) (b : Connection) (hh : s.msg.h = .of h) (hb : s.msg.acmp = .of b)
    (he : acmpCheck h = none) :
    encodeAcmp s = .next (s.finishEncode (writeConnection (writeHeader [] h) b) 56) := by
  rw [encodeAcmp, hh, HRegs.value_of, withRegs_some, hb, AcmpRegs.value_of, withRegs_some, he]
  rfl

/-- With header and common registers that hold values, an AECP encode is settled by the message type. -/
theorem encodeAecp_eq (s : State) (h : Header) (c : AecpCommon) (hh : s.msg.h = .of h) (hc : s.msg.aecp = .of c) :
    encodeAecp s =
      match variantOf h.messageType with
      | .unsupported => failEncode (.unsupportedVariant h.messageType) s
      | .unknown => failEncode (.unknownMessageType h.messageType) s
      | .variant v => encodeAecpPayload h c v s := by
  rw [encodeAecp, hh, HRegs.value_of, withRegs_some, hc, AecpRegs.value_of, withRegs_some]
  all_goals cases variantOf h.messageType <;> rfl

theorem encodeAecpPayload_ok (s : State) (h : Header) (c : AecpCommon) (p : Payload) (bs : List Byte) (d : BitVec 10)
    (hp : s.msg.payload p.variant = some p) (hd : s.msg.dlen = some d) (hdl : d.toNat = bs.length)
    (hr : s.msg.data.readOctets 0 bs.length = some bs) (hl : p.variant.dataStart + bs.length ≤ 536) :
    encodeAecpPayload h c p.variant s =
      .next (s.finishEncode
        ((writePayload (writeAecpCommon (writeHeader [] h) c) p).writeOctets p.variant.dataStart bs)
        (p.variant.dataStart + bs.length)) := by
  have := p.variant.dataMax_add_dataStart
  rw [encodeAecpPayload, hp, withRegs_some, hd, withRegs_some, if_neg (by omega), hdl, hr, withRegs_some,
    Variant.dataStart_eq]

theorem encodeAecpPayload_big (s : State) (h : Header) (c : AecpCommon) (p : Payload) (d : BitVec 10) (v : Variant)
    (hp : s.msg.payload v = some p) (hd : s.msg.dlen = some d) (hl : 536 < v.dataStart + d.toNat) :
    encodeAecpPayload h c v s = .next (s.raise .encode (.valueOutOfRange (d.setWidth 16))) := by
  have := v.dataMax_add_dataStart
  rw [encodeAecpPayload, hp, withRegs_some, hd, withRegs_some, if_pos (by omega)]
  rfl

/-- The payload that an AECP decode wrote is the payload an encode of that variant reads. -/
theorem payload_aecpMsg (h : Header) (c : AecpCommon) (p : Payload) (bs : List Byte) :
    (aecpMsg h c p bs).payload p.variant = some p := by
  cases p <;> simp [aecpMsg, Msg.payload, Payload.variant]

/-! ## Frame words -/

/-- A frame word as an integer (R90, R111). -/
theorem toNat_frameWord (st : BitVec 7) (p : FrameBits) (t : BitVec 4) :
    (frameWord st p t).toNat =
      (((p.cd.toNat * 128 + st.toNat) * 2 + p.sv.toNat) * 8 + p.version.toNat) * 16 + t.toNat := by
  simp only [frameWord, BitVec.toNat_append]
  rw [← Nat.shiftLeft_add_eq_or_of_lt st.isLt, ← Nat.shiftLeft_add_eq_or_of_lt p.sv.isLt,
    ← Nat.shiftLeft_add_eq_or_of_lt p.version.isLt, ← Nat.shiftLeft_add_eq_or_of_lt t.isLt]
  simp only [Nat.shiftLeft_eq]

/-- The parts of a frame word are the parts it was made of. -/
theorem parts_frameWord (st : BitVec 7) (p : FrameBits) (t : BitVec 4) :
    frameSubtype (frameWord st p t) = st ∧ frameBits (frameWord st p t) = p ∧
      frameMessageType (frameWord st p t) = t := by
  have key := toNat_frameWord st p t
  obtain ⟨c, s, v⟩ := p
  simp only at key
  have := c.isLt
  have := s.isLt
  have := v.isLt
  have := t.isLt
  have := st.isLt
  refine ⟨?_, ?_, ?_⟩
  · apply BitVec.eq_of_toNat_eq
    simp only [frameSubtype, BitVec.extractLsb'_toNat, key, Nat.shiftRight_eq_div_pow]
    omega
  · simp only [frameBits, FrameBits.mk.injEq]
    refine ⟨?_, ?_, ?_⟩ <;> apply BitVec.eq_of_toNat_eq <;>
      simp only [BitVec.extractLsb'_toNat, key, Nat.shiftRight_eq_div_pow] <;> omega
  · apply BitVec.eq_of_toNat_eq
    simp only [frameMessageType, BitVec.extractLsb'_toNat, key, Nat.shiftRight_eq_div_pow]
    omega

/-- Every 16-bit word is the frame word of its parts. -/
theorem frameWord_parts (w : BitVec 16) : w = frameWord (frameSubtype w) (frameBits w) (frameMessageType w) := by
  apply BitVec.eq_of_toNat_eq
  have := w.isLt
  rw [toNat_frameWord]
  simp only [frameSubtype, frameBits, frameMessageType, BitVec.extractLsb'_toNat, Nat.shiftRight_eq_div_pow]
  omega

/-- The word fetched from a buffer is the frame word of the header that stands in it. -/
theorem fetchWord_eq_some (m : Memory) (h : Header) (hh : HeaderAt m h) :
    fetchWord m = some (frameWord h.subtype h.bits h.messageType) := by
  obtain ⟨h0, h1, _, _⟩ := hh
  simp only [fetchWord, h0, h1, Option.bind_eq_bind, Option.bind_some, Option.pure_def, Option.some.injEq]
  have e0 := h.cd.isLt
  have e1 := h.subtype.isLt
  have e2 := h.sv.isLt
  have e3 := h.version.isLt
  have e4 := h.messageType.isLt
  apply BitVec.eq_of_toNat_eq
  rw [toNat_frameWord, BitVec.toNat_append, ← Nat.shiftLeft_add_eq_or_of_lt (BitVec.isLt _)]
  simp only [Header.bits, Nat.shiftLeft_eq, BitVec.toNat_ofNat]
  omega

/-- The header a frame row reads has the row's message type (R111). -/
theorem frameHeader_messageType (st : BitVec 7) (p : FrameBits) (t : BitVec 4) (m : Memory) (x : Header)
    (h : frameHeader (frameWord st p t) m = some x) : x.messageType = t := by
  simp only [frameHeader, Option.bind_eq_bind, Option.bind_eq_some_iff, Option.pure_def, Option.some.injEq] at h
  obtain ⟨b2, _, b3, _, rfl⟩ := h
  have e := toNat_frameWord st p t
  have := t.isLt
  apply BitVec.eq_of_toNat_eq
  simp only [unpackHeader, BitVec.extractLsb'_toNat, Nat.shiftRight_eq_div_pow, e]
  omega

/-- A frame row reads a header wherever octets 2 and 3 hold octets. -/
theorem exists_frameHeader (w : BitVec 16) (m : Memory) (len : Nat) (hm : m.holdsExactly len) (hl : 4 ≤ len) :
    ∃ x, frameHeader w m = some x := by
  have hs : ∀ i, i < 4 → ∃ b, m.get i = some b := fun i hi =>
    Option.isSome_iff_exists.1 ((m.isSome_get_of_holdsExactly len i hm).2 (by omega))
  obtain ⟨b2, h2⟩ := hs 2 (by omega)
  obtain ⟨b3, h3⟩ := hs 3 (by omega)
  refine ⟨unpackHeader (w.extractLsb' 8 8) (w.extractLsb' 0 8) b2 b3, ?_⟩
  simp only [frameHeader, h2, h3, Option.bind_eq_bind, Option.bind_some, Option.pure_def]

end Sys2Proof.Machine
end

