-- ==== Sys2Proof/Laws/Outcomes.lean ====
section
/-!
SUPPORT. The shape of every next state an instruction can answer, by its class (R240), with the errors it can end with.
-/

namespace Sys2Proof.Machine

/-- A primitive's next state: it succeeds, changing `BUF` at most, or raises a listed error (R240 (d)). -/
def PrimitiveOutcome (l : List (BitVec 3)) (s t : State) : Prop :=
  (∃ r m, t = { s.succeed r with buf := m }) ∨ ∃ e : CodecError, e.code ∈ l ∧ t = s.raise .primitive e

/-- A decode's next state: it succeeds with a message, or raises a listed error (R240 (b)). -/
def DecodeOutcome (l : List (BitVec 3)) (s t : State) : Prop :=
  (∃ m, t = s.finishDecode m) ∨ ∃ e : CodecError, e.code ∈ l ∧ t = s.raise .decode e

/-- A message encode's next state: it succeeds with a fresh buffer, or raises a listed error (R240 (c)). -/
def EncodeOutcome (l : List (BitVec 3)) (s t : State) : Prop :=
  (∃ m n, t = s.finishEncode m n) ∨ ∃ e : CodecError, e.code ∈ l ∧ t = s.raise .encode e

theorem loadBe_outcome {n off s t k} (h : loadBe n off s k = .next t) : PrimitiveOutcome [1] s t := by
  rcases loadBe_next h with ⟨_, v, _, rfl⟩ | ⟨_, rfl⟩
  · exact .inl ⟨_, s.buf, rfl⟩
  · exact .inr ⟨_, by simp [CodecError.code], rfl⟩

theorem storeBe_outcome {n off val s t} (h : storeBe n off val s = .next t) : PrimitiveOutcome [1, 2] s t := by
  rcases storeBe_next h with ⟨_, _, rfl⟩ | ⟨_, _, rfl⟩ | ⟨_, rfl⟩
  · exact .inl ⟨_, _, rfl⟩
  · exact .inr ⟨_, by simp [CodecError.code], rfl⟩
  · exact .inr ⟨_, by simp [CodecError.code], rfl⟩

theorem storeBe_eight_outcome {off val s t} (h : storeBe 8 off val s = .next t) : PrimitiveOutcome [1] s t := by
  rcases storeBe_next h with ⟨_, _, rfl⟩ | ⟨_, h2, rfl⟩ | ⟨_, rfl⟩
  · exact .inl ⟨_, _, rfl⟩
  · have := val.isLt; omega
  · exact .inr ⟨_, by simp [CodecError.code], rfl⟩

theorem decodeAdp_outcome {hd s t} (h : decodeAdp hd s = .next t) : DecodeOutcome [1] s t := by
  rcases decodeAdp_next h with ⟨_, rfl⟩ | ⟨_, x, b, _, _, rfl⟩
  · exact .inr ⟨_, by simp [CodecError.code], rfl⟩
  · exact .inl ⟨_, rfl⟩

theorem decodeAcmp_outcome {hd s t} (h : decodeAcmp hd s = .next t) : DecodeOutcome [1, 4, 5] s t := by
  rcases decodeAcmp_next h with ⟨_, rfl⟩ | ⟨_, x, _, ⟨e, he, rfl⟩ | ⟨_, b, _, rfl⟩⟩
  · exact .inr ⟨_, by simp [CodecError.code], rfl⟩
  · refine .inr ⟨_, ?_, rfl⟩
    rcases acmpCheck_eq x with ⟨h, _⟩ | ⟨h, _⟩ | ⟨h, _⟩ <;> rw [h] at he <;> cases he <;> simp [CodecError.code]
  · exact .inl ⟨_, rfl⟩

theorem decodeAecp_outcome {hd s t} (h : decodeAecp hd s = .next t) : DecodeOutcome [1, 4, 6] s t := by
  rcases decodeAecp_next h with ⟨_, rfl⟩ | ⟨_, x, c, _, _, ⟨_, rfl⟩ | ⟨_, rfl⟩ | ⟨v, _, h⟩⟩
  · exact .inr ⟨_, by simp [CodecError.code], rfl⟩
  · exact .inr ⟨_, by simp [CodecError.code], rfl⟩
  · exact .inr ⟨_, by simp [CodecError.code], rfl⟩
  · rcases decodeAecpPayload_next h with ⟨_, rfl⟩ | ⟨_, p, bs, _, _, rfl⟩
    · exact .inr ⟨_, by simp [CodecError.code], rfl⟩
    · exact .inl ⟨_, rfl⟩

theorem DecodeOutcome.mono {l l' s t} (h : DecodeOutcome l s t) (hl : ∀ x ∈ l, x ∈ l') : DecodeOutcome l' s t := by
  rcases h with h | ⟨e, he, h⟩
  · exact .inl h
  · exact .inr ⟨e, hl _ he, h⟩

theorem runAcmpFrame_outcome {ty p s t} (h : runAcmpFrame ty p s = .next t) :
    DecodeOutcome (if ty.toNat ≤ 13 then [1, 5] else [1, 4]) s t := by
  rcases decodeAcmp_next h with ⟨_, rfl⟩ | ⟨_, x, hx, ⟨e, he, rfl⟩ | ⟨_, b, _, rfl⟩⟩
  · exact .inr ⟨_, by split <;> simp [CodecError.code], rfl⟩
  · refine .inr ⟨_, ?_, rfl⟩
    have ht := frameHeader_messageType _ _ _ _ _ hx
    rcases acmpCheck_eq x with ⟨h, _⟩ | ⟨h, h2⟩ | ⟨h, h2, _⟩ <;> rw [h] at he <;> cases he <;>
      simp only [acmpMsgtypeDefined, ht, decide_eq_true_eq, decide_eq_false_iff_not] at h2 <;> simp [h2, CodecError.code]
  · exact .inl ⟨_, rfl⟩

theorem runAecpFrame_outcome {ty p s t} (h : runAecpFrame ty p s = .next t) :
    DecodeOutcome (match variantOf ty with | .unsupported => [1, 6] | .unknown => [1, 4] | .variant _ => [1]) s t := by
  rcases decodeAecp_next h with ⟨_, rfl⟩ | ⟨_, x, c, hx, _, ⟨h2, rfl⟩ | ⟨h2, rfl⟩ | ⟨v, h2, h⟩⟩
  · exact .inr ⟨_, by split <;> simp [CodecError.code], rfl⟩
  · have ht := frameHeader_messageType _ _ _ _ _ hx
    rw [ht] at h2
    exact .inr ⟨_, by simp [h2, CodecError.code], rfl⟩
  · have ht := frameHeader_messageType _ _ _ _ _ hx
    rw [ht] at h2
    exact .inr ⟨_, by simp [h2, CodecError.code], rfl⟩
  · have ht := frameHeader_messageType _ _ _ _ _ hx
    rw [ht] at h2
    rcases decodeAecpPayload_next h with ⟨_, rfl⟩ | ⟨_, p, bs, _, _, rfl⟩
    · exact .inr ⟨_, by simp [h2, CodecError.code], rfl⟩
    · exact .inl ⟨_, rfl⟩

/-- Every next state of every instruction has the shape of its class and an error of its row of the raise matrix. -/
theorem exec_outcome {i : Instr} {s t : State} (h : exec i s = .next t) :
    match opClass i with
    | .primitive => PrimitiveOutcome (raises i) s t
    | .decode => DecodeOutcome (raises i) s t
    | .encode => EncodeOutcome (raises i) s t := by
  cases i with
  | rdbits a lo hi =>
    obtain ⟨_, rfl⟩ := execRdbits_next h
    exact .inl ⟨_, s.buf, rfl⟩
  | wrbits a lo hi val =>
    obtain ⟨_, ⟨_, rfl⟩ | ⟨_, rfl⟩⟩ := execWrbits_next h
    · exact .inl ⟨_, s.buf, rfl⟩
    · exact .inr ⟨_, by simp [CodecError.code, raises], rfl⟩
  | rdbe16 off => exact loadBe_outcome h
  | rdbe32 off => exact loadBe_outcome h
  | rdbe64 off => exact loadBe_outcome h
  | wrbe16 off val => exact storeBe_outcome h
  | wrbe32 off val => exact storeBe_outcome h
  | wrbe64 off val => exact storeBe_eight_outcome h
  | cmpbe32 off val => exact loadBe_outcome h
  | dechdr =>
    rcases decodeHeader_next h with ⟨_, rfl⟩ | ⟨_, x, _, rfl⟩
    · exact .inr ⟨_, by simp [CodecError.code, raises], rfl⟩
    · exact .inl ⟨_, rfl⟩
  | enchdr =>
    obtain ⟨x, _, rfl⟩ := encodeHeader_next h
    exact .inl ⟨_, _, rfl⟩
  | decadp => exact decodeAdp_outcome h
  | encadp =>
    obtain ⟨x, b, _, _, rfl⟩ := encodeAdp_next h
    exact .inl ⟨_, _, rfl⟩
  | decacmp => exact decodeAcmp_outcome h
  | encacmp =>
    obtain ⟨x, b, _, _, ⟨e, he, rfl⟩ | ⟨_, rfl⟩⟩ := encodeAcmp_next h
    · refine .inr ⟨_, ?_, rfl⟩
      rcases acmpCheck_eq x with ⟨h, _⟩ | ⟨h, _⟩ | ⟨h, _⟩ <;> rw [h] at he <;> cases he <;> simp [CodecError.code, raises]
    · exact .inl ⟨_, _, rfl⟩
  | decaecp => exact decodeAecp_outcome h
  | encaecp =>
    obtain ⟨x, c, _, _, ⟨_, rfl⟩ | ⟨_, rfl⟩ | ⟨v, _, h⟩⟩ := encodeAecp_next h
    · exact .inr ⟨_, by simp [CodecError.code, raises], rfl⟩
    · exact .inr ⟨_, by simp [CodecError.code, raises], rfl⟩
    · obtain ⟨p, d, _, _, ⟨_, rfl⟩ | ⟨_, bs, _, rfl⟩⟩ := encodeAecpPayload_next h
      · exact .inr ⟨_, by simp [CodecError.code, raises], rfl⟩
      · exact .inl ⟨_, _, rfl⟩
  | decmsg =>
    rcases decodeMessage_next h with ⟨_, rfl⟩ | ⟨_, b, _, ⟨_, h⟩ | ⟨_, h⟩ | ⟨_, h⟩ | ⟨_, _, _, rfl⟩⟩
    · exact .inr ⟨_, by simp [CodecError.code, raises], rfl⟩
    · exact (decodeAdp_outcome h).mono (by decide)
    · exact (decodeAecp_outcome h).mono (by decide)
    · exact (decodeAcmp_outcome h).mono (by decide)
    · exact .inr ⟨_, by simp [CodecError.code, raises], rfl⟩
  | adp p t => exact decodeAdp_outcome h
  | acmpConnectTxCommand p => exact runAcmpFrame_outcome h
  | acmpConnectTxResponse p => exact runAcmpFrame_outcome h
  | acmpDisconnectTxCommand p => exact runAcmpFrame_outcome h
  | acmpDisconnectTxResponse p => exact runAcmpFrame_outcome h
  | acmpGetTxStateCommand p => exact runAcmpFrame_outcome h
  | acmpGetTxStateResponse p => exact runAcmpFrame_outcome h
  | acmpConnectRxCommand p => exact runAcmpFrame_outcome h
  | acmpConnectRxResponse p => exact runAcmpFrame_outcome h
  | acmpDisconnectRxCommand p => exact runAcmpFrame_outcome h
  | acmpDisconnectRxResponse p => exact runAcmpFrame_outcome h
  | acmpGetRxStateCommand p => exact runAcmpFrame_outcome h
  | acmpGetRxStateResponse p => exact runAcmpFrame_outcome h
  | acmpGetTxConnectionCommand p => exact runAcmpFrame_outcome h
  | acmpGetTxConnectionResponse p => exact runAcmpFrame_outcome h
  | acmpReserved14 p => exact runAcmpFrame_outcome h
  | acmpReserved15 p => exact runAcmpFrame_outcome h
  | aecpAvdeccMessageCommand p => exact runAecpFrame_outcome h
  | aecpAvdeccMessageResponse p => exact runAecpFrame_outcome h
  | aecpAddressAccessCommand p => exact runAecpFrame_outcome h
  | aecpAddressAccessResponse p => exact runAecpFrame_outcome h
  | aecpAvcCommand p => exact runAecpFrame_outcome h
  | aecpAvcResponse p => exact runAecpFrame_outcome h
  | aecpVendorUniqueCommand p => exact runAecpFrame_outcome h
  | aecpVendorUniqueResponse p => exact runAecpFrame_outcome h
  | aecpReserved8 p => exact runAecpFrame_outcome h
  | aecpReserved9 p => exact runAecpFrame_outcome h
  | aecpReserved10 p => exact runAecpFrame_outcome h
  | aecpReserved11 p => exact runAecpFrame_outcome h
  | aecpReserved12 p => exact runAecpFrame_outcome h
  | aecpReserved13 p => exact runAecpFrame_outcome h
  | aecpExtendedCommand p => exact runAecpFrame_outcome h
  | aecpExtendedResponse p => exact runAecpFrame_outcome h

end Sys2Proof.Machine
end

