-- ==== Sys2Proof/Laws/PerInstr.lean ====
section
/-!
SUPPORT. Facts about every instruction as syntax, one lemma per constructor.
-/

namespace Sys2Proof.Laws.EncodingShape

/-- An operation is encoded as a request record of twelve octets whose first is its `OP` (R84; log 4), a frame row as the
two octets of its frame word (R111). -/
def Statement (i : Instr) : Prop :=
  match encode i with
  | .request r => (encodeOctets i).length = 12 ∧ (encodeOctets i).head? = some r.op
  | .frame w => encodeOctets i = [w.extractLsb' 8 8, w.extractLsb' 0 8]

theorem rdbits (a : BitVec 8) (lo hi : BitVec 3) : Statement (.rdbits a lo hi) := ⟨rfl, rfl⟩

theorem wrbits (a : BitVec 8) (lo hi : BitVec 3) (val : BitVec 64) : Statement (.wrbits a lo hi val) := ⟨rfl, rfl⟩

theorem rdbe16 (off : BitVec 10) : Statement (.rdbe16 off) := ⟨rfl, rfl⟩

theorem rdbe32 (off : BitVec 10) : Statement (.rdbe32 off) := ⟨rfl, rfl⟩

theorem rdbe64 (off : BitVec 10) : Statement (.rdbe64 off) := ⟨rfl, rfl⟩

theorem wrbe16 (off : BitVec 10) (val : BitVec 64) : Statement (.wrbe16 off val) := ⟨rfl, rfl⟩

theorem wrbe32 (off : BitVec 10) (val : BitVec 64) : Statement (.wrbe32 off val) := ⟨rfl, rfl⟩

theorem wrbe64 (off : BitVec 10) (val : BitVec 64) : Statement (.wrbe64 off val) := ⟨rfl, rfl⟩

theorem cmpbe32 (off : BitVec 10) (val : BitVec 64) : Statement (.cmpbe32 off val) := ⟨rfl, rfl⟩

theorem dechdr : Statement .dechdr := ⟨rfl, rfl⟩

theorem enchdr : Statement .enchdr := ⟨rfl, rfl⟩

theorem decadp : Statement .decadp := ⟨rfl, rfl⟩

theorem encadp : Statement .encadp := ⟨rfl, rfl⟩

theorem decacmp : Statement .decacmp := ⟨rfl, rfl⟩

theorem encacmp : Statement .encacmp := ⟨rfl, rfl⟩

theorem decaecp : Statement .decaecp := ⟨rfl, rfl⟩

theorem encaecp : Statement .encaecp := ⟨rfl, rfl⟩

theorem decmsg : Statement .decmsg := ⟨rfl, rfl⟩

theorem adp (p : FrameBits) (messageType : BitVec 4) : Statement (.adp p messageType) := rfl

theorem acmpConnectTxCommand (p : FrameBits) : Statement (.acmpConnectTxCommand p) := rfl

theorem acmpConnectTxResponse (p : FrameBits) : Statement (.acmpConnectTxResponse p) := rfl

theorem acmpDisconnectTxCommand (p : FrameBits) : Statement (.acmpDisconnectTxCommand p) := rfl

theorem acmpDisconnectTxResponse (p : FrameBits) : Statement (.acmpDisconnectTxResponse p) := rfl

theorem acmpGetTxStateCommand (p : FrameBits) : Statement (.acmpGetTxStateCommand p) := rfl

theorem acmpGetTxStateResponse (p : FrameBits) : Statement (.acmpGetTxStateResponse p) := rfl

theorem acmpConnectRxCommand (p : FrameBits) : Statement (.acmpConnectRxCommand p) := rfl

theorem acmpConnectRxResponse (p : FrameBits) : Statement (.acmpConnectRxResponse p) := rfl

theorem acmpDisconnectRxCommand (p : FrameBits) : Statement (.acmpDisconnectRxCommand p) := rfl

theorem acmpDisconnectRxResponse (p : FrameBits) : Statement (.acmpDisconnectRxResponse p) := rfl

theorem acmpGetRxStateCommand (p : FrameBits) : Statement (.acmpGetRxStateCommand p) := rfl

theorem acmpGetRxStateResponse (p : FrameBits) : Statement (.acmpGetRxStateResponse p) := rfl

theorem acmpGetTxConnectionCommand (p : FrameBits) : Statement (.acmpGetTxConnectionCommand p) := rfl

theorem acmpGetTxConnectionResponse (p : FrameBits) : Statement (.acmpGetTxConnectionResponse p) := rfl

theorem acmpReserved14 (p : FrameBits) : Statement (.acmpReserved14 p) := rfl

theorem acmpReserved15 (p : FrameBits) : Statement (.acmpReserved15 p) := rfl

theorem aecpAvdeccMessageCommand (p : FrameBits) : Statement (.aecpAvdeccMessageCommand p) := rfl

theorem aecpAvdeccMessageResponse (p : FrameBits) : Statement (.aecpAvdeccMessageResponse p) := rfl

theorem aecpAddressAccessCommand (p : FrameBits) : Statement (.aecpAddressAccessCommand p) := rfl

theorem aecpAddressAccessResponse (p : FrameBits) : Statement (.aecpAddressAccessResponse p) := rfl

theorem aecpAvcCommand (p : FrameBits) : Statement (.aecpAvcCommand p) := rfl

theorem aecpAvcResponse (p : FrameBits) : Statement (.aecpAvcResponse p) := rfl

theorem aecpVendorUniqueCommand (p : FrameBits) : Statement (.aecpVendorUniqueCommand p) := rfl

theorem aecpVendorUniqueResponse (p : FrameBits) : Statement (.aecpVendorUniqueResponse p) := rfl

theorem aecpReserved8 (p : FrameBits) : Statement (.aecpReserved8 p) := rfl

theorem aecpReserved9 (p : FrameBits) : Statement (.aecpReserved9 p) := rfl

theorem aecpReserved10 (p : FrameBits) : Statement (.aecpReserved10 p) := rfl

theorem aecpReserved11 (p : FrameBits) : Statement (.aecpReserved11 p) := rfl

theorem aecpReserved12 (p : FrameBits) : Statement (.aecpReserved12 p) := rfl

theorem aecpReserved13 (p : FrameBits) : Statement (.aecpReserved13 p) := rfl

theorem aecpExtendedCommand (p : FrameBits) : Statement (.aecpExtendedCommand p) := rfl

theorem aecpExtendedResponse (p : FrameBits) : Statement (.aecpExtendedResponse p) := rfl

end Sys2Proof.Laws.EncodingShape
end

