-- ==== Sys2Proof/Tests/Slice0.lean ====
section
/-!
SUPPORT. Tests of single steps, their expected results from the spec's own vectors (95_test_vectors.md) or worked out by
hand from the cited rule, and for every statement with hypotheses a state and operands that meet them.
-/

namespace Sys2Proof.Tests

-- One kernel evaluation at a time: in parallel, each waiting theorem holds a thread.
set_option Elab.async false

open Sys2Proof Sys2Proof.Machine

/-! ## Small states -/

/-- The reset state with these octets loaded in `BUF`. -/
def loaded (bs : List Byte) : State :=
  { State.reset with buf := Memory.ofOctets bs, len := BitVec.ofNat 10 bs.length }

/-- The reset state with these message registers. -/
def holding (m : Msg) : State := { State.reset with msg := m }

/-- A part of the next state of an instruction. -/
def after {α : Type} (i : Instr) (s : State) (f : State → α) : Option α :=
  match exec i s with
  | .next t => some (f t)
  | .fault _ => none
  | .refused _ => none

/-- A part of the next state of a step. -/
def afterStep {α : Type} (s : State) (f : State → α) : Option α :=
  match step s with
  | .next t => some (f t)
  | .fault _ => none
  | .refused _ => none

/-- Whether an outcome is this next state. -/
def isNext (o : Result) (t : State) : Bool :=
  match o with
  | .next u => decide (u = t)
  | .fault _ => false
  | .refused _ => false

theorem next_of {o : Result} {t : State} (h : isNext o t = true) : o = .next t := by
  cases o with
  | next u => rw [of_decide_eq_true h]
  | fault _ => cases h
  | refused _ => cases h

/-- Whether an outcome is this refusal. -/
def isRefused (o : Result) (r : Refusal) : Bool :=
  match o with
  | .next _ => false
  | .fault _ => false
  | .refused q => decide (q = r)

theorem refused_of {o : Result} {r : Refusal} (h : isRefused o r = true) : o = .refused r := by
  cases o with
  | next _ => cases h
  | fault _ => cases h
  | refused q => rw [of_decide_eq_true h]

/-- The status registers. -/
def status (s : State) : Option (BitVec 64) × BitVec 3 × Option (BitVec 16) := (s.res, s.err, s.errinfo)

/-- The octets of `BUF` from an offset. -/
def cells (off n : Nat) (s : State) : Option (List Byte) := s.buf.readOctets off n

/-- The buffer of T13 to T15. -/
def t13 : List Byte := [0x12, 0x34, 0x56, 0x78, 0x9a, 0xbc, 0xde, 0xf0]

/-- The ADP frame of T20. -/
def t20 : List Byte :=
  [0xfa, 0x00, 0xf8, 0x40, 0x00, 0x22, 0x97, 0x00, 0x01, 0x02, 0x03, 0x04, 0x00, 0x22, 0x97, 0x00,
   0x00, 0x00, 0x00, 0x01, 0x00, 0x00, 0x00, 0x08, 0x00, 0x02, 0x40, 0x01, 0x00, 0x01, 0x40, 0x01,
   0x00, 0x00, 0x00, 0x03, 0x00, 0x00, 0x00, 0x2a, 0x00, 0x22, 0x97, 0x00, 0x00, 0x00, 0x00, 0x01,
   0x04, 0x00, 0x00, 0x02, 0x00, 0x00, 0x00, 0x00, 0x00, 0x00, 0x00, 0x00, 0x00, 0x00, 0x00, 0x00,
   0x00, 0x00, 0x00, 0x01]

/-- The header of T20. -/
def h20 : Header := ⟨1, 0x7a, 0, 0, 0, 31, 64⟩

/-- The body of T20. -/
def b20 : Discovery :=
  ⟨0x0022970001020304, 0x00229700, 0x00000001, 0x00000008, 2, 0x4001, 1, 0x4001, 0x00000003, 0x0000002a,
   0x0022970000000001, 0x04000002, 0, 0, 0x00000001⟩

/-- The ACMP frame of T30. -/
def t30 : List Byte :=
  [0xfc, 0x07, 0x00, 0x34, 0x00, 0x22, 0x97, 0x00, 0x01, 0x02, 0x00, 0x00, 0x00, 0x22, 0x97, 0x00,
   0x00, 0x00, 0x00, 0xc1, 0x00, 0x22, 0x97, 0x00, 0x01, 0x02, 0x03, 0x04, 0x00, 0x22, 0x97, 0x00,
   0x05, 0x06, 0x07, 0x08, 0x00, 0x00, 0x00, 0x01, 0x91, 0xe0, 0xf0, 0x00, 0x35, 0x01, 0x00, 0x01,
   0x12, 0x34, 0x00, 0x01, 0x00, 0xa0, 0x02, 0x08]

/-- The header of T30. -/
def h30 : Header := ⟨1, 0x7c, 0, 0, 7, 0, 52⟩

/-- The body of T30. -/
def b30 : Connection :=
  ⟨0x0022970001020000, 0x00229700000000c1, 0x0022970001020304, 0x0022970005060708, 0, 1, 0x91e0f0003501, 1, 0x1234,
   0x0001, 0x00a00208⟩

/-- The AECP frame of T40. -/
def t40 : List Byte :=
  [0xfb, 0x00, 0x00, 0x24, 0x00, 0x22, 0x97, 0x00, 0x01, 0x02, 0x03, 0x04, 0x00, 0x22, 0x97, 0x00,
   0x00, 0x00, 0x00, 0xc1, 0x00, 0x07, 0x10, 0x0c, 0x00, 0x22, 0x97, 0x00, 0x80, 0x01, 0x00, 0x01,
   0x00, 0x02, 0x00, 0x03, 0xde, 0xad, 0xbe, 0xef]

/-- The header of T40. -/
def h40 : Header := ⟨1, 0x7b, 0, 0, 0, 0, 36⟩

/-- The common fields of T40. -/
def c40 : AecpCommon := ⟨0x0022970001020304, 0x00229700000000c1, 7⟩

/-- The fixed part of T40. -/
def p40 : VendorMessage := ⟨0x100c, 0x00229700, 0x8001, 1, 2, 3⟩

/-- The message of T40. -/
def m40 : Msg := aecpMsg h40 c40 (.v0 p40) [0xde, 0xad, 0xbe, 0xef]

/-- The request for an instruction. -/
def requestOf (op : BitVec 8) : Request := Request.blank op

/-! ## Well-formedness: each check refuses a term that breaks it -/

/-- R124: LO = 5, HI = 2 is no range. -/
theorem test_wellFormed_refuses_rdbits : (Instr.rdbits 0x00 5 2).wellFormed = false := by decide

/-- R124. -/
theorem test_wellFormed_refuses_wrbits : (Instr.wrbits 0x00 1 0 0).wellFormed = false := by decide

/-- R124: a range of one bit is one. -/
theorem test_wellFormed_accepts_one_bit : (Instr.rdbits 0x00 7 7).wellFormed = true := by decide

/-- R274: 537 octets do not fit `BUF`, 536 do. -/
theorem test_wellFormed_refuses_long_load :
    (HostAction.loadBuffer (List.replicate 537 0)).wellFormed = false ∧
      (HostAction.loadBuffer (List.replicate 536 0)).wellFormed = true := by
  simp only [HostAction.wellFormed, Config.bufCap, List.length_replicate]
  decide

/-- R28: 513 octets do not fit `DATA`, 512 do. -/
theorem test_wellFormed_refuses_long_data :
    (HostAction.setData (List.replicate 513 0)).wellFormed = false ∧
      (HostAction.setData (List.replicate 512 0)).wellFormed = true := by
  simp only [HostAction.wellFormed, Config.dataCap, List.length_replicate]
  decide

/-! ## Decoding: words written out from the tables -/

/-- R84: every `OP` value, other request fields 0. -/
theorem test_decode_operations :
    [0x01, 0x02, 0x03, 0x04, 0x05, 0x06, 0x07, 0x08, 0x09, 0x10, 0x11, 0x12, 0x13, 0x14, 0x15, 0x16, 0x17,
      0x18].map (decodeTableWord 8) =
      [some (.rdbits 0 0 0), some (.wrbits 0 0 0 0), some (.rdbe16 0), some (.rdbe32 0), some (.rdbe64 0),
       some (.wrbe16 0 0), some (.wrbe32 0 0), some (.wrbe64 0 0), some (.cmpbe32 0 0), some .dechdr, some .enchdr,
       some .decadp, some .encadp, some .decacmp, some .encacmp, some .decaecp, some .encaecp, some .decmsg] := by
  decide +kernel

/-- R85: the values around the assigned ones are not assigned. -/
theorem test_decode_unassigned_operations :
    [0x00, 0x0a, 0x0f, 0x19, 0xff].map (decodeTableWord 8) = [none, none, none, none, none] := by decide +kernel

/-- R31, R84: a request by its fields: program D, step 2. -/
theorem test_decode_request_fields :
    decode (.request { op := 0x02, a := 0x7a, lo := 7, hi := 7, off := 0, val := 1 }) = .ok (.wrbits 0x7a 7 7 1) := by
  decide

/-- Log 4: the twelve octets of a request: OP 2, A 0x7a, LO 011, HI 110, OFF 10 0000 0001, VAL. -/
theorem test_decode_request_octets :
    Request.ofOctets [0x02, 0x7a, 0x7a, 0x01, 0x01, 0x23, 0x45, 0x67, 0x89, 0xab, 0xcd, 0xef] =
      .ok { op := 0x02, a := 0x7a, lo := 3, hi := 6, off := 0x201, val := 0x0123456789abcdef } := by
  decide +kernel

/-- Log 4: fewer than twelve octets are no request. -/
theorem test_decode_request_too_short : decodeOctets .request [0x01, 0x02] = .error (.tooShort 2) := by decide

/-- R101: cd 1, subtype 0x7a, sv 0, version 0, message type 15; every message type selects the row. -/
theorem test_decode_adp_row :
    [0xfa00, 0x7a0f, 0x7a9f].map (decodeTableWord 16) =
      [some (.adp ⟨1, 0, 0⟩ 0), some (.adp ⟨0, 0, 0⟩ 15), some (.adp ⟨0, 1, 1⟩ 15)] := by
  decide +kernel

/-- R102, R213: one word per ACMP row, cd, sv and version at different values: subtype 0x7c in bits 14:8. -/
theorem test_decode_acmp_rows :
    [0x7c00, 0xfc01, 0x7c82, 0x7c13, 0x7c24, 0x7c45, 0x7c76, 0xfc87, 0xfc58, 0x7cb9, 0xfcfa, 0xfc0b, 0x7c9c, 0x7c6d,
      0xfcae, 0x7c0f].map (decodeTableWord 16) =
      [some (.acmpConnectTxCommand ⟨0, 0, 0⟩),
       some (.acmpConnectTxResponse ⟨1, 0, 0⟩),
       some (.acmpDisconnectTxCommand ⟨0, 1, 0⟩),
       some (.acmpDisconnectTxResponse ⟨0, 0, 1⟩),
       some (.acmpGetTxStateCommand ⟨0, 0, 2⟩),
       some (.acmpGetTxStateResponse ⟨0, 0, 4⟩),
       some (.acmpConnectRxCommand ⟨0, 0, 7⟩),
       some (.acmpConnectRxResponse ⟨1, 1, 0⟩),
       some (.acmpDisconnectRxCommand ⟨1, 0, 5⟩),
       some (.acmpDisconnectRxResponse ⟨0, 1, 3⟩),
       some (.acmpGetRxStateCommand ⟨1, 1, 7⟩),
       some (.acmpGetRxStateResponse ⟨1, 0, 0⟩),
       some (.acmpGetTxConnectionCommand ⟨0, 1, 1⟩),
       some (.acmpGetTxConnectionResponse ⟨0, 0, 6⟩),
       some (.acmpReserved14 ⟨1, 1, 2⟩),
       some (.acmpReserved15 ⟨0, 0, 0⟩)] := by
  decide +kernel

/-- R103, R212: one word per AECP row, subtype 0x7b in bits 14:8. -/
theorem test_decode_aecp_rows :
    [0x7b00, 0xfb01, 0x7b82, 0x7b13, 0x7b24, 0x7b45, 0x7b76, 0xfb87, 0xfb58, 0x7bb9, 0xfbfa, 0xfb0b, 0x7b9c, 0x7b6d,
      0xfbae, 0x7b0f].map (decodeTableWord 16) =
      [some (.aecpAvdeccMessageCommand ⟨0, 0, 0⟩),
       some (.aecpAvdeccMessageResponse ⟨1, 0, 0⟩),
       some (.aecpAddressAccessCommand ⟨0, 1, 0⟩),
       some (.aecpAddressAccessResponse ⟨0, 0, 1⟩),
       some (.aecpAvcCommand ⟨0, 0, 2⟩),
       some (.aecpAvcResponse ⟨0, 0, 4⟩),
       some (.aecpVendorUniqueCommand ⟨0, 0, 7⟩),
       some (.aecpVendorUniqueResponse ⟨1, 1, 0⟩),
       some (.aecpReserved8 ⟨1, 0, 5⟩),
       some (.aecpReserved9 ⟨0, 1, 3⟩),
       some (.aecpReserved10 ⟨1, 1, 7⟩),
       some (.aecpReserved11 ⟨1, 0, 0⟩),
       some (.aecpReserved12 ⟨0, 1, 1⟩),
       some (.aecpReserved13 ⟨0, 0, 6⟩),
       some (.aecpExtendedCommand ⟨1, 1, 2⟩),
       some (.aecpExtendedResponse ⟨0, 0, 0⟩)] := by
  decide +kernel

/-- R104: the neighbouring subtypes are unknown, whatever the message type. -/
theorem test_decode_unknown_subtypes :
    decode (.frame 0x7900) = .error (.unknownSubtype 0x79) ∧ decode (.frame 0xfd0f) = .error (.unknownSubtype 0x7d) ∧
      decode (.frame 0x8200) = .error (.unknownSubtype 2) := by
  decide +kernel

/-- R90, R111: octet 0 of a frame is the word's high octet. -/
theorem test_decode_frame_octets : decodeOctets .frame [0xfc, 0x07] = .ok (.acmpConnectRxResponse ⟨1, 0, 0⟩) := by
  decide +kernel

/-! ## Bit ranges (T1 to T11) -/

/-- T5. -/
theorem test_rdbits_middle : after (.rdbits 0xa5 2 5) .reset status = some (some 9, 0, none) := by decide +kernel

/-- T11. -/
theorem test_rdbits_refused : exec (.rdbits 0x00 5 2) .reset = .refused (.emptyRange 5 2) :=
  refused_of (by decide +kernel)

/-- T6. -/
theorem test_wrbits_replaces : after (.wrbits 0xff 0 2 5) .reset status = some (some 0xfd, 0, none) := by decide +kernel

/-- T9. -/
theorem test_wrbits_range_error : after (.wrbits 0x00 0 2 8) .reset status = some (none, 2, some 3) := by decide +kernel

/-! ## Buffer primitives (T13 to T19) -/

/-- T13b. -/
theorem test_rdbe16_unaligned : after (.rdbe16 1) (loaded t13) status = some (some 0x3456, 0, none) := by decide +kernel

/-- T13d. -/
theorem test_rdbe16_past_end : after (.rdbe16 7) (loaded t13) status = some (none, 1, some 8) := by decide +kernel

/-- T14b. -/
theorem test_rdbe32_last : after (.rdbe32 4) (loaded t13) status = some (some 0x9abcdef0, 0, none) := by decide +kernel

/-- T14c. -/
theorem test_rdbe32_past_end : after (.rdbe32 5) (loaded t13) status = some (none, 1, some 8) := by decide +kernel

/-- T15a. -/
theorem test_rdbe64_whole : after (.rdbe64 0) (loaded t13) status = some (some 0x123456789abcdef0, 0, none) := by
  decide +kernel

/-- T15b. -/
theorem test_rdbe64_past_end : after (.rdbe64 1) (loaded t13) status = some (none, 1, some 8) := by decide +kernel

/-- T16a. -/
theorem test_wrbe16_stores :
    exec (.wrbe16 1 0xbeef) (loaded [0, 0, 0, 0]) = .next (loaded [0x00, 0xbe, 0xef, 0x00]) :=
  next_of (by decide +kernel)

/-- T16d: the bound before the range. -/
theorem test_wrbe16_bound_first : after (.wrbe16 3 0x10000) (loaded [0, 0, 0, 0]) status = some (none, 1, some 4) := by
  decide +kernel

/-- T17a. -/
theorem test_wrbe32_stores :
    exec (.wrbe32 0 0x00229700) (loaded [0, 0, 0, 0]) = .next (loaded [0x00, 0x22, 0x97, 0x00]) :=
  next_of (by decide +kernel)

/-- T17b. -/
theorem test_wrbe32_range_error :
    exec (.wrbe32 0 0x100000000) (loaded [0, 0, 0, 0]) =
      .next { loaded [0, 0, 0, 0] with err := 2, errinfo := some 32 } :=
  next_of (by decide +kernel)

/-- T18a. -/
theorem test_wrbe64_stores :
    exec (.wrbe64 0 0x0022970001020304) (loaded [0, 0, 0, 0, 0, 0, 0, 0]) =
      .next (loaded [0x00, 0x22, 0x97, 0x00, 0x01, 0x02, 0x03, 0x04]) :=
  next_of (by decide +kernel)

/-- T18b. -/
theorem test_wrbe64_past_end :
    after (.wrbe64 1 0) (loaded [0, 0, 0, 0, 0, 0, 0, 0]) status = some (none, 1, some 8) := by decide +kernel

/-- T19a. -/
theorem test_cmpbe32_equal :
    after (.cmpbe32 0 0x00229700) (loaded [0x00, 0x22, 0x97, 0x00]) status = some (some 1, 0, none) := by decide +kernel

/-- T19c: a value above 32 bits equals no 32-bit integer. -/
theorem test_cmpbe32_whole_value :
    after (.cmpbe32 0 0x100229700) (loaded [0x00, 0x22, 0x97, 0x00]) status = some (some 0, 0, none) := by decide +kernel

/-! ## Header (T12) -/

/-- T12c. -/
theorem test_dechdr_every_field :
    exec .dechdr (loaded [0x7b, 0x95, 0xa1, 0x23]) =
      .next { loaded [0x7b, 0x95, 0xa1, 0x23] with msg := headerMsg ⟨0, 0x7b, 1, 1, 5, 20, 291⟩ } :=
  next_of (by decide +kernel)

/-- T12d. -/
theorem test_dechdr_truncated : after .dechdr (loaded [0xfa, 0x00, 0xf8]) status = some (none, 1, some 3) := by
  decide +kernel

/-- T12, data length 256 and valid time 31: the carry into octet 2. -/
theorem test_enchdr_carry :
    exec .enchdr (holding (headerMsg ⟨1, 0x7a, 0, 0, 0, 31, 256⟩)) =
      .next { loaded [0xfa, 0x00, 0xf9, 0x00] with msg := headerMsg ⟨1, 0x7a, 0, 0, 0, 31, 256⟩ } :=
  next_of (by decide +kernel)

/-- T12g. -/
theorem test_enchdr_refused :
    exec .enchdr (holding { headerMsg h20 with h := { HRegs.of h20 with dataLength := none } }) =
      .refused .encodeReadsNone :=
  refused_of (by decide +kernel)

/-! ## ADP (T20 to T29) -/

/-- T20. -/
theorem test_decadp_frame : exec .decadp (loaded t20) = .next { loaded t20 with msg := adpMsg h20 b20 } :=
  next_of (by decide +kernel)

/-- T21. -/
theorem test_decadp_truncated :
    exec .decadp (loaded (t20.take 67)) = .next { loaded (t20.take 67) with err := 1, errinfo := some 67 } :=
  next_of (by decide +kernel)

/-- T25. -/
theorem test_encadp_frame :
    exec .encadp (holding (adpMsg h20 b20)) = .next { loaded t20 with msg := adpMsg h20 b20 } :=
  next_of (by decide +kernel)

/-- T29. -/
theorem test_encadp_refused :
    exec .encadp (holding { adpMsg h20 b20 with adp := { AdpRegs.of b20 with gmId := none } }) =
      .refused .encodeReadsNone :=
  refused_of (by decide +kernel)

/-! ## ACMP (T30 to T39) -/

/-- T30. -/
theorem test_decacmp_frame : exec .decacmp (loaded t30) = .next { loaded t30 with msg := acmpMsg h30 b30 } :=
  next_of (by decide +kernel)

/-- T35: the message type before the status. -/
theorem test_decacmp_type_first :
    after .decacmp (loaded ((t30.set 1 0x0f).set 2 0xa0)) status = some (none, 4, some 15) := by decide +kernel

/-- T38. -/
theorem test_encacmp_status_31 :
    after .encacmp (holding (acmpMsg ⟨1, 0x7c, 0, 0, 7, 31, 52⟩ b30)) (cells 0 56) =
      some (some (t30.set 2 0xf8)) := by
  decide +kernel

/-- T39. -/
theorem test_encacmp_status_16 :
    exec .encacmp (holding (acmpMsg ⟨1, 0x7c, 0, 0, 7, 16, 52⟩ b30)) =
      .next { holding (acmpMsg ⟨1, 0x7c, 0, 0, 7, 16, 52⟩ b30) with err := 5, errinfo := some 16 } :=
  next_of (by decide +kernel)

/-! ## AECP (T40 to T54) -/

/-- T40. -/
theorem test_decaecp_vendor_message : exec .decaecp (loaded t40) = .next { loaded t40 with msg := m40 } :=
  next_of (by decide +kernel)

/-- T45: the type before the variant's length. -/
theorem test_decaecp_unsupported :
    after .decaecp (loaded ((t40.take 22).set 1 0x0e)) status = some (none, 6, some 14) := by decide +kernel

/-- T41. -/
theorem test_encaecp_address_access :
    after .encaecp
      (holding (aecpMsg ⟨1, 0x7b, 0, 0, 3, 1, 26⟩ ⟨0x0022970001020304, 0x00229700000000c1, 8⟩ (.v1 ⟨0x000a⟩)
        [1, 2, 3, 4, 5, 6])) (fun t => (t.len, cells 0 30 t)) =
      some (30, some
        [0xfb, 0x03, 0x08, 0x1a, 0x00, 0x22, 0x97, 0x00, 0x01, 0x02, 0x03, 0x04, 0x00, 0x22, 0x97, 0x00,
         0x00, 0x00, 0x00, 0xc1, 0x00, 0x08, 0x00, 0x0a, 0x01, 0x02, 0x03, 0x04, 0x05, 0x06]) := by decide +kernel

/-- T54l: only the selected variant group is read. -/
theorem test_encaecp_reads_selected_group :
    after .encaecp (holding (aecpMsg ⟨1, 0x7b, 0, 0, 2, 0, 20⟩ c40 (.v1 ⟨1⟩) [])) status =
      some (none, 0, none) := by
  decide +kernel

/-! ## Dispatch (T60 to T69) -/

/-- T67. -/
theorem test_decmsg_unknown_subtype :
    exec .decmsg (loaded (t20.set 0 0xfd)) = .next { loaded (t20.set 0 0xfd) with err := 3, errinfo := some 0x7d } :=
  next_of (by decide +kernel)

/-- T62. -/
theorem test_decmsg_aecp : exec .decmsg (loaded t40) = .next { loaded t40 with msg := m40 } :=
  next_of (by decide +kernel)

/-! ## Frame rows -/

/-- T26 by the row ADP: message type 15. -/
theorem test_row_adp :
    exec (.adp ⟨1, 0, 0⟩ 15) (loaded (t20.set 1 0x0f)) =
      .next { loaded (t20.set 1 0x0f) with msg := adpMsg ⟨1, 0x7a, 0, 0, 15, 31, 64⟩ b20 } :=
  next_of (by decide +kernel)

/-- T30 by the row of message type 7. -/
theorem test_row_acmp : exec (.acmpConnectRxResponse ⟨1, 0, 0⟩) (loaded t30) =
    .next { loaded t30 with msg := acmpMsg h30 b30 } :=
  next_of (by decide +kernel)

/-- T34b by the row of message type 14. -/
theorem test_row_acmp_reserved :
    after (.acmpReserved14 ⟨1, 0, 0⟩) (loaded (t30.set 1 0x0e)) status = some (none, 4, some 14) := by decide +kernel

/-- T50 by the row of message type 1. -/
theorem test_row_aecp :
    exec (.aecpAvdeccMessageResponse ⟨1, 0, 0⟩) (loaded (t40.set 1 0x01)) =
      .next { loaded (t40.set 1 0x01) with
        msg := aecpMsg ⟨1, 0x7b, 0, 0, 1, 0, 36⟩ c40 (.v0 p40) [0xde, 0xad, 0xbe, 0xef] } :=
  next_of (by decide +kernel)

/-- T47b and T45b by the rows of message types 8, 13 and 15. -/
theorem test_row_aecp_reserved :
    after (.aecpReserved8 ⟨1, 0, 0⟩) (loaded (t40.set 1 0x08)) status = some (none, 4, some 8) ∧
      after (.aecpReserved13 ⟨1, 0, 0⟩) (loaded (t40.set 1 0x0d)) status = some (none, 4, some 13) ∧
      after (.aecpExtendedResponse ⟨1, 0, 0⟩) (loaded (t40.set 1 0x0f)) status = some (none, 6, some 15) := by
  decide +kernel

/-! ## Steps, host actions, placing an instruction -/

/-- A pending request is taken by the next step. -/
theorem test_step_request :
    step { loaded t13 with inputs := [.request (.access 0x03 6 0)] } = .next { loaded t13 with res := some 0xdef0 } :=
  next_of (by decide +kernel)

/-- T63 through the table: no row has subtype 2. -/
theorem test_step_frame_unknown :
    afterStep { loaded [0x82, 0, 0, 0, 0, 0, 0, 0, 0, 0] with inputs := [.frame] } status = some (none, 3, some 2) := by
  decide +kernel

/-- R39: a read of a register that holds nothing is refused. -/
theorem test_step_read_refused :
    step { State.reset with inputs := [.host (.read .res)] } = .refused (.readOfNone .res) :=
  refused_of (by decide +kernel)

/-- R32: RES of a fetched operation that is placed with `withFetchWord`: RDBITS of bit 0 of 0. -/
theorem test_withFetchWord_request :
    afterStep (State.reset.withFetchWord 8 0x01) status = some (some 0, 0, none) := by decide +kernel

/-- A placed ADP frame of zeros decodes (R151). -/
theorem test_withFetchWord_frame :
    afterStep (State.reset.withFetchWord 16 0x7a00) (fun t => (t.err, t.msg.h.subtype, t.msg.adp.entityType)) =
      some (0, some 0x7a, some 0) := by decide +kernel

/-! ## Witnesses: states and operands that meet the hypotheses of each statement -/

/-- Loaded octets meet the buffer invariant. -/
theorem bufferOk_loaded (bs : List Byte) (h : bs.length ≤ 536) : BufferOk (loaded bs) := by
  have e : (loaded bs).len.toNat = bs.length := by
    rw [loaded, BitVec.toNat_ofNat]
    omega
  exact ⟨by rw [e]; exact Memory.addresses_ofOctets bs, by rw [e]; exact h⟩

theorem headerAt_t20 : HeaderAt (loaded t20).buf h20 := (readHeader_eq_some _ _).1 (by decide +kernel)

theorem adpFrame_t20 : AdpFrame (loaded t20).buf h20 b20 :=
  ⟨headerAt_t20, (readDiscovery_eq_some _ _).1 (by decide +kernel)⟩

theorem acmpFrame_t30 : AcmpFrame (loaded t30).buf h30 b30 :=
  ⟨(readHeader_eq_some _ _).1 (by decide +kernel), (readConnection_eq_some _ _).1 (by decide +kernel)⟩

theorem headerAt_t40 (o1 : Byte) (h : Header) (hh : readHeader (loaded (t40.set 1 o1)).buf = some h) :
    HeaderAt (loaded (t40.set 1 o1)).buf h := (readHeader_eq_some _ _).1 hh

theorem aecpFrame_t40 : AecpFrame (loaded t40).buf h40 c40 (.v0 p40) [0xde, 0xad, 0xbe, 0xef] :=
  ⟨(readHeader_eq_some _ _).1 (by decide +kernel), (readAecpCommon_eq_some _ _).1 (by decide +kernel),
   (readVendorMessage_eq_some _ _).1 (by decide +kernel), ((readOctets_eq_some_iff _ _ 4 _).1 (by decide +kernel)).2⟩

/-- Values at both sides of each clause of the bit-range statements: a range of one bit, a whole octet, no range; the
largest value that fits, the smallest that does not; ranges that touch. -/
theorem test_witness_bit_ranges :
    (7#3).toNat ≤ (7#3).toNat ∧ (0#3).toNat ≤ (7#3).toNat ∧ ¬ (1#3).toNat ≤ (0#3).toNat ∧
      (0xff#64).toNat < 2 ^ ((7#3).toNat - (0#3).toNat + 1) ∧ ¬ (0x100#64).toNat < 2 ^ ((7#3).toNat - (0#3).toNat + 1) ∧
      (3#3).toNat < (4#3).toNat := by decide

/-- RdbeReadsBigEndian, Cmpbe32Compares: a buffer of 8 octets, the last offset inside and the first outside. -/
theorem test_witness_reads :
    BufferOk (loaded t13) ∧ (6#10).toNat + 2 ≤ (loaded t13).len.toNat ∧ ¬ (7#10).toNat + 2 ≤ (loaded t13).len.toNat ∧
      (4#10).toNat + 4 ≤ (loaded t13).len.toNat ∧ ¬ (5#10).toNat + 4 ≤ (loaded t13).len.toNat ∧
      (0#10).toNat + 8 ≤ (loaded t13).len.toNat ∧ ¬ (1#10).toNat + 8 ≤ (loaded t13).len.toNat :=
  ⟨bufferOk_loaded t13 (by decide), by decide⟩

/-- WrbeStoresBigEndian: the same offsets, the largest value that fits and the smallest that does not. -/
theorem test_witness_writes :
    ¬ (loaded t13).len.toNat < (6#10).toNat + 2 ∧ (loaded t13).len.toNat < (7#10).toNat + 2 ∧
      ¬ 2 ^ 16 ≤ (0xffff#64).toNat ∧ 2 ^ 16 ≤ (0x10000#64).toNat ∧ ¬ 2 ^ 32 ≤ (0xffffffff#64).toNat ∧
      2 ^ 32 ≤ (0x100000000#64).toNat := by decide

/-- RdbeAfterWrbe. -/
theorem test_witness_RdbeAfterWrbe :
    (∃ t, exec (.wrbe16 6 0xffff) (loaded t13) = .next t ∧ t.err = 0) ∧
      (∃ t, exec (.wrbe32 4 0xffffffff) (loaded t13) = .next t ∧ t.err = 0) ∧
      (∃ t, exec (.wrbe64 0 0xffffffffffffffff) (loaded t13) = .next t ∧ t.err = 0) :=
  ⟨⟨_, rfl, rfl⟩, ⟨_, rfl, rfl⟩, ⟨_, rfl, rfl⟩⟩

/-- MixedWidthReadsAgree. -/
theorem test_witness_MixedWidthReadsAgree :
    BufferOk (loaded t13) ∧ (6#10).toNat = (4#10).toNat + 2 ∧ (4#10).toNat + 4 ≤ (loaded t13).len.toNat ∧
      (4#10).toNat = (0#10).toNat + 4 ∧ (0#10).toNat + 8 ≤ (loaded t13).len.toNat :=
  ⟨bufferOk_loaded t13 (by decide), by decide⟩

/-- The header, ADP and ACMP decodes and DECMSG: good buffers one octet short and just long enough. -/
theorem test_witness_decodes :
    BufferOk (loaded (t20.take 3)) ∧ BufferOk (loaded (t20.take 4)) ∧ BufferOk (loaded (t20.take 67)) ∧
      BufferOk (loaded t20) ∧ BufferOk (loaded (t30.take 55)) ∧ BufferOk (loaded t30) ∧
      (loaded (t20.take 3)).len.toNat < 4 ∧ 4 ≤ (loaded (t20.take 4)).len.toNat ∧
      (loaded (t20.take 67)).len.toNat < 68 ∧ 68 ≤ (loaded t20).len.toNat ∧
      (loaded (t30.take 55)).len.toNat < 56 ∧ 56 ≤ (loaded t30).len.toNat :=
  ⟨bufferOk_loaded _ (by decide), bufferOk_loaded _ (by decide), bufferOk_loaded _ (by decide),
   bufferOk_loaded _ (by decide), bufferOk_loaded _ (by decide), bufferOk_loaded _ (by decide), by decide⟩

/-- DecacmpDecodesConnection: good buffers of 56 octets with message types 13 and 14 and with statuses 15, 16, 30, 31. -/
theorem test_witness_DecacmpDecodesConnection :
    BufferOk (loaded (t30.set 1 0x0e)) ∧
      (readHeader (loaded (t30.set 1 0x0d)).buf).map (·.messageType) = some 13 ∧
      (readHeader (loaded (t30.set 1 0x0e)).buf).map (·.messageType) = some 14 ∧
      [0x78, 0x80, 0xf0, 0xf8].map (fun o => (readHeader (loaded (t30.set 2 o)).buf).map (·.validTime)) =
        [some 15, some 16, some 30, some 31] :=
  ⟨bufferOk_loaded _ (by decide), by decide +kernel⟩

/-- EnchdrEncodesHeader, HeaderRoundTrip, EncadpEncodesDiscovery, AdpRoundTrip: registers that hold a message, and a
register that holds none. -/
theorem test_witness_header_and_adp_encodes :
    (holding (adpMsg h20 b20)).msg.h = .of h20 ∧ (holding (adpMsg h20 b20)).msg.adp = .of b20 ∧
      (∃ r, State.reset.msg.h.get r = none) ∧ (∃ r, State.reset.msg.adp.get r = none) :=
  ⟨rfl, rfl, ⟨.cd, rfl⟩, ⟨.gmId, rfl⟩⟩

/-- EncacmpEncodesConnection and the first clause of AcmpRoundTrip: each side of each clause. -/
theorem test_witness_acmp_encodes :
    (holding (acmpMsg h30 b30)).msg.h = .of h30 ∧ (holding (acmpMsg h30 b30)).msg.acmp = .of b30 ∧
      h30.messageType.toNat ≤ 13 ∧ h30.validTime.toNat ≤ 15 ∧ 13 < (14#4).toNat ∧ 16 ≤ (16#5).toNat ∧
      (30#5).toNat ≤ 30 ∧ (31#5).toNat = 31 ∧ (∃ r, State.reset.msg.acmp.get r = none) :=
  ⟨rfl, rfl, by decide, by decide, by decide, by decide, by decide, by decide, ⟨.flags, rfl⟩⟩

/-- The second clause of AcmpRoundTrip: a successful DECACMP. -/
theorem test_witness_AcmpRoundTrip : ∃ t, exec .decacmp (loaded t30) = .next t ∧ t.err = 0 :=
  ⟨_, test_decacmp_frame, rfl⟩

/-- DecaecpErrorsInOrder and the four variant statements: a header for each message type at the ends of the ranges, at
the shortest length that decodes and one octet below. -/
theorem test_witness_DecaecpErrorsInOrder :
    (loaded (t40.take 21)).len.toNat < 22 ∧ BufferOk (loaded (t40.take 21)) ∧
      (∀ o1 ∈ ([0x00, 0x01, 0x02, 0x03, 0x04, 0x05, 0x06, 0x07, 0x08, 0x0d, 0x0e, 0x0f] : List Byte),
        BufferOk (loaded (t40.set 1 o1)) ∧
          ∃ h, HeaderAt (loaded (t40.set 1 o1)).buf h ∧ h.messageType = o1.extractLsb' 0 4) ∧
      (loaded (t40.take 35)).len.toNat < 36 ∧ 36 ≤ (loaded (t40.take 36)).len.toNat ∧
      (loaded (t40.take 23)).len.toNat < 24 ∧ 24 ≤ (loaded (t40.take 24)).len.toNat ∧
      (loaded (t40.take 27)).len.toNat < 28 ∧ 28 ≤ (loaded (t40.take 28)).len.toNat := by
  refine ⟨by decide, bufferOk_loaded _ (by decide), fun o1 _ => ⟨bufferOk_loaded _ (by simp [t40]), ?_⟩, by decide⟩
  exact ⟨_, headerAt_t40 o1 (unpackHeader 0xfb o1 0x00 0x24) rfl, rfl⟩

/-- The four variant statements at the shortest buffer: T48b, T49b, T49c, T49e. -/
theorem test_witness_aecp_variants :
    (BufferOk (loaded (t40.take 36)) ∧ HeaderAt (loaded (t40.take 36)).buf h40) ∧
      (BufferOk (loaded ((t40.set 1 0x02).take 24)) ∧
        HeaderAt (loaded ((t40.set 1 0x02).take 24)).buf { h40 with messageType := 2 }) ∧
      (BufferOk (loaded ((t40.set 1 0x05).take 24)) ∧
        HeaderAt (loaded ((t40.set 1 0x05).take 24)).buf { h40 with messageType := 5 }) ∧
      (BufferOk (loaded ((t40.set 1 0x07).take 28)) ∧
        HeaderAt (loaded ((t40.set 1 0x07).take 28)).buf { h40 with messageType := 7 }) :=
  ⟨⟨bufferOk_loaded _ (by decide), (readHeader_eq_some _ _).1 (by decide +kernel)⟩,
   ⟨bufferOk_loaded _ (by decide), (readHeader_eq_some _ _).1 (by decide +kernel)⟩,
   ⟨bufferOk_loaded _ (by decide), (readHeader_eq_some _ _).1 (by decide +kernel)⟩,
   ⟨bufferOk_loaded _ (by decide), (readHeader_eq_some _ _).1 (by decide +kernel)⟩⟩

/-- EncaecpEncodesMessage: registers that hold a message with any data, for V0 with data of 500 octets (the budget) and of
501; the four message-type ranges. -/
theorem test_witness_EncaecpEncodesMessage :
    (∀ bs : List Byte, (holding (aecpMsg h40 c40 (.v0 p40) bs)).msg.h = .of h40 ∧
      (holding (aecpMsg h40 c40 (.v0 p40) bs)).msg.aecp = .of c40 ∧
      (holding (aecpMsg h40 c40 (.v0 p40) bs)).msg.data = Memory.ofOctets bs ∧
      (holding (aecpMsg h40 c40 (.v0 p40) bs)).msg.dlen = some (BitVec.ofNat 10 bs.length) ∧
      (holding (aecpMsg h40 c40 (.v0 p40) bs)).msg.v0 = .of p40) ∧
      h40.messageType.toNat ≤ 1 ∧ (List.replicate 500 (0 : Byte)).length ≤ 512 ∧
      Variant.v0.dataStart + (List.replicate 500 (0 : Byte)).length ≤ 536 ∧
      ¬ Variant.v0.dataStart + (List.replicate 501 (0 : Byte)).length ≤ 536 ∧
      Variant.v1.dataStart + (List.replicate 512 (0 : Byte)).length ≤ 536 ∧
      Variant.v2.dataStart + (List.replicate 512 (0 : Byte)).length ≤ 536 ∧
      Variant.v3.dataStart + (List.replicate 508 (0 : Byte)).length ≤ 536 ∧
      ¬ Variant.v3.dataStart + (List.replicate 509 (0 : Byte)).length ≤ 536 :=
  ⟨fun _ => ⟨rfl, rfl, rfl, rfl, rfl⟩, by decide, by simp only [List.length_replicate]; decide⟩

/-- EncaecpRefusalsAndTypeErrors: a reset register file, and registers that hold header and common fields with message
types 7, 8, 13 and 14 and nothing else. -/
theorem test_witness_EncaecpRefusalsAndTypeErrors :
    (∃ r, State.reset.msg.h.get r = none) ∧
      (∀ ty : BitVec 4, let s := holding { headerMsg { h40 with messageType := ty } with aecp := .of c40 }
        s.msg.h = .of { h40 with messageType := ty } ∧ s.msg.aecp = .of c40 ∧ s.msg.dlen = none ∧
          s.msg.v0.modeLen = none ∧ s.msg.v1.modeLen = none ∧ s.msg.v2.length = none ∧ s.msg.v3.protocolId = none) ∧
      (∃ i, (holding { m40 with data := [] }).msg.dlen = some 4 ∧ (4#10).toNat ≤ 500 ∧ i < (4#10).toNat ∧
        (holding { m40 with data := [] }).msg.data.get i = none) :=
  ⟨⟨.subtype, rfl⟩, fun _ => ⟨rfl, rfl, rfl, rfl, rfl, rfl, rfl⟩, ⟨3, rfl, by decide, by decide, rfl⟩⟩

/-- AecpReencodeReproduces. -/
theorem test_witness_AecpReencodeReproduces :
    BufferOk (loaded t40) ∧ ∃ t, exec .decaecp (loaded t40) = .next t ∧ t.err = 0 :=
  ⟨bufferOk_loaded _ (by decide), _, test_decaecp_vendor_message, rfl⟩

/-- AecpDecodeOfEncode, AecpResponseBitStandsAlone, the third clause of DecmsgAfterEncode. -/
theorem test_witness_aecp_encode :
    DataOk (holding m40).msg ∧ (holding m40).msg.h.messageType = some 0 ∧
      ∃ t, exec .encaecp (holding m40) = .next t ∧ t.err = 0 :=
  ⟨⟨by decide, by decide⟩, rfl, { loaded t40 with msg := m40 },
   next_of (by decide +kernel), rfl⟩

/-- DecmsgDecodesEachKind, AdpRowDecodes, AcmpRowsDecode, AecpRowsDecode: a frame of each kind in a good buffer. -/
theorem test_witness_frames :
    (BufferOk (loaded t20) ∧ AdpFrame (loaded t20).buf h20 b20 ∧ h20.subtype = 0x7a#7 ∧
        68 ≤ (loaded t20).len.toNat) ∧
      (BufferOk (loaded t30) ∧ AcmpFrame (loaded t30).buf h30 b30 ∧ h30.subtype = 0x7c#7 ∧ h30.messageType = 7#4 ∧
        56 ≤ (loaded t30).len.toNat ∧ h30.messageType.toNat ≤ 13 ∧ h30.validTime.toNat ≤ 15) ∧
      (BufferOk (loaded t40) ∧ AecpFrame (loaded t40).buf h40 c40 (.v0 p40) [0xde, 0xad, 0xbe, 0xef] ∧
        h40.subtype = 0x7b#7 ∧ h40.messageType = 0#4 ∧ variantOf h40.messageType = .variant .v0 ∧
        (loaded t40).len.toNat = Variant.v0.dataStart + 4) :=
  ⟨⟨bufferOk_loaded _ (by decide), adpFrame_t20, by decide⟩, ⟨bufferOk_loaded _ (by decide), acmpFrame_t30, by decide⟩,
   ⟨bufferOk_loaded _ (by decide), aecpFrame_t40, by decide⟩⟩

/-- The rows of reserved types, and rows on short frames: good buffers on each side of 56 and 22 octets. -/
theorem test_witness_reserved_rows :
    BufferOk (loaded (t30.take 55)) ∧ (loaded (t30.take 55)).len.toNat < 56 ∧ BufferOk (loaded t30) ∧
      ¬ (loaded t30).len.toNat < 56 ∧ BufferOk (loaded (t40.take 21)) ∧ (loaded (t40.take 21)).len.toNat < 22 ∧
      BufferOk (loaded (t40.take 22)) ∧ ¬ (loaded (t40.take 22)).len.toNat < 22 ∧
      (loaded (t40.take 22)).len.toNat < Variant.v1.dataStart :=
  ⟨bufferOk_loaded _ (by decide), by decide, bufferOk_loaded _ (by decide), by decide, bufferOk_loaded _ (by decide),
   by decide, bufferOk_loaded _ (by decide), by decide⟩

/-- DecmsgAfterEncode: a successful encode of each of ADP and ACMP, with the encoder's subtype and with another. -/
theorem test_witness_DecmsgAfterEncode :
    (∃ t, exec .encadp (holding (adpMsg h20 b20)) = .next t) ∧ (holding (adpMsg h20 b20)).msg.h.subtype = some 0x7a ∧
      (∃ t, exec .encadp (holding (adpMsg h30 b20)) = .next t) ∧ (holding (adpMsg h30 b20)).msg.h.subtype ≠ some 0x7a ∧
      (∃ t, exec .encacmp (holding (acmpMsg h30 b30)) = .next t ∧ t.err = 0) :=
  ⟨⟨_, test_encadp_frame⟩, rfl, ⟨_, rfl⟩, by decide, ⟨_, rfl, rfl⟩⟩

/-- FrameTableDispatchIsDecmsg. -/
theorem test_witness_FrameTableDispatchIsDecmsg :
    BufferOk { loaded t20 with inputs := [.frame] } ∧
      ({ loaded t20 with inputs := [.frame] } : State).inputs = [.frame] :=
  ⟨bufferOk_loaded t20 (by decide), rfl⟩

/-- The statements about every instruction that answers a next state: one of each class that fails and one that
succeeds, from a buffer in canonical form. -/
theorem test_witness_every_instruction :
    (loaded t13).buf.wf = true ∧
      (∃ t, exec (.rdbe16 7) (loaded t13) = .next t ∧ t.err ≠ 0 ∧ opClass (.rdbe16 7) = .primitive) ∧
      (∃ t, exec .decadp (loaded t13) = .next t ∧ t.err ≠ 0 ∧ opClass .decadp = .decode) ∧
      (∃ t, exec .encacmp (holding (acmpMsg ⟨1, 0x7c, 0, 0, 7, 16, 52⟩ b30)) = .next t ∧ t.err ≠ 0 ∧
        opClass .encacmp = .encode) ∧
      (∃ t, exec .dechdr (loaded t13) = .next t ∧ t.err = 0) :=
  ⟨by decide, ⟨_, rfl, by decide, rfl⟩, ⟨_, rfl, by decide, rfl⟩, ⟨_, rfl, by decide, rfl⟩, ⟨_, rfl, rfl⟩⟩

/-- OutputsDependOnDeclaredInputs: states that agree only where each clause asks. -/
theorem test_witness_OutputsDependOnDeclaredInputs :
    (∃ s' : State, s'.buf = (loaded t13).buf ∧ s'.len = (loaded t13).len ∧ s'.msg = (loaded t13).msg ∧
        s' ≠ loaded t13) ∧
      (opClass .dechdr = .decode ∧ ({ loaded t13 with msg := m40 } : State).buf = (loaded t13).buf ∧
        ∃ t, exec .dechdr (loaded t13) = .next t) ∧
      (opClass .enchdr = .encode ∧ ({ holding m40 with buf := [(0, 1)], len := 1 } : State).msg = (holding m40).msg ∧
        ∃ t, exec .enchdr (holding m40) = .next t) :=
  ⟨⟨{ loaded t13 with res := some 5, err := 3, errinfo := some 1, inputs := [.frame] }, rfl, rfl, rfl, by decide⟩,
   ⟨rfl, rfl, _, rfl⟩, ⟨rfl, rfl, _, rfl⟩⟩

/-- RegistersDoNotAlias: two registers of different groups. -/
theorem test_witness_RegistersDoNotAlias : MsgReg.acmp .sequenceId ≠ .aecp .sequenceId := by decide

/-- StepKeepsInvariant, NoFaultFromInvariant: a state with a buffer, a message and a pending request meets the invariant,
and the step answers a next state. -/
theorem test_witness_invariant :
    Inv { loaded t40 with msg := m40, inputs := [.request (requestOf 0x17)] } ∧
      ∃ t, step { loaded t40 with msg := m40, inputs := [.request (requestOf 0x17)] } = .next t :=
  ⟨⟨bufferOk_loaded t40 (by decide), ⟨by decide, by decide⟩, by decide⟩, { loaded t40 with msg := m40 },
   next_of (by decide +kernel)⟩

/-- StepRunsDecodedInstruction: a pending request, and a pending demand for a frame of exactly four octets. -/
theorem test_witness_StepRunsDecodedInstruction :
    decode (.request (requestOf 0x18)) = .ok .decmsg ∧
      4 ≤ (loaded [0xfa, 0x00, 0x00, 0x00]).len.toNat ∧ (loaded [0xfa, 0x00, 0x00, 0x00]).buf.get 0 = some 0xfa ∧
      (loaded [0xfa, 0x00, 0x00, 0x00]).buf.get 1 = some 0x00 ∧
      decode (.frame (0xfa#8 ++ 0x00#8)) = .ok (.adp ⟨1, 0, 0⟩ 0) := by decide +kernel

/-- UnassignedOpRefused: the unassigned values next to the assigned ones. -/
theorem test_witness_UnassignedOpRefused :
    ∀ op ∈ ([0, 10, 15, 25, 255] : List (BitVec 8)),
      ¬ (1 ≤ op.toNat ∧ op.toNat ≤ 9) ∧ ¬ (16 ≤ op.toNat ∧ op.toNat ≤ 24) := by
  decide

/-- FirstRequestAfterReset: a decode, an encode and a range. -/
theorem test_witness_FirstRequestAfterReset :
    opClass .decmsg = .decode ∧ opClass .encaecp = .encode ∧ (0#3).toNat ≤ (0#3).toNat := by decide

/-- HostActions, HostReads: lengths and offsets on each side of each bound; a cell that holds an octet and one that holds
none. -/
theorem test_witness_host :
    (List.replicate 536 (0 : Byte)).length ≤ 536 ∧ ¬ (List.replicate 537 (0 : Byte)).length ≤ 536 ∧
      (List.replicate 512 (0 : Byte)).length ≤ 512 ∧ ¬ (List.replicate 513 (0 : Byte)).length ≤ 512 ∧
      (7#10).toNat < (loaded t13).len.toNat ∧ ¬ (8#10).toNat < (loaded t13).len.toNat ∧
      (loaded t13).buf.get 7 = some 0xf0 ∧ (loaded t13).buf.get 8 = none := by
  simp only [List.length_replicate]
  decide

/-- InstancesIndependent: two instances with work pending, and both steps answer. -/
theorem test_witness_InstancesIndependent :
    let p : Platform := [{ loaded t13 with inputs := [.request (.access 0x03 0 0)] },
                         { State.reset with inputs := [.host (.loadBuffer [0x7a])] }]
    (0 : Nat) ≠ 1 ∧ (∃ q r, p.stepAt 0 = .next q ∧ q.stepAt 1 = .next r) :=
  ⟨by decide, _, _, rfl, rfl⟩

/-- EncodeOfDecodedFrame. -/
theorem test_witness_EncodeOfDecodedFrame : decode (.frame 0xfb76) = .ok (.aecpVendorUniqueCommand ⟨1, 0, 7⟩) := by
  decide +kernel

end Sys2Proof.Tests
end

section
/-!
PROOFS. What every instruction is, said once: one of thirteen shared operations with its class (R84, R111, R240). From it
follow the invariant of the machine (R22, R23, R28, R34, R35), what outputs depend on (R37, R38), and the host actions (R39).
-/

namespace Sys2Proof.Machine

/-! ## The meanings of instructions, by shared operation -/

/-- What holds of each shared operation holds of every instruction. A decode comes with how it reads its header from
`BUF`, so that an operation and a frame row are one case. -/
theorem exec_cases {motive : OpClass → (State → Result) → Prop}
    (rdbits : ∀ a lo hi, motive .primitive (execRdbits a lo hi))
    (wrbits : ∀ a lo hi val, motive .primitive (execWrbits a lo hi val))
    (load : ∀ n off k, motive .primitive (fun s => loadBe n off s k))
    (store : ∀ n off val, motive .primitive (storeBe n off val))
    (decHeader : motive .decode decodeHeader)
    (decAdp : ∀ hd : Memory → Option Header, motive .decode (fun s => decodeAdp (hd s.buf) s))
    (decAcmp : ∀ hd : Memory → Option Header, motive .decode (fun s => decodeAcmp (hd s.buf) s))
    (decAecp : ∀ hd : Memory → Option Header, motive .decode (fun s => decodeAecp (hd s.buf) s))
    (decMessage : motive .decode decodeMessage)
    (encHeader : motive .encode encodeHeader)
    (encAdp : motive .encode encodeAdp)
    (encAcmp : motive .encode encodeAcmp)
    (encAecp : motive .encode encodeAecp)
    (i : Instr) : motive (opClass i) (exec i) := by
  cases i with
  | rdbits a lo hi => exact rdbits a lo hi
  | wrbits a lo hi val => exact wrbits a lo hi val
  | rdbe16 off | rdbe32 off | rdbe64 off | cmpbe32 off => exact load _ off _
  | wrbe16 off val | wrbe32 off val | wrbe64 off val => exact store _ off val
  | dechdr => exact decHeader
  | enchdr => exact encHeader
  | encadp => exact encAdp
  | encacmp => exact encAcmp
  | encaecp => exact encAecp
  | decmsg => exact decMessage
  | decadp => exact decAdp readHeader
  | decacmp => exact decAcmp readHeader
  | decaecp => exact decAecp readHeader
  | adp p t => exact decAdp (frameHeader (frameWord subtypeAdp p t))
  | acmpConnectTxCommand p | acmpConnectTxResponse p | acmpDisconnectTxCommand p | acmpDisconnectTxResponse p
  | acmpGetTxStateCommand p | acmpGetTxStateResponse p | acmpConnectRxCommand p | acmpConnectRxResponse p
  | acmpDisconnectRxCommand p | acmpDisconnectRxResponse p | acmpGetRxStateCommand p | acmpGetRxStateResponse p
  | acmpGetTxConnectionCommand p | acmpGetTxConnectionResponse p | acmpReserved14 p | acmpReserved15 p =>
    exact decAcmp (frameHeader (frameWord subtypeAcmp p _))
  | aecpAvdeccMessageCommand p | aecpAvdeccMessageResponse p | aecpAddressAccessCommand p
  | aecpAddressAccessResponse p | aecpAvcCommand p | aecpAvcResponse p | aecpVendorUniqueCommand p
  | aecpVendorUniqueResponse p | aecpReserved8 p | aecpReserved9 p | aecpReserved10 p | aecpReserved11 p
  | aecpReserved12 p | aecpReserved13 p | aecpExtendedCommand p | aecpExtendedResponse p =>
    exact decAecp (frameHeader (frameWord subtypeAecp p _))

/-! ## The parts of the invariant -/

/-- A length that fits `BUF` is the value of `LEN` or `DLEN` made of it. -/
theorem toNat_ofNat_length {n : Nat} (h : n ≤ Config.bufCap) : (BitVec.ofNat 10 n).toNat = n := by
  simp only [Config.bufCap] at h
  rw [BitVec.toNat_ofNat, Nat.mod_eq_of_lt (by omega)]

theorem statusOk_of_success {s : State} (herr : s.err = 0) (hinfo : s.errinfo = none) : StatusOk s := by
  simp [StatusOk, herr, hinfo]

/-- After an error, of whatever class, the status registers agree (R34, R35, R240 (a)). -/
theorem statusOk_raise (s : State) (k : OpClass) (e : CodecError) : StatusOk (s.raise k e) := by
  obtain ⟨herr, hinfo, hres, -⟩ := s.raise_status k e
  obtain ⟨h0, h7⟩ := e.code_range
  rw [StatusOk, herr, hinfo, hres]
  exact ⟨h7, ⟨fun h => absurd h h0, nofun⟩, fun _ => rfl⟩

theorem bufferOk_of_length {s : State} {n : Nat} (hlen : s.len = BitVec.ofNat 10 n) (hn : n ≤ Config.bufCap)
    (hbuf : s.buf.holdsExactly n) : BufferOk s := by
  rw [BufferOk, hlen, toNat_ofNat_length hn]
  exact ⟨hbuf, hn⟩

theorem bufferOk_of_empty {s : State} (hbuf : s.buf = []) (hlen : s.len = 0) : BufferOk s :=
  bufferOk_of_length hlen (Nat.zero_le _) (hbuf ▸ Memory.holdsExactly_nil)

/-- Only `DATA` and `DLEN` count for their invariant. -/
theorem dataOk_congr {m n : Msg} (hdata : n.data = m.data) (hdlen : n.dlen = m.dlen) (h : DataOk m) : DataOk n := by
  rw [DataOk, hdata, hdlen]
  exact h

theorem dataOk_empty : DataOk Msg.empty := rfl

theorem dataOk_of_octets {m : Msg} {bs : List Byte} (hn : bs.length ≤ Config.dataCap)
    (hdata : m.data = Memory.ofOctets bs) (hdlen : m.dlen = some (BitVec.ofNat 10 bs.length)) : DataOk m := by
  have hbuf : bs.length ≤ Config.bufCap := hn.trans (by decide)
  rw [DataOk, hdlen, hdata]
  simp only [toNat_ofNat_length hbuf]
  exact ⟨Memory.addresses_ofOctets bs, hn⟩

/-- Writing a message register leaves `DATA` and `DLEN` alone (R29). -/
theorem Msg.set_data_dlen (m : Msg) (r : MsgReg) (v : BitVec r.width) :
    (m.set r v).data = m.data ∧ (m.set r v).dlen = m.dlen := by
  cases r with
  | h r | adp r | acmp r => exact ⟨rfl, rfl⟩
  | aecp r => cases r <;> exact ⟨rfl, rfl⟩

/-! ## How an operation ends, and the invariant -/

theorem inv_reset : Inv State.reset :=
  ⟨bufferOk_of_empty rfl rfl, dataOk_empty, statusOk_of_success rfl rfl⟩

theorem inv_succeed {s : State} (h : Inv s) (r : Option (BitVec 64)) : Inv (s.succeed r) := by
  obtain ⟨hbuf, hdata, -⟩ := h
  exact ⟨hbuf, hdata, statusOk_of_success rfl rfl⟩

theorem inv_raise {s : State} (h : Inv s) (k : OpClass) (e : CodecError) : Inv (s.raise k e) := by
  obtain ⟨hbuf, hdata, -⟩ := h
  cases k with
  | primitive => exact ⟨hbuf, hdata, statusOk_raise s _ e⟩
  | decode => exact ⟨hbuf, dataOk_empty, statusOk_raise s _ e⟩
  | encode => exact ⟨bufferOk_of_empty rfl rfl, hdata, statusOk_raise s _ e⟩

theorem inv_finishDecode {s : State} {m : Msg} (h : Inv s) (hm : DataOk m) : Inv (s.finishDecode m) := by
  obtain ⟨hbuf, -⟩ := h
  exact ⟨hbuf, hm, statusOk_of_success rfl rfl⟩

theorem inv_finishEncode {s : State} {m : Memory} {n : Nat} (h : Inv s) (hm : m.holdsExactly n)
    (hn : n ≤ Config.bufCap) : Inv (s.finishEncode m n) := by
  obtain ⟨-, hdata, -⟩ := h
  exact ⟨bufferOk_of_length rfl hn hm, hdata, statusOk_of_success rfl rfl⟩

/-! ## Every shared operation keeps the invariant -/

/-- Every next state the meaning answers from a state that meets the invariant meets it. -/
def KeepsInv (f : State → Result) : Prop := ∀ s t : State, Inv s → f s = .next t → Inv t

theorem execRdbits_keepsInv (a : BitVec 8) (lo hi : BitVec 3) : KeepsInv (execRdbits a lo hi) := by
  intro s t hs h
  obtain ⟨_, rfl⟩ := execRdbits_next h
  exact inv_succeed hs _

theorem execWrbits_keepsInv (a : BitVec 8) (lo hi : BitVec 3) (val : BitVec 64) :
    KeepsInv (execWrbits a lo hi val) := by
  intro s t hs h
  obtain ⟨_, ⟨_, rfl⟩ | ⟨_, rfl⟩⟩ := execWrbits_next h
  · exact inv_succeed hs _
  · exact inv_raise hs _ _

theorem loadBe_keepsInv (n : Nat) (off : BitVec 10) (k : Nat → BitVec 64) : KeepsInv (fun s => loadBe n off s k) := by
  intro s t hs h
  rcases loadBe_next h with ⟨_, _, _, rfl⟩ | ⟨_, rfl⟩
  · exact inv_succeed hs _
  · exact inv_raise hs _ _

/-- A store that completes lies within `LEN`, so the cells of `BUF` that hold octets stay the same ones. -/
theorem storeBe_keepsInv (n : Nat) (off : BitVec 10) (val : BitVec 64) : KeepsInv (storeBe n off val) := by
  intro s t hs h
  rcases storeBe_next h with ⟨hb, _, rfl⟩ | ⟨_, _, rfl⟩ | ⟨_, rfl⟩
  · obtain ⟨⟨hbuf, hcap⟩, hdata, -⟩ := hs
    have hwrite : (s.buf.memWrite off.toNat n val.toNat).holdsExactly s.len.toNat :=
      Memory.holdsExactly_writeOctets_within _ _ _ _ hbuf (by rwa [length_beOctets])
    exact ⟨⟨hwrite, hcap⟩, hdata, statusOk_of_success rfl rfl⟩
  · exact inv_raise hs _ _
  · exact inv_raise hs _ _

theorem decodeHeader_keepsInv : KeepsInv decodeHeader := by
  intro s t hs h
  rcases decodeHeader_next h with ⟨_, rfl⟩ | ⟨_, x, _, rfl⟩
  · exact inv_raise hs _ _
  · exact inv_finishDecode hs rfl

theorem decodeAdp_keepsInv (hd : Memory → Option Header) : KeepsInv (fun s => decodeAdp (hd s.buf) s) := by
  intro s t hs h
  rcases decodeAdp_next h with ⟨_, rfl⟩ | ⟨_, x, b, _, _, rfl⟩
  · exact inv_raise hs _ _
  · exact inv_finishDecode hs rfl

theorem decodeAcmp_keepsInv (hd : Memory → Option Header) : KeepsInv (fun s => decodeAcmp (hd s.buf) s) := by
  intro s t hs h
  rcases decodeAcmp_next h with ⟨_, rfl⟩ | ⟨_, x, _, ⟨e, _, rfl⟩ | ⟨_, b, _, rfl⟩⟩
  · exact inv_raise hs _ _
  · exact inv_raise hs _ _
  · exact inv_finishDecode hs rfl

/-- The variable data of a decoded AECP message runs from its start to `LEN`, so at most 512 octets of it exist
(R28, R187). -/
theorem decodeAecpPayload_keepsInv (x : Header) (c : AecpCommon) (v : Variant) : KeepsInv (decodeAecpPayload x c v) := by
  intro s t hs h
  rcases decodeAecpPayload_next h with ⟨_, rfl⟩ | ⟨_, p, bs, _, hbs, rfl⟩
  · exact inv_raise hs _ _
  · obtain ⟨-, -, -, -, hdata, hdlen⟩ := aecpMsg_common x c p bs
    have hlen : bs.length ≤ Config.dataCap := by
      obtain ⟨hlen, -⟩ := (Memory.readOctets_eq_some _ _ _ _).1 hbs
      have hstart := v.dataStart_ge
      have hcap : s.len.toNat ≤ 536 := hs.1.2
      rw [Variant.dataStart_eq] at hlen
      simp only [Config.dataCap]
      omega
    exact inv_finishDecode hs (dataOk_of_octets hlen hdata hdlen)

theorem decodeAecp_keepsInv (hd : Memory → Option Header) : KeepsInv (fun s => decodeAecp (hd s.buf) s) := by
  intro s t hs h
  rcases decodeAecp_next h with ⟨_, rfl⟩ | ⟨_, x, c, _, _, ⟨_, rfl⟩ | ⟨_, rfl⟩ | ⟨v, _, h⟩⟩
  · exact inv_raise hs _ _
  · exact inv_raise hs _ _
  · exact inv_raise hs _ _
  · exact decodeAecpPayload_keepsInv x c v s t hs h

theorem decodeMessage_keepsInv : KeepsInv decodeMessage := by
  intro s t hs h
  rcases decodeMessage_next h with ⟨_, rfl⟩ | ⟨_, b, _, ⟨_, h⟩ | ⟨_, h⟩ | ⟨_, h⟩ | ⟨_, _, _, rfl⟩⟩
  · exact inv_raise hs _ _
  · exact decodeAdp_keepsInv readHeader s t hs h
  · exact decodeAecp_keepsInv readHeader s t hs h
  · exact decodeAcmp_keepsInv readHeader s t hs h
  · exact inv_raise hs _ _

theorem encodeHeader_keepsInv : KeepsInv encodeHeader := by
  intro s t hs h
  obtain ⟨x, _, rfl⟩ := encodeHeader_next h
  exact inv_finishEncode hs (holdsExactly_writeHeader x) (by decide)

theorem encodeAdp_keepsInv : KeepsInv encodeAdp := by
  intro s t hs h
  obtain ⟨x, b, _, _, rfl⟩ := encodeAdp_next h
  exact inv_finishEncode hs (holdsExactly_writeDiscovery _ b (holdsExactly_writeHeader x)) (by decide)

theorem encodeAcmp_keepsInv : KeepsInv encodeAcmp := by
  intro s t hs h
  obtain ⟨x, b, _, _, ⟨e, _, rfl⟩ | ⟨_, rfl⟩⟩ := encodeAcmp_next h
  · exact inv_raise hs _ _
  · exact inv_finishEncode hs (holdsExactly_writeConnection _ b (holdsExactly_writeHeader x)) (by decide)

/-- The payload read from the registers of a variant group is of that variant (R182). -/
theorem variant_of_payload {m : Msg} {v : Variant} {p : Payload} (h : m.payload v = some p) : p.variant = v := by
  cases v <;> obtain ⟨x, _, rfl⟩ := Option.map_eq_some_iff.1 h <;> rfl

/-- The payload budget (R190) keeps an encoded AECP frame within `BUF`. -/
theorem encodeAecpPayload_keepsInv (x : Header) (c : AecpCommon) (v : Variant) : KeepsInv (encodeAecpPayload x c v) := by
  intro s t hs h
  obtain ⟨p, d, hp, _, ⟨_, rfl⟩ | ⟨hmax, bs, hbs, rfl⟩⟩ := encodeAecpPayload_next h
  · exact inv_raise hs _ _
  · obtain ⟨hlen, -⟩ := (Memory.readOctets_eq_some _ _ _ _).1 hbs
    have hframe := holdsExactly_aecpFrame x c p bs
    have hbudget := v.dataMax_add_dataStart
    rw [variant_of_payload hp, hlen] at hframe
    rw [Variant.dataStart_eq]
    exact inv_finishEncode hs hframe (by simp only [Config.bufCap]; omega)

theorem encodeAecp_keepsInv : KeepsInv encodeAecp := by
  intro s t hs h
  obtain ⟨x, c, _, _, ⟨_, rfl⟩ | ⟨_, rfl⟩ | ⟨v, _, h⟩⟩ := encodeAecp_next h
  · exact inv_raise hs _ _
  · exact inv_raise hs _ _
  · exact encodeAecpPayload_keepsInv x c v s t hs h

/-! ## Every step keeps the invariant -/

theorem exec_keepsInv (i : Instr) : KeepsInv (exec i) :=
  exec_cases (motive := fun _ => KeepsInv) execRdbits_keepsInv execWrbits_keepsInv loadBe_keepsInv storeBe_keepsInv
    decodeHeader_keepsInv decodeAdp_keepsInv decodeAcmp_keepsInv decodeAecp_keepsInv decodeMessage_keepsInv
    encodeHeader_keepsInv encodeAdp_keepsInv encodeAcmp_keepsInv encodeAecp_keepsInv i

theorem hostStep_keepsInv (a : HostAction) : KeepsInv (hostStep a) := by
  intro s t hs h
  have hcase := hostStep_next h
  obtain ⟨⟨hbuf, hcap⟩, hdata, hstatus⟩ := hs
  cases a with
  | reset =>
    have ht : t = { State.reset with inputs := s.inputs } := hcase
    exact ht ▸ inv_reset
  | loadBuffer bs =>
    obtain ⟨hn, rfl⟩ := hcase
    exact ⟨bufferOk_of_length rfl hn (Memory.addresses_ofOctets bs), hdata, hstatus⟩
  | storeOctet off b =>
    obtain ⟨hoff, rfl⟩ := hcase
    exact ⟨⟨Memory.holdsExactly_put_within _ _ _ b hbuf hoff, hcap⟩, hdata, hstatus⟩
  | setReg r v =>
    have ht : t = { s with msg := s.msg.set r v } := hcase
    rw [ht]
    obtain ⟨hd, hl⟩ := s.msg.set_data_dlen r v
    exact ⟨⟨hbuf, hcap⟩, dataOk_congr hd hl hdata, hstatus⟩
  | setData bs =>
    obtain ⟨hn, rfl⟩ := hcase
    exact ⟨⟨hbuf, hcap⟩, dataOk_of_octets hn rfl rfl, hstatus⟩
  | read what =>
    obtain ⟨_, rfl⟩ := hcase
    exact ⟨⟨hbuf, hcap⟩, hdata, hstatus⟩

/-- An input that is settled without an instruction and answers a next state: a host action, or a frame that no row
decodes (R104, R201). -/
theorem fetch_done_next {i : Input} {s t : State} (h : fetch i s = .done (.next t)) :
    (∃ a, i = .host a ∧ hostStep a s = .next t) ∨ ∃ e, t = s.raise .decode e := by
  cases i with
  | request r =>
    simp only [fetch, fetchRequest] at h
    split at h <;> cases h
  | frame =>
    refine .inr ?_
    simp only [fetch, fetchFrame] at h
    split at h
    · cases h
      exact ⟨_, rfl⟩
    · split at h
      · simp only [selectRow] at h
        split at h <;> cases h
        exact ⟨_, rfl⟩
      · cases h
  | host a => exact .inl ⟨a, rfl, Fetched.done.inj h⟩

theorem step_keepsInv : KeepsInv step := by
  intro s t hs h
  rcases step_next h with ⟨_, rfl⟩ | ⟨i, rest, _, ⟨instr, _, hexec⟩ | hdone⟩
  · exact hs
  · exact exec_keepsInv instr { s with inputs := rest } t hs hexec
  · rcases fetch_done_next hdone with ⟨a, _, hhost⟩ | ⟨e, rfl⟩
    · exact hostStep_keepsInv a { s with inputs := rest } t hs hhost
    · exact inv_raise (s := { s with inputs := rest }) hs _ e

/-- Settles O47: each shared operation keeps the invariant, so every instruction does; host actions and undecodable
frames keep it too, and a step is one of these. -/
theorem stepKeepsInvariant : Obligations.StepKeepsInvariant := step_keepsInv

/-- Settles O46: nothing is held after reset, and no error stands. -/
theorem resetMeetsInvariant : Obligations.ResetMeetsInvariant := inv_reset

/-! ## What the outputs depend on -/

/-- An outcome with the pending inputs of its next state replaced. -/
def withPending (pending : List Input) : Result → Result
  | .next t => .next { t with inputs := pending }
  | .fault r => .fault r
  | .refused r => .refused r

theorem withPending_next (pending : List Input) (t : State) :
    withPending pending (.next t) = .next { t with inputs := pending } := rfl

theorem withPending_refused (pending : List Input) (r : Refusal) :
    withPending pending (.refused r) = .refused r := rfl

theorem withPending_ite (pending : List Input) (c : Prop) [Decidable c] (x y : Result) :
    withPending pending (if c then x else y) = if c then withPending pending x else withPending pending y :=
  apply_ite _ _ _ _

theorem withPending_withCells {α : Type} (pending : List Input) (x : Option α) (k : α → Result) :
    withPending pending (withCells x k) = withCells x (fun a => withPending pending (k a)) := by
  cases x <;> rfl

theorem withPending_withRegs {α : Type} (pending : List Input) (x : Option α) (k : α → Result) :
    withPending pending (withRegs x k) = withRegs x (fun a => withPending pending (k a)) := by
  cases x <;> rfl

/-- The two states agree on the declared inputs of a class of operation (R37, R38): `BUF`, `LEN` and `MSG` for a
primitive, which leaves them in its next state; `BUF` and `LEN` for a decode; `MSG` for a message encode. -/
def AgreeFor (k : OpClass) (s s' : State) : Prop :=
  match k with
  | .primitive => s'.buf = s.buf ∧ s'.len = s.len ∧ s'.msg = s.msg
  | .decode => s'.buf = s.buf ∧ s'.len = s.len
  | .encode => s'.msg = s.msg

theorem agreeFor_of_all {k : OpClass} {s s' : State} (hbuf : s'.buf = s.buf) (hlen : s'.len = s.len)
    (hmsg : s'.msg = s.msg) : AgreeFor k s s' := by
  cases k with
  | primitive => exact ⟨hbuf, hlen, hmsg⟩
  | decode => exact ⟨hbuf, hlen⟩
  | encode => exact hmsg

/-- From states that agree on the declared inputs, the same outcome but for the pending inputs, which stay. -/
def DependsOnDeclared (k : OpClass) (f : State → Result) : Prop :=
  ∀ s s' : State, AgreeFor k s s' → f s' = withPending s'.inputs (f s)

/-! ### The ends of an operation -/

theorem succeed_agree {s s' : State} (h : AgreeFor .primitive s s') (r : Option (BitVec 64)) :
    s'.succeed r = { s.succeed r with inputs := s'.inputs } := by
  obtain ⟨hbuf, hlen, hmsg⟩ := h
  simp only [State.succeed, hbuf, hlen, hmsg]

theorem raise_agree {k : OpClass} {s s' : State} (h : AgreeFor k s s') (e : CodecError) :
    s'.raise k e = { s.raise k e with inputs := s'.inputs } := by
  cases k with
  | primitive =>
    obtain ⟨hbuf, hlen, hmsg⟩ := h
    simp only [State.raise, hbuf, hlen, hmsg]
  | decode =>
    obtain ⟨hbuf, hlen⟩ := h
    simp only [State.raise, hbuf, hlen]
  | encode =>
    have hmsg : s'.msg = s.msg := h
    simp only [State.raise, hmsg]

theorem finishDecode_agree {s s' : State} (h : AgreeFor .decode s s') (m : Msg) :
    s'.finishDecode m = { s.finishDecode m with inputs := s'.inputs } := by
  obtain ⟨hbuf, hlen⟩ := h
  simp only [State.finishDecode, State.succeed, hbuf, hlen]

theorem finishEncode_agree {s s' : State} (h : AgreeFor .encode s s') (m : Memory) (n : Nat) :
    s'.finishEncode m n = { s.finishEncode m n with inputs := s'.inputs } := by
  have hmsg : s'.msg = s.msg := h
  simp only [State.finishEncode, State.succeed, hmsg]

theorem failDecode_agree {s s' : State} (h : AgreeFor .decode s s') (e : CodecError) :
    failDecode e s' = withPending s'.inputs (failDecode e s) := by
  rw [failDecode, failDecode, withPending_next, raise_agree h]

theorem failEncode_agree {s s' : State} (h : AgreeFor .encode s s') (e : CodecError) :
    failEncode e s' = withPending s'.inputs (failEncode e s) := by
  rw [failEncode, failEncode, withPending_next, raise_agree h]

/-! ### The shared operations -/

theorem execRdbits_depends (a : BitVec 8) (lo hi : BitVec 3) : DependsOnDeclared .primitive (execRdbits a lo hi) := by
  intro s s' h
  simp only [execRdbits, succeed_agree h, withPending_ite, withPending_next, withPending_refused]

theorem execWrbits_depends (a : BitVec 8) (lo hi : BitVec 3) (val : BitVec 64) :
    DependsOnDeclared .primitive (execWrbits a lo hi val) := by
  intro s s' h
  simp only [execWrbits, succeed_agree h, raise_agree h, withPending_ite, withPending_next, withPending_refused]

theorem inBounds_agree {s s' : State} (h : s'.len = s.len) (off : BitVec 10) (n : Nat) :
    inBounds off n s' = inBounds off n s := by
  rw [inBounds, inBounds, h]

theorem loadBe_depends (n : Nat) (off : BitVec 10) (k : Nat → BitVec 64) :
    DependsOnDeclared .primitive (fun s => loadBe n off s k) := by
  intro s s' h
  have hbuf : s'.buf = s.buf := h.1
  have hlen : s'.len = s.len := h.2.1
  simp only [loadBe, inBounds_agree hlen, hbuf, hlen, succeed_agree h, raise_agree h, withPending_ite, withPending_withCells,
    withPending_next]

theorem storeBe_depends (n : Nat) (off : BitVec 10) (val : BitVec 64) :
    DependsOnDeclared .primitive (storeBe n off val) := by
  intro s s' h
  have hbuf : s'.buf = s.buf := h.1
  have hlen : s'.len = s.len := h.2.1
  simp only [storeBe, inBounds_agree hlen, hbuf, hlen, succeed_agree h, raise_agree h, withPending_ite, withPending_next]

theorem decodeHeader_depends : DependsOnDeclared .decode decodeHeader := by
  intro s s' h
  have hbuf : s'.buf = s.buf := h.1
  have hlen : s'.len = s.len := h.2
  simp only [decodeHeader, hbuf, hlen, failDecode_agree h, finishDecode_agree h, withPending_ite, withPending_withCells,
    withPending_next]

theorem decodeAdp_depends (hd : Memory → Option Header) :
    DependsOnDeclared .decode (fun s => decodeAdp (hd s.buf) s) := by
  intro s s' h
  have hbuf : s'.buf = s.buf := h.1
  have hlen : s'.len = s.len := h.2
  simp only [decodeAdp, hbuf, hlen, failDecode_agree h, finishDecode_agree h, withPending_ite, withPending_withCells,
    withPending_next]

theorem decodeAcmp_depends (hd : Memory → Option Header) :
    DependsOnDeclared .decode (fun s => decodeAcmp (hd s.buf) s) := by
  intro s s' h
  have hbuf : s'.buf = s.buf := h.1
  have hlen : s'.len = s.len := h.2
  simp only [decodeAcmp, hbuf, hlen, failDecode_agree h, finishDecode_agree h, withPending_ite, withPending_withCells]
  congr 2
  funext x
  cases acmpCheck x with
  | some e => rfl
  | none => simp only [withPending_withCells, withPending_next]

theorem decodeAecpPayload_depends (x : Header) (c : AecpCommon) (v : Variant) :
    DependsOnDeclared .decode (decodeAecpPayload x c v) := by
  intro s s' h
  have hbuf : s'.buf = s.buf := h.1
  have hlen : s'.len = s.len := h.2
  simp only [decodeAecpPayload, hbuf, hlen, failDecode_agree h, finishDecode_agree h, withPending_ite,
    withPending_withCells, withPending_next]

theorem decodeAecp_depends (hd : Memory → Option Header) :
    DependsOnDeclared .decode (fun s => decodeAecp (hd s.buf) s) := by
  intro s s' h
  have hbuf : s'.buf = s.buf := h.1
  have hlen : s'.len = s.len := h.2
  simp only [decodeAecp, hbuf, hlen, failDecode_agree h, decodeAecpPayload_depends _ _ _ s s' h, withPending_ite,
    withPending_withCells]
  congr 2
  funext x
  congr 1
  funext c
  cases variantOf x.messageType <;> rfl

theorem decodeMessage_depends : DependsOnDeclared .decode decodeMessage := by
  intro s s' h
  have hadp := decodeAdp_depends readHeader s s' h
  have hacmp := decodeAcmp_depends readHeader s s' h
  have haecp := decodeAecp_depends readHeader s s' h
  have hbuf : s'.buf = s.buf := h.1
  have hlen : s'.len = s.len := h.2
  simp only [hbuf] at hadp hacmp haecp
  simp only [decodeMessage, hbuf, hlen, hadp, hacmp, haecp, failDecode_agree h, withPending_ite, withPending_withCells]

theorem encodeHeader_depends : DependsOnDeclared .encode encodeHeader := by
  intro s s' h
  have hmsg : s'.msg = s.msg := h
  simp only [encodeHeader, hmsg, finishEncode_agree h, withPending_withRegs, withPending_next]

theorem encodeAdp_depends : DependsOnDeclared .encode encodeAdp := by
  intro s s' h
  have hmsg : s'.msg = s.msg := h
  simp only [encodeAdp, hmsg, finishEncode_agree h, withPending_withRegs, withPending_next]

theorem encodeAcmp_depends : DependsOnDeclared .encode encodeAcmp := by
  intro s s' h
  have hmsg : s'.msg = s.msg := h
  simp only [encodeAcmp, hmsg, finishEncode_agree h, failEncode_agree h, withPending_withRegs]
  congr 1
  funext x
  congr 1
  funext b
  cases acmpCheck x <;> rfl

theorem encodeAecpPayload_depends (x : Header) (c : AecpCommon) (v : Variant) :
    DependsOnDeclared .encode (encodeAecpPayload x c v) := by
  intro s s' h
  have hmsg : s'.msg = s.msg := h
  simp only [encodeAecpPayload, hmsg, finishEncode_agree h, failEncode_agree h, withPending_withRegs, withPending_ite,
    withPending_next]

theorem encodeAecp_depends : DependsOnDeclared .encode encodeAecp := by
  intro s s' h
  have hmsg : s'.msg = s.msg := h
  simp only [encodeAecp, hmsg, failEncode_agree h, encodeAecpPayload_depends _ _ _ s s' h, withPending_withRegs]
  congr 1
  funext x
  congr 1
  funext c
  cases variantOf x.messageType <;> rfl

theorem exec_depends (i : Instr) : DependsOnDeclared (opClass i) (exec i) :=
  exec_cases (motive := DependsOnDeclared) execRdbits_depends execWrbits_depends loadBe_depends storeBe_depends
    decodeHeader_depends decodeAdp_depends decodeAcmp_depends decodeAecp_depends decodeMessage_depends
    encodeHeader_depends encodeAdp_depends encodeAcmp_depends encodeAecp_depends i

theorem exec_next_of_agree {i : Instr} {s s' t : State} (hagree : AgreeFor (opClass i) s s')
    (h : exec i s = .next t) : exec i s' = .next { t with inputs := s'.inputs } := by
  rw [exec_depends i s s' hagree, h, withPending_next]

/-- Settles O41: agreement on `BUF`, `LEN` and `MSG` is agreement on the declared inputs of any class, and for a decode
or an encode the parts named are the declared inputs. -/
theorem outputsDependOnDeclaredInputs : Obligations.OutputsDependOnDeclaredInputs := by
  refine ⟨fun i s s' t hbuf hlen hmsg h => ?_, fun i s s' t hk hbuf hlen h => ?_, fun i s s' t hk hmsg h => ?_⟩
  · exact exec_next_of_agree (agreeFor_of_all hbuf hlen hmsg) h
  · exact exec_next_of_agree (hk ▸ ⟨hbuf, hlen⟩) h
  · exact exec_next_of_agree (hk ▸ hmsg) h

/-! ## Host actions as inputs -/

theorem step_host {s : State} {a : HostAction} {rest : List Input} (h : s.inputs = .host a :: rest) :
    step s = hostStep a { s with inputs := rest } := by
  simp only [step, h, fetch]

/-- Settles O52, action by action; the octets of a load or a `DATA` write stand from cell 0 on, and a store changes one
cell. -/
theorem hostActions : Obligations.HostActions := by
  intro s rest
  refine ⟨fun h => ?_, fun bs h => ?_, fun off b h => ?_, fun r v h => ?_, fun bs h => ?_⟩
  · exact step_host h
  · rw [step_host h]
    split
    · rename_i hn
      exact ⟨_, octetsAt_ofOctets bs, Memory.addresses_ofOctets bs, if_pos hn⟩
    · rename_i hn
      exact if_neg hn
  · rw [step_host h]
    split
    · rename_i hoff
      exact ⟨_, Memory.get_put_self _ _ b, fun i hi => Memory.get_put_ne _ b hi.symm, if_pos hoff⟩
    · rename_i hoff
      exact if_neg hoff
  · exact step_host h
  · rw [step_host h]
    split
    · rename_i hn
      exact ⟨_, octetsAt_ofOctets bs, Memory.addresses_ofOctets bs, if_pos hn⟩
    · rename_i hn
      exact if_neg hn

end Sys2Proof.Machine
end

section
/-!
PROOFS. No step faults from a state whose cells below `LEN` all hold octets (R23, R57; log 6), and the codecs of a
platform do not see each other (R63, D31).
-/

namespace Sys2Proof.Machine

/-! ## Where an outcome is no fault -/

/-- The meaning answers no fault wherever `BUF` holds exactly the cells below `LEN`. -/
def NoFault (f : State → Result) : Prop := ∀ s : State, BufferOk s → noFault (f s) = true

/-- Reading cells of `BUF` that all hold octets does not fault. -/
theorem noFault_withCells {α : Type} {x : Option α} {k : α → Result} (hx : ∃ a, x = some a)
    (hk : ∀ a, noFault (k a) = true) : noFault (withCells x k) = true := by
  obtain ⟨a, rfl⟩ := hx
  exact hk a

/-- Reading registers does not fault: a register holding none refuses the encode (R33). -/
theorem noFault_withRegs {α : Type} {x : Option α} {k : α → Result} (hk : ∀ a, noFault (k a) = true) :
    noFault (withRegs x k) = true := by
  cases x with
  | none => rfl
  | some a => exact hk a

/-! ## What can be read below `LEN` -/

/-- A way to read a header that succeeds wherever the four cells of the header hold octets. -/
def ReadsHeader (hd : Memory → Option Header) : Prop :=
  ∀ (m : Memory) (len : Nat), m.holdsExactly len → 4 ≤ len → ∃ x, hd m = some x

theorem readsHeader_readHeader : ReadsHeader readHeader := fun m len hm hl =>
  (exists_headerAt m len hm hl).imp fun x => (readHeader_eq_some m x).2

theorem readsHeader_frameHeader (w : BitVec 16) : ReadsHeader (frameHeader w) := exists_frameHeader w

theorem exists_fetchWord {m : Memory} {len : Nat} (hm : m.holdsExactly len) (hl : 4 ≤ len) :
    ∃ w, fetchWord m = some w := by
  obtain ⟨x, hx⟩ := exists_headerAt m len hm hl
  exact ⟨_, fetchWord_eq_some m x hx⟩

theorem exists_readPayload {m : Memory} {len : Nat} (v : Variant) (hm : m.holdsExactly len) (hl : v.dataStart ≤ len) :
    ∃ p, readPayload m v = some p :=
  (exists_payloadAt m v len hm hl).imp fun p => (readPayload_eq_some m v p).2

theorem exists_readOctets {m : Memory} {off n len : Nat} (hm : m.holdsExactly len) (hn : off + n ≤ len) :
    ∃ bs, m.readOctets off n = some bs :=
  Option.isSome_iff_exists.1 (m.readOctets_isSome off n len hm hn)

theorem exists_memRead {m : Memory} {off n len : Nat} (hm : m.holdsExactly len) (hn : off + n ≤ len) :
    ∃ v, m.memRead off n = some v := by
  obtain ⟨bs, hbs⟩ := exists_readOctets hm hn
  exact ⟨beValue bs, by rw [Memory.memRead, hbs, Option.map_some]⟩

/-! ## The shared operations -/

/-- The bit ranges read no cell. -/
theorem execRdbits_noFault (a : BitVec 8) (lo hi : BitVec 3) : NoFault (execRdbits a lo hi) := by
  intro s _
  unfold execRdbits
  split <;> rfl

theorem execWrbits_noFault (a : BitVec 8) (lo hi : BitVec 3) (val : BitVec 64) : NoFault (execWrbits a lo hi val) := by
  intro s _
  unfold execWrbits
  split
  · split <;> rfl
  · rfl

/-- The bound is checked before any cell is read (R57). -/
theorem loadBe_noFault (n : Nat) (off : BitVec 10) (k : Nat → BitVec 64) : NoFault (fun s => loadBe n off s k) := by
  rintro s ⟨hbuf, -⟩
  simp only [loadBe]
  split
  · rename_i hb
    exact noFault_withCells (exists_memRead hbuf (by simpa [inBounds] using hb)) fun _ => rfl
  · rfl

/-- A store reads no cell. -/
theorem storeBe_noFault (n : Nat) (off : BitVec 10) (val : BitVec 64) : NoFault (storeBe n off val) := by
  intro s _
  unfold storeBe
  split
  · split <;> rfl
  · rfl

theorem decodeHeader_noFault : NoFault decodeHeader := by
  rintro s ⟨hbuf, -⟩
  unfold decodeHeader
  split
  · rfl
  · rename_i hlen
    exact noFault_withCells (readsHeader_readHeader _ _ hbuf (Nat.le_of_not_lt hlen)) fun _ => rfl

theorem decodeAdp_noFault {hd : Memory → Option Header} (hhd : ReadsHeader hd) :
    NoFault (fun s => decodeAdp (hd s.buf) s) := by
  rintro s ⟨hbuf, -⟩
  simp only [decodeAdp]
  split
  · rfl
  · rename_i hlen
    have hlen : 68 ≤ s.len.toNat := Nat.le_of_not_lt hlen
    have hbody : ∃ b, readDiscovery s.buf = some b :=
      (exists_discoveryAt _ _ hbuf hlen).imp fun b => (readDiscovery_eq_some _ b).2
    exact noFault_withCells (hhd _ _ hbuf (by omega)) fun _ => noFault_withCells hbody fun _ => rfl

theorem decodeAcmp_noFault {hd : Memory → Option Header} (hhd : ReadsHeader hd) :
    NoFault (fun s => decodeAcmp (hd s.buf) s) := by
  rintro s ⟨hbuf, -⟩
  simp only [decodeAcmp]
  split
  · rfl
  · rename_i hlen
    have hlen : 56 ≤ s.len.toNat := Nat.le_of_not_lt hlen
    have hbody : ∃ b, readConnection s.buf = some b :=
      (exists_connectionAt _ _ hbuf hlen).imp fun b => (readConnection_eq_some _ b).2
    refine noFault_withCells (hhd _ _ hbuf (by omega)) fun x => ?_
    split
    · rfl
    · exact noFault_withCells hbody fun _ => rfl

/-- The variable data runs to `LEN` and no further (R187). -/
theorem decodeAecpPayload_noFault (x : Header) (c : AecpCommon) (v : Variant) : NoFault (decodeAecpPayload x c v) := by
  rintro s ⟨hbuf, -⟩
  simp only [decodeAecpPayload, v.dataStart_eq]
  split
  · rfl
  · rename_i hlen
    have hlen : v.dataStart ≤ s.len.toNat := Nat.le_of_not_lt hlen
    exact noFault_withCells (exists_readPayload v hbuf hlen) fun _ =>
      noFault_withCells (exists_readOctets hbuf (by omega)) fun _ => rfl

theorem decodeAecp_noFault {hd : Memory → Option Header} (hhd : ReadsHeader hd) :
    NoFault (fun s => decodeAecp (hd s.buf) s) := by
  intro s hs
  have hbuf : s.buf.holdsExactly s.len.toNat := hs.1
  simp only [decodeAecp]
  split
  · rfl
  · rename_i hlen
    have hlen : 22 ≤ s.len.toNat := Nat.le_of_not_lt hlen
    have hcommon : ∃ c, readAecpCommon s.buf = some c :=
      (exists_aecpCommonAt _ _ hbuf hlen).imp fun c => (readAecpCommon_eq_some _ c).2
    refine noFault_withCells (hhd _ _ hbuf (by omega)) fun x => noFault_withCells hcommon fun c => ?_
    split
    · rfl
    · rfl
    · exact decodeAecpPayload_noFault x c _ s hs

theorem decodeMessage_noFault : NoFault decodeMessage := by
  intro s hs
  have hbuf : s.buf.holdsExactly s.len.toNat := hs.1
  unfold decodeMessage
  split
  · rfl
  · rename_i hlen
    have hlen : 4 ≤ s.len.toNat := Nat.le_of_not_lt hlen
    have hfirst : ∃ b, s.buf.get 0 = some b :=
      Option.isSome_iff_exists.1 ((s.buf.isSome_get_of_holdsExactly _ 0 hbuf).2 (by omega))
    refine noFault_withCells hfirst fun b => ?_
    dsimp only
    split
    · exact decodeAdp_noFault readsHeader_readHeader s hs
    · split
      · exact decodeAecp_noFault readsHeader_readHeader s hs
      · split
        · exact decodeAcmp_noFault readsHeader_readHeader s hs
        · rfl

/-! The encodes read no cell of `BUF`. -/

theorem encodeHeader_noFault : NoFault encodeHeader := fun _ _ => noFault_withRegs fun _ => rfl

theorem encodeAdp_noFault : NoFault encodeAdp := fun _ _ => noFault_withRegs fun _ => noFault_withRegs fun _ => rfl

theorem encodeAcmp_noFault : NoFault encodeAcmp := by
  intro s _
  refine noFault_withRegs fun x => noFault_withRegs fun b => ?_
  split <;> rfl

theorem encodeAecpPayload_noFault (x : Header) (c : AecpCommon) (v : Variant) : NoFault (encodeAecpPayload x c v) := by
  intro s _
  refine noFault_withRegs fun p => noFault_withRegs fun d => ?_
  split
  · rfl
  · exact noFault_withRegs fun _ => rfl

theorem encodeAecp_noFault : NoFault encodeAecp := by
  intro s hs
  refine noFault_withRegs fun x => noFault_withRegs fun c => ?_
  split
  · rfl
  · rfl
  · exact encodeAecpPayload_noFault x c _ s hs

/-! ## Instructions, inputs and steps -/

/-- An operation reads its header with `readHeader`, a frame row from its word and `BUF` (R111); both read it wherever
it stands. -/
theorem exec_noFault (i : Instr) : NoFault (exec i) := by
  cases i with
  | rdbits a lo hi => exact execRdbits_noFault a lo hi
  | wrbits a lo hi val => exact execWrbits_noFault a lo hi val
  | rdbe16 off | rdbe32 off | rdbe64 off | cmpbe32 off => exact loadBe_noFault _ off _
  | wrbe16 off val | wrbe32 off val | wrbe64 off val => exact storeBe_noFault _ off val
  | dechdr => exact decodeHeader_noFault
  | enchdr => exact encodeHeader_noFault
  | encadp => exact encodeAdp_noFault
  | encacmp => exact encodeAcmp_noFault
  | encaecp => exact encodeAecp_noFault
  | decmsg => exact decodeMessage_noFault
  | decadp => exact decodeAdp_noFault readsHeader_readHeader
  | decacmp => exact decodeAcmp_noFault readsHeader_readHeader
  | decaecp => exact decodeAecp_noFault readsHeader_readHeader
  | adp p t => exact decodeAdp_noFault (readsHeader_frameHeader _)
  | acmpConnectTxCommand p | acmpConnectTxResponse p | acmpDisconnectTxCommand p | acmpDisconnectTxResponse p
  | acmpGetTxStateCommand p | acmpGetTxStateResponse p | acmpConnectRxCommand p | acmpConnectRxResponse p
  | acmpDisconnectRxCommand p | acmpDisconnectRxResponse p | acmpGetRxStateCommand p | acmpGetRxStateResponse p
  | acmpGetTxConnectionCommand p | acmpGetTxConnectionResponse p | acmpReserved14 p | acmpReserved15 p =>
    exact decodeAcmp_noFault (readsHeader_frameHeader _)
  | aecpAvdeccMessageCommand p | aecpAvdeccMessageResponse p | aecpAddressAccessCommand p
  | aecpAddressAccessResponse p | aecpAvcCommand p | aecpAvcResponse p | aecpVendorUniqueCommand p
  | aecpVendorUniqueResponse p | aecpReserved8 p | aecpReserved9 p | aecpReserved10 p | aecpReserved11 p
  | aecpReserved12 p | aecpReserved13 p | aecpExtendedCommand p | aecpExtendedResponse p =>
    exact decodeAecp_noFault (readsHeader_frameHeader _)

/-- A host action completes or is refused, whatever the state (R39). -/
theorem hostStep_noFault (a : HostAction) (s : State) : noFault (hostStep a s) = true := by
  cases a with
  | reset | setReg r v => rfl
  | loadBuffer bs =>
    simp only [hostStep, loadBuffer]
    split <;> rfl
  | storeOctet off b =>
    simp only [hostStep, storeOctet]
    split <;> rfl
  | setData bs =>
    simp only [hostStep, setData]
    split <;> rfl
  | read what =>
    simp only [hostStep, hostRead]
    split <;> rfl

/-- The word of a frame is fetched only where four octets stand (R201, R111). -/
theorem fetchFrame_done_noFault {s : State} {o : Result} (hs : BufferOk s) (h : fetchFrame s = .done o) :
    noFault o = true := by
  obtain ⟨hbuf, -⟩ := hs
  unfold fetchFrame at h
  split at h
  · cases h
    rfl
  · rename_i hlen
    obtain ⟨w, hw⟩ := exists_fetchWord hbuf (Nat.le_of_not_lt hlen)
    simp only [hw, selectRow] at h
    split at h <;> cases h
    rfl

theorem fetch_done_noFault {i : Input} {s : State} {o : Result} (hs : BufferOk s) (h : fetch i s = .done o) :
    noFault o = true := by
  cases i with
  | request r =>
    simp only [fetch, fetchRequest] at h
    split at h <;> cases h
    rfl
  | frame => exact fetchFrame_done_noFault hs h
  | host a =>
    cases h
    exact hostStep_noFault a s

/-- The buffer part of the invariant alone keeps a step from the model's one fault. -/
theorem step_noFault : NoFault step := by
  intro s hs
  unfold step
  split
  · rfl
  · rename_i i rest _
    split
    · exact exec_noFault _ { s with inputs := rest } hs
    · rename_i hdone
      exact fetch_done_noFault (s := { s with inputs := rest }) hs hdone

/-- Settles O48: every read of `BUF` comes after a check of its extent against `LEN`, and the invariant says that the
cells below `LEN` hold octets. -/
theorem noFaultFromInvariant : Obligations.NoFaultFromInvariant := by
  rintro s ⟨hbuf, -⟩
  exact step_noFault s hbuf

/-! ## Platforms -/

/-- A step of codec `k` that answers a next platform puts the next state of codec `k` in its place. A number that
names no codec puts nothing anywhere, so that this is one case. -/
theorem stepAt_eq_next_iff {p q : Platform} {k : Nat} :
    p.stepAt k = .next q ↔ ∃ t, (∀ s, p[k]? = some s → step s = .next t) ∧ q = p.set k t := by
  cases hk : p[k]? with
  | none =>
    have hset : ∀ t, p.set k t = p := fun t => List.set_eq_of_length_le (List.getElem?_eq_none_iff.1 hk)
    simp only [Platform.stepAt, hk, hset]
    constructor
    · intro h
      exact ⟨State.reset, fun s hs => absurd hs.symm (Option.some_ne_none s), (Host.Outcome.next.inj h).symm⟩
    · rintro ⟨_, -, rfl⟩
      rfl
  | some s =>
    simp only [Platform.stepAt, hk]
    constructor
    · intro h
      split at h
      · rename_i t ht
        exact ⟨t, fun _ hs => Option.some.inj hs ▸ ht, (Host.Outcome.next.inj h).symm⟩
      · cases h
      · cases h
    · rintro ⟨t, ht, rfl⟩
      rw [ht s rfl]

/-- What another codec of the platform is after a step is what it was. -/
theorem stepAt_getElem?_ne {p q : Platform} {j k : Nat} (hjk : j ≠ k) (h : p.stepAt j = .next q) : q[k]? = p[k]? := by
  obtain ⟨t, -, rfl⟩ := stepAt_eq_next_iff.1 h
  exact List.getElem?_set_ne hjk

/-- Each of two codecs finds the same state whichever steps first, and their places in the list are two. -/
theorem stepAt_comm {p q r : Platform} {j k : Nat} (hjk : j ≠ k) (hj : p.stepAt j = .next q)
    (hk : q.stepAt k = .next r) : ∃ q', p.stepAt k = .next q' ∧ q'.stepAt j = .next r := by
  have hsame := stepAt_getElem?_ne hjk hj
  obtain ⟨t, ht, rfl⟩ := stepAt_eq_next_iff.1 hj
  obtain ⟨u, hu, rfl⟩ := stepAt_eq_next_iff.1 hk
  have hk' : p.stepAt k = .next (p.set k u) := stepAt_eq_next_iff.2 ⟨u, fun s hs => hu s (hsame.trans hs), rfl⟩
  refine ⟨p.set k u, hk', stepAt_eq_next_iff.2 ⟨t, fun s hs => ht s ?_, List.set_comm t u hjk⟩⟩
  rwa [stepAt_getElem?_ne hjk.symm hk'] at hs

/-- Settles O54: a step writes only its own place of the list, and reads only that. -/
theorem instancesIndependent : Obligations.InstancesIndependent := fun _ _ _ hjk =>
  ⟨fun _ => stepAt_getElem?_ne hjk, fun _ _ => stepAt_comm hjk⟩

end Sys2Proof.Machine
end

section
/-!
PROOFS. The decoder and the encoder are inverse on every instruction, as codes and as octets (R84, R90, R111). The row
that a frame word selects depends on its subtype and message type alone, so it is found by looking at the word whose
other bits are 0.
-/

namespace Sys2Proof.Machine

/-! ## Frame words and the masks of the table -/

/-- The frame word of a subtype and a message type with every other bit 0 (R90, R111). -/
def bareWord (st : BitVec 7) (t : BitVec 4) : BitVec 16 := frameWord st ⟨0, 0, 0⟩ t

theorem bareWord_inj {st st' : BitVec 7} {t t' : BitVec 4} :
    bareWord st t = bareWord st' t' ↔ st = st' ∧ t = t' := by
  constructor
  · intro h
    obtain ⟨hst, -, ht⟩ := parts_frameWord st ⟨0, 0, 0⟩ t
    obtain ⟨hst', -, ht'⟩ := parts_frameWord st' ⟨0, 0, 0⟩ t'
    exact ⟨hst.symm.trans ((congrArg frameSubtype h).trans hst'),
      ht.symm.trans ((congrArg frameMessageType h).trans ht')⟩
  · rintro ⟨rfl, rfl⟩
    rfl

/-- Masking a frame word masks each of its parts (R111). -/
theorem frameWord_and (st st' : BitVec 7) (p q : FrameBits) (t t' : BitVec 4) :
    frameWord st p t &&& frameWord st' q t' =
      frameWord (st &&& st') ⟨p.cd &&& q.cd, p.sv &&& q.sv, p.version &&& q.version⟩ (t &&& t') := by
  have hparts : (p.cd ++ st ++ p.sv ++ p.version ++ t) &&& (q.cd ++ st' ++ q.sv ++ q.version ++ t') =
      (p.cd &&& q.cd) ++ (st &&& st') ++ (p.sv &&& q.sv) ++ (p.version &&& q.version) ++ (t &&& t') := by
    simp only [BitVec.and_append]
  exact hparts

/-- The mask of the ACMP and AECP rows keeps subtype and message type (R102, R103, R111). -/
theorem frameWord_and_typeMask (st : BitVec 7) (p : FrameBits) (t : BitVec 4) :
    frameWord st p t &&& 0x7f0f#16 = bareWord st t := by
  rw [show 0x7f0f#16 = bareWord (BitVec.allOnes 7) (BitVec.allOnes 4) from rfl, bareWord, bareWord, frameWord_and]
  simp only [BitVec.and_allOnes, BitVec.ofNat_eq_ofNat, BitVec.and_zero]

/-- The mask of the ADP row keeps the subtype (R101, R111). -/
theorem frameWord_and_subtypeMask (st : BitVec 7) (p : FrameBits) (t : BitVec 4) :
    frameWord st p t &&& 0x7f00#16 = bareWord st 0 := by
  rw [show 0x7f00#16 = bareWord (BitVec.allOnes 7) 0 from rfl, bareWord, bareWord, frameWord_and]
  simp only [BitVec.and_allOnes, BitVec.ofNat_eq_ofNat, BitVec.and_zero]

theorem and_typeMask (w : BitVec 16) : w &&& 0x7f0f#16 = bareWord (frameSubtype w) (frameMessageType w) := by
  conv_lhs => rw [frameWord_parts w, frameWord_and_typeMask]

theorem and_subtypeMask (w : BitVec 16) : w &&& 0x7f00#16 = bareWord (frameSubtype w) 0 := by
  conv_lhs => rw [frameWord_parts w, frameWord_and_subtypeMask]

/-! ## The rows of the frame table -/

/-- The row ADP (R101). -/
def adpRow : FrameRow := ⟨0x7f00#16, 0x7a00#16, fun w => .adp (frameBits w) (frameMessageType w)⟩

/-- The row fixes subtype and message type, and its instruction keeps every other bit of the word (R102, R103). -/
structure FixesType (st : BitVec 7) (t : BitVec 4) (row : FrameRow) : Prop where
  encodes : ∀ w, encode (row.make w) = .frame (frameWord st (frameBits w) t)
  mask : row.mask = 0x7f0f#16
  pattern : row.pattern = bareWord st t

theorem acmpRows_fixesType : ∀ row ∈ acmpRows, ∃ t, FixesType 0x7c#7 t row := by
  intro row h
  simp only [acmpRows] at h
  fin_cases h <;> exact ⟨_, fun _ => rfl, rfl, rfl⟩

theorem aecpRows_fixesType : ∀ row ∈ aecpRows, ∃ t, FixesType 0x7b#7 t row := by
  intro row h
  simp only [aecpRows] at h
  fin_cases h <;> exact ⟨_, fun _ => rfl, rfl, rfl⟩

theorem mem_frameTable {row : FrameRow} (h : row ∈ frameTable) : row = adpRow ∨ ∃ st t, FixesType st t row := by
  rw [frameTable, List.mem_append, List.mem_append] at h
  obtain (h | h) | h := h
  · exact .inl (List.mem_singleton.1 h)
  · exact .inr ⟨_, acmpRows_fixesType row h⟩
  · exact .inr ⟨_, aecpRows_fixesType row h⟩

/-- Every message type matches the row ADP (R101). -/
theorem rowMatches_adpRow (w : BitVec 16) : rowMatches w adpRow = true ↔ frameSubtype w = 0x7a#7 := by
  rw [rowMatches, beq_iff_eq, adpRow, and_subtypeMask, show 0x7a00#16 = bareWord 0x7a#7 0 from rfl, bareWord_inj]
  exact and_iff_left rfl

theorem FixesType.rowMatches_iff {st : BitVec 7} {t : BitVec 4} {row : FrameRow} (h : FixesType st t row)
    (w : BitVec 16) : rowMatches w row = true ↔ frameSubtype w = st ∧ frameMessageType w = t := by
  rw [rowMatches, beq_iff_eq, h.mask, h.pattern, and_typeMask, bareWord_inj]

/-- No row of the table looks at an open bit of the word (R111). -/
theorem mask_frameTable {row : FrameRow} (h : row ∈ frameTable) : 0x7f0f#16 &&& row.mask = row.mask := by
  obtain rfl | ⟨_, _, hfix⟩ := mem_frameTable h
  · rfl
  · rw [hfix.mask, BitVec.and_self]

/-- A word selects the row that its subtype and message type alone select. -/
theorem find?_frameTable (st : BitVec 7) (p : FrameBits) (t : BitVec 4) :
    frameTable.find? (rowMatches (frameWord st p t)) = frameTable.find? (rowMatches (bareWord st t)) := by
  refine List.find?_congr fun row hrow => ?_
  simp only [rowMatches, bareWord]
  rw [← mask_frameTable hrow, ← BitVec.and_assoc, ← BitVec.and_assoc, frameWord_and_typeMask, frameWord_and_typeMask]

/-! ## Decoding a frame word -/

/-- A frame word whose row keeps the open bits as its operands decodes to that row's instruction. -/
theorem decodeFrame_frameWord {st : BitVec 7} {t : BitVec 4} {mask pattern : BitVec 16} {make : FrameBits → Instr}
    (p : FrameBits)
    (h : frameTable.find? (rowMatches (bareWord st t)) = some ⟨mask, pattern, fun w => make (frameBits w)⟩) :
    decodeFrame (frameWord st p t) = .ok (make p) := by
  obtain ⟨-, hp, -⟩ := parts_frameWord st p t
  rw [decodeFrame, find?_frameTable, h]
  exact congrArg (Except.ok <| make ·) hp

/-- Every message type selects the ADP row, which keeps it as an operand (R101). -/
theorem decodeFrame_adp (p : FrameBits) (t : BitVec 4) : decodeFrame (frameWord 0x7a#7 p t) = .ok (.adp p t) := by
  obtain ⟨hst, hp, ht⟩ := parts_frameWord 0x7a#7 p t
  have hfind : frameTable.find? (rowMatches (frameWord 0x7a#7 p t)) = some adpRow :=
    List.find?_cons_of_pos ((rowMatches_adpRow _).2 hst)
  rw [decodeFrame, hfind]
  exact congrArg₂ (Except.ok <| Instr.adp · ·) hp ht

/-- A word that decodes matches a row of the table and is that row's instruction. -/
theorem exists_row_of_decodeFrame {w : BitVec 16} {i : Instr} (h : decodeFrame w = .ok i) :
    ∃ row ∈ frameTable, rowMatches w row = true ∧ row.make w = i := by
  rw [decodeFrame] at h
  split at h
  · rename_i row hfind
    exact ⟨row, List.mem_of_find?_eq_some hfind, List.find?_some hfind, Except.ok.inj h⟩
  · cases h

/-! ## Decoding what was encoded -/

/-- Settles O55: an operation is found by its `OP`, a frame row by the subtype and message type it fixes; every operand
is a request field or an open bit of the word. -/
theorem decodeOfEncode : Obligations.DecodeOfEncode := by
  intro i
  cases i with
  | rdbits a lo hi | wrbits a lo hi val | rdbe16 off | rdbe32 off | rdbe64 off | wrbe16 off val | wrbe32 off val
  | wrbe64 off val | cmpbe32 off val | dechdr | enchdr | decadp | encadp | decacmp | encacmp | decaecp | encaecp
  | decmsg => rfl
  | adp p t => exact decodeFrame_adp p t
  | acmpConnectTxCommand p | acmpConnectTxResponse p | acmpDisconnectTxCommand p | acmpDisconnectTxResponse p
  | acmpGetTxStateCommand p | acmpGetTxStateResponse p | acmpConnectRxCommand p | acmpConnectRxResponse p
  | acmpDisconnectRxCommand p | acmpDisconnectRxResponse p | acmpGetRxStateCommand p | acmpGetRxStateResponse p
  | acmpGetTxConnectionCommand p | acmpGetTxConnectionResponse p | acmpReserved14 p | acmpReserved15 p
  | aecpAvdeccMessageCommand p | aecpAvdeccMessageResponse p | aecpAddressAccessCommand p
  | aecpAddressAccessResponse p | aecpAvcCommand p | aecpAvcResponse p | aecpVendorUniqueCommand p
  | aecpVendorUniqueResponse p | aecpReserved8 p | aecpReserved9 p | aecpReserved10 p | aecpReserved11 p
  | aecpReserved12 p | aecpReserved13 p | aecpExtendedCommand p | aecpExtendedResponse p =>
    exact decodeFrame_frameWord p rfl

/-! ## Octets -/

/-- The twelve octets of a request record hold every bit of its fields (log 4). -/
theorem ofOctets_toOctets_request (r : Request) : Request.ofOctets r.toOctets = .ok r := by
  obtain ⟨op, a, lo, hi, off, val⟩ := r
  simp only [Request.toOctets, Request.ofOctets, Except.ok.injEq, Request.mk.injEq, true_and]
  refine ⟨?_, ?_, ?_, ?_⟩
  · rw [BitVec.extractLsb'_append_eq_of_le (by decide)]
    exact BitVec.extractLsb'_append_eq_left
  · rw [BitVec.extractLsb'_append_eq_of_le (by decide)]
    exact BitVec.extractLsb'_append_eq_right
  · rw [BitVec.extractLsb'_append_eq_right]
    exact (BitVec.extractLsb'_append_extractLsb'_eq_extractLsb' rfl).trans BitVec.extractLsb'_eq_self
  · simp (disch := rfl) only [BitVec.extractLsb'_append_extractLsb'_eq_extractLsb']
    exact BitVec.extractLsb'_eq_self

/-- The octets of a code spell it at its own level. -/
theorem ofOctets_toOctets (c : Code) : Code.ofOctets c.level c.toOctets = .ok c := by
  cases c with
  | request r => exact congrArg (Except.map Code.request) (ofOctets_toOctets_request r)
  | frame w =>
    have hw : w.extractLsb' 8 8 ++ w.extractLsb' 0 8 = w :=
      (BitVec.extractLsb'_append_extractLsb'_eq_extractLsb' rfl).trans BitVec.extractLsb'_eq_self
    exact congrArg (Except.ok <| Code.frame ·) hw

/-- Settles O56: the octets of a code give the code back, and that decodes to its instruction. -/
theorem decodeOctetsOfEncodeOctets : Obligations.DecodeOctetsOfEncodeOctets := by
  intro i
  rw [decodeOctets, encodeOctets, ofOctets_toOctets]
  exact decodeOfEncode i

/-! ## Encoding what was decoded -/

/-- A word that matches a row of the table is the encoding of the row's instruction. -/
theorem encode_make {row : FrameRow} {w : BitVec 16} (hrow : row ∈ frameTable) (hw : rowMatches w row = true) :
    encode (row.make w) = .frame w := by
  obtain rfl | ⟨st, t, hfix⟩ := mem_frameTable hrow
  · have hst := (rowMatches_adpRow w).1 hw
    calc encode (adpRow.make w) = .frame (frameWord 0x7a#7 (frameBits w) (frameMessageType w)) := rfl
      _ = .frame w := by rw [← hst, ← frameWord_parts]
  · obtain ⟨hst, ht⟩ := (hfix.rowMatches_iff w).1 hw
    rw [hfix.encodes, ← hst, ← ht, ← frameWord_parts]

/-- Settles O57: the row the word matches fixes the bits that its instruction does not keep. -/
theorem encodeOfDecodedFrame : Obligations.EncodeOfDecodedFrame := by
  intro w i h
  obtain ⟨row, hrow, hw, rfl⟩ := exists_row_of_decodeFrame h
  exact encode_make hrow hw

/-! ## Which rows a word matches -/

/-- Of rows that fix one subtype and each of the message types once, a word of that subtype matches one. -/
theorem length_filter_rowMatches {st : BitVec 7} {rows : List FrameRow}
    (hfix : ∀ row ∈ rows, ∃ t, FixesType st t row)
    (hpat : rows.map FrameRow.pattern = (List.finRange 16).map fun k => bareWord st (.ofFin k)) (w : BitVec 16) :
    (rows.filter (rowMatches w)).length = if frameSubtype w = st then 1 else 0 := by
  have hnodup : ((List.finRange 16).map fun k => bareWord st (.ofFin k)).Nodup :=
    (List.nodup_finRange 16).map fun j k h => BitVec.ofFin.inj (bareWord_inj.1 h).2
  have hmem : (w &&& 0x7f0f#16 ∈ (List.finRange 16).map fun k => bareWord st (.ofFin k)) ↔ frameSubtype w = st := by
    rw [List.mem_map, and_typeMask]
    constructor
    · rintro ⟨k, -, hk⟩
      exact (bareWord_inj.1 hk).1.symm
    · rintro rfl
      exact ⟨(frameMessageType w).toFin, List.mem_finRange _, rfl⟩
  calc (rows.filter (rowMatches w)).length
      = rows.countP (fun row => row.pattern == w &&& 0x7f0f#16) := by
        rw [← List.countP_eq_length_filter]
        refine List.countP_congr fun row hrow => ?_
        obtain ⟨t, ht⟩ := hfix row hrow
        rw [rowMatches, ht.mask, beq_iff_eq, beq_iff_eq, eq_comm]
    _ = (rows.map FrameRow.pattern).count (w &&& 0x7f0f#16) := by rw [List.count, List.countP_map]; rfl
    _ = if frameSubtype w = st then 1 else 0 := by rw [hpat, hnodup.count, if_congr hmem rfl rfl]

theorem length_filter_adpRows (w : BitVec 16) :
    (adpRows.filter (rowMatches w)).length = if frameSubtype w = 0x7a#7 then 1 else 0 := by
  rw [show adpRows = [adpRow] from rfl, List.filter_singleton, ← if_congr (rowMatches_adpRow w) rfl rfl]
  cases rowMatches w adpRow <;> rfl

/-- Settles O58: the rows of the three subtypes each match the words of their own subtype once. -/
theorem tableRowsDisjointAndComplete : Obligations.TableRowsDisjointAndComplete := by
  refine ⟨fun w => ?_, by decide⟩
  rw [frameTable, List.filter_append, List.filter_append, List.length_append, List.length_append,
    length_filter_adpRows, length_filter_rowMatches acmpRows_fixesType rfl,
    length_filter_rowMatches aecpRows_fixesType rfl]
  generalize frameSubtype w = st
  by_cases hadp : st = 0x7a#7
  · subst hadp; rfl
  by_cases haecp : st = 0x7b#7
  · subst haecp; rfl
  by_cases hacmp : st = 0x7c#7
  · subst hacmp; rfl
  simp [hadp, haecp, hacmp]

/-! ## Words of the opcode table -/

/-- A table word whose octets are those of an instruction, at its level, reads as that instruction. -/
theorem decodeTableWord_of_encodeOctets {nbits w : Nat} (i : Instr) (hlevel : tableLevel nbits = (encode i).level)
    (hoctets : tableOctets nbits w = encodeOctets i) : decodeTableWord nbits w = some i := by
  rw [decodeTableWord, hlevel, hoctets, decodeOctetsOfEncodeOctets i]

/-- Settles O59: five words are the octets of the instructions they stand for; `OP` 0x0a and subtype 0x7d stand in no
row. -/
theorem tableWordsDecode : Obligations.TableWordsDecode :=
  ⟨decodeTableWord_of_encodeOctets _ rfl rfl, decodeTableWord_of_encodeOctets _ rfl rfl, rfl,
    decodeTableWord_of_encodeOctets _ rfl rfl, decodeTableWord_of_encodeOctets _ rfl rfl,
    decodeTableWord_of_encodeOctets _ rfl rfl, rfl⟩

end Sys2Proof.Machine
end

section
/-!
PROOFS. DECMSG is the decoder its subtype selects (R201), and the reserved ACMP rows and the AECP rows end as their
message type says (R103, R105, R106).
-/

namespace Sys2Proof.Machine

/-! ## The subtype of the frame in `BUF` -/

/-- Octet 0 of a header holds its subtype in the low seven bits (R86, R90). -/
theorem HeaderAt.exists_octet_zero {m : Memory} {h : Header} (hh : HeaderAt m h) :
    ∃ b, m.get 0 = some b ∧ b.extractLsb' 0 7 = h.subtype := by
  have hread := (readHeader_eq_some m h).2 hh
  obtain ⟨b, hb, hread⟩ := Option.bind_eq_some_iff.1 hread
  obtain ⟨_, -, hread⟩ := Option.bind_eq_some_iff.1 hread
  obtain ⟨_, -, hread⟩ := Option.bind_eq_some_iff.1 hread
  obtain ⟨_, -, hread⟩ := Option.bind_eq_some_iff.1 hread
  exact ⟨b, hb, congrArg Header.subtype (Option.some.inj hread)⟩

theorem decodeMessage_short (s : State) (h : s.len.toNat < 4) :
    decodeMessage s = .next (s.raise .decode (.truncatedPacket s.len)) := by
  rw [decodeMessage, if_pos (by simpa [hdrLen] using h), failDecode]

/-- With a header in the buffer, DECMSG is settled by the subtype. -/
theorem decodeMessage_long (s : State) (x : Header) (hl : 4 ≤ s.len.toNat) (hx : HeaderAt s.buf x) :
    decodeMessage s =
      if x.subtype = 0x7a#7 then decodeAdp (readHeader s.buf) s
      else if x.subtype = 0x7b#7 then decodeAecp (readHeader s.buf) s
      else if x.subtype = 0x7c#7 then decodeAcmp (readHeader s.buf) s
      else .next (s.raise .decode (.unknownSubtype x.subtype)) := by
  obtain ⟨b, hb, hst⟩ := hx.exists_octet_zero
  rw [decodeMessage, if_neg (by simpa [hdrLen] using hl), hb, withCells_some]
  simp only [hst, failDecode, subtypeAdp, subtypeAecp, subtypeAcmp]

/-- Settles O28: the header stands in every buffer of four octets, and its subtype is the one DECMSG looks at. -/
theorem decmsgDispatchesOnSubtype : Obligations.DecmsgDispatchesOnSubtype := by
  constructor
  · rintro ⟨_, a, lo, hi, off, val⟩ rfl
    rfl
  · rintro s ⟨hbuf, -⟩
    split
    · exact decodeMessage_short s ‹_›
    · have hl : 4 ≤ s.len.toNat := Nat.le_of_not_lt ‹_›
      obtain ⟨x, hx⟩ := exists_headerAt s.buf _ hbuf hl
      have hexec : exec .decmsg s = _ := decodeMessage_long s x hl hx
      refine ⟨x, hx, ?_⟩
      rw [hexec]
      split_ifs <;> rfl

/-! ## The reserved ACMP rows -/

/-- A row of a message type outside the enumeration raises UnknownMessageType before it looks at the status (R105,
R164). -/
theorem runAcmpFrame_reserved {s : State} {t : BitVec 4} (p : FrameBits) (hs : BufferOk s) (ht : 13 < t.toNat) :
    runAcmpFrame t p s =
      if s.len.toNat < 56 then .next (s.raise .decode (.truncatedPacket s.len))
      else .next (s.raise .decode (.unknownMessageType t)) := by
  split
  · exact decodeAcmp_short s _ ‹_›
  · have hl : 56 ≤ s.len.toNat := Nat.le_of_not_lt ‹_›
    obtain ⟨x, hx⟩ := exists_frameHeader (frameWord subtypeAcmp p t) s.buf _ hs.1 (by omega)
    obtain rfl := frameHeader_messageType _ _ _ _ _ hx
    rw [runAcmpFrame, hx]
    exact decodeAcmp_raise s x _ hl (acmpCheck_unknownMessageType x ht)

/-- Settles O33: message types 14 and 15 are outside the enumeration. -/
theorem acmpReservedRowsRaise : Obligations.AcmpReservedRowsRaise := by
  intro row hrow s p hs
  obtain ⟨ht, hexec⟩ : 13 < row.1.toNat ∧ exec (row.2 p) s = runAcmpFrame row.1 p s := by
    fin_cases hrow <;> exact ⟨by decide, rfl⟩
  exact hexec.trans (runAcmpFrame_reserved p hs ht)

/-! ## The AECP rows -/

/-- With 22 octets in the buffer, a row has a header of its own message type and common fields to decode (R177). -/
theorem runAecpFrame_long {s : State} (t : BitVec 4) (p : FrameBits) (hs : BufferOk s) (hl : 22 ≤ s.len.toNat) :
    ∃ x c, x.messageType = t ∧ AecpCommonAt s.buf c ∧ runAecpFrame t p s = decodeAecp (some x) s := by
  obtain ⟨x, hx⟩ := exists_frameHeader (frameWord subtypeAecp p t) s.buf _ hs.1 (by omega)
  obtain ⟨c, hc⟩ := exists_aecpCommonAt s.buf _ hs.1 hl
  exact ⟨x, c, frameHeader_messageType _ _ _ _ _ hx, hc, by rw [runAecpFrame, hx]⟩

/-- A row whose message type selects no variant raises the error its kind names, after the first length check (R106,
R176). -/
theorem runAecpFrame_reserved {s : State} {t : BitVec 4} {e : CodecError} (p : FrameBits) (hs : BufferOk s)
    (he : variantOf t = .unknown ∧ e = .unknownMessageType t ∨
      variantOf t = .unsupported ∧ e = .unsupportedVariant t) :
    runAecpFrame t p s =
      if s.len.toNat < 22 then .next (s.raise .decode (.truncatedPacket s.len)) else .next (s.raise .decode e) := by
  split
  · exact decodeAecp_short s _ ‹_›
  · have hl : 22 ≤ s.len.toNat := Nat.le_of_not_lt ‹_›
    obtain ⟨x, c, rfl, hc, hrun⟩ := runAecpFrame_long t p hs hl
    rw [hrun, decodeAecp_long s x c hl hc]
    obtain ⟨hv, rfl⟩ | ⟨hv, rfl⟩ := he <;> rw [hv] <;> rfl

/-- Settles O35: message types 8 to 13 select nothing, 14 and 15 a variant that is not decodable. -/
theorem aecpReservedRowsRaise : Obligations.AecpReservedRowsRaise := by
  intro row hrow s p hs
  obtain ⟨hkind, hexec⟩ :
      (variantOf row.1 = .unknown ∧ row.2.1 = 4#3 ∨ variantOf row.1 = .unsupported ∧ row.2.1 = 6#3) ∧
        exec (row.2.2 p) s = runAecpFrame row.1 p s := by
    fin_cases hrow <;> exact ⟨by decide, rfl⟩
  obtain ⟨hv, hcode⟩ | ⟨hv, hcode⟩ := hkind
  · rw [hexec, hcode]
    exact runAecpFrame_reserved p hs (.inl ⟨hv, rfl⟩)
  · rw [hexec, hcode]
    exact runAecpFrame_reserved p hs (.inr ⟨hv, rfl⟩)

/-- A row decodes a frame of its own word and variant (R177 to R181). -/
theorem runAecpFrame_ok {s : State} {h : Header} {c : AecpCommon} {p : Payload} {bs : List Byte}
    (hframe : AecpFrame s.buf h c p bs) (hst : h.subtype = 0x7b#7)
    (hv : variantOf h.messageType = .variant p.variant) (hl : s.len.toNat = p.variant.dataStart + bs.length) :
    runAecpFrame h.messageType h.bits s = .next (s.finishDecode (aecpMsg h c p bs)) := by
  obtain ⟨hh, hc, hp, hd⟩ := hframe
  have hread := frameHeader_eq_some s.buf h hh
  rw [hst] at hread
  rw [runAecpFrame, subtypeAecp, hread]
  exact decodeAecp_ok s h c p bs hv hc hl hp hd

/-- A row raises TruncatedPacket where the fixed part of its variant does not fit, by the first or the second length
check (R177). -/
theorem runAecpFrame_short {s : State} {t : BitVec 4} {v : Variant} (p : FrameBits) (hs : BufferOk s)
    (hv : variantOf t = .variant v) (hl : s.len.toNat < v.dataStart) :
    runAecpFrame t p s = .next (s.raise .decode (.truncatedPacket s.len)) := by
  rcases Nat.lt_or_ge s.len.toNat 22 with hshort | hlong
  · exact decodeAecp_short s _ hshort
  · obtain ⟨x, c, rfl, hc, hrun⟩ := runAecpFrame_long t p hs hlong
    rw [hrun, decodeAecp_long s x c hlong hc, hv]
    exact decodeAecpPayload_short s x c v hl

/-- Settles O34: each row's message type selects its variant. -/
theorem aecpRowsDecode : Obligations.AecpRowsDecode := by
  intro row hrow
  obtain ⟨hv, hexec⟩ : variantOf row.1 = .variant row.2.1 ∧ ∀ p s, exec (row.2.2 p) s = runAecpFrame row.1 p s := by
    fin_cases hrow <;> exact ⟨rfl, fun _ _ => rfl⟩
  constructor
  · intro s h c p bs hframe hst ht hp hl
    rw [← ht, ← hp] at hv
    rw [hexec, ← ht]
    exact runAecpFrame_ok hframe hst hv hl
  · intro s p hs hl
    rw [hexec]
    exact runAecpFrame_short p hs hv hl

end Sys2Proof.Machine
end

section
/-!
PROOFS. The primitives on bit ranges and on big-endian integers in `BUF` (R120 to R131): one equation per way each shared
operation can end, the bits of the octet operands, and from them what RDBITS, WRBITS, RDBE and WRBE answer.
-/

namespace Sys2Proof.Machine

/-! ## Requests -/

/-- A request is decoded by the row of its `OP` alone (R84). -/
theorem decode_request_of_row {op : BitVec 8} (row : OpRow) (hrow : opTable.find? (fun x => x.op == op) = some row)
    {r : Request} (hr : r.op = op) : decode (.request r) = .ok (row.make r) := by
  rw [decode, decodeRequest, hr, hrow]

/-! ## The operand checks -/

theorem rangeOk_iff {lo hi : BitVec 3} : rangeOk lo hi = true ↔ lo.toNat ≤ hi.toNat := decide_eq_true_iff

theorem fits_iff {val : BitVec 64} {w : Nat} : fits val w = true ↔ val.toNat < 2 ^ w := decide_eq_true_iff

theorem inBounds_iff {off : BitVec 10} {n : Nat} {s : State} :
    inBounds off n s = true ↔ off.toNat + n ≤ s.len.toNat := decide_eq_true_iff

/-! ## The ways a primitive can end -/

theorem execRdbits_range {lo hi : BitVec 3} (a : BitVec 8) (s : State) (h : lo.toNat ≤ hi.toNat) :
    execRdbits a lo hi s = .next (s.succeed (some (BitVec.ofNat 64 (extractBits a lo hi)))) :=
  if_pos (rangeOk_iff.2 h)

theorem execRdbits_emptyRange {lo hi : BitVec 3} (a : BitVec 8) (s : State) (h : ¬ lo.toNat ≤ hi.toNat) :
    execRdbits a lo hi s = .refused (.emptyRange lo hi) :=
  if_neg (mt rangeOk_iff.1 h)

theorem execWrbits_range {lo hi : BitVec 3} (a : BitVec 8) (val : BitVec 64) (s : State) (h : lo.toNat ≤ hi.toNat) :
    execWrbits a lo hi val s =
      if val.toNat < 2 ^ rangeWidth lo hi then .next (s.succeed (some ((insertBits a lo hi val).setWidth 64)))
      else .next (s.raise .primitive (.valueOutOfRange (BitVec.ofNat 16 (rangeWidth lo hi)))) := by
  rw [execWrbits, if_pos (rangeOk_iff.2 h)]
  simp only [fits_iff]

theorem execWrbits_emptyRange {lo hi : BitVec 3} (a : BitVec 8) (val : BitVec 64) (s : State)
    (h : ¬ lo.toNat ≤ hi.toNat) : execWrbits a lo hi val s = .refused (.emptyRange lo hi) :=
  if_neg (mt rangeOk_iff.1 h)

/-- Within `LEN` a read finds the integer that stands at `OFF` (R57, R126 to R128). -/
theorem loadBe_inBounds {n : Nat} {off : BitVec 10} {s : State} (k : Nat → BitVec 64) (hs : BufferOk s)
    (h : off.toNat + n ≤ s.len.toNat) :
    ∃ v, FieldAt s.buf off.toNat n v ∧ v < 2 ^ (8 * n) ∧ loadBe n off s k = .next (s.succeed (some (k v))) := by
  obtain ⟨hbuf, -⟩ := hs
  obtain ⟨v, hv⟩ := exists_memRead hbuf h
  obtain ⟨hfield, hlt⟩ := (Memory.memRead_eq_some _ _ _ _).1 hv
  refine ⟨v, hfield, hlt.trans_eq (Nat.pow_mul 2 8 n).symm, ?_⟩
  rw [loadBe, if_pos (inBounds_iff.2 h), hv, withCells_some]

theorem loadBe_outOfBounds {n : Nat} {off : BitVec 10} {s : State} (k : Nat → BitVec 64)
    (h : ¬ off.toNat + n ≤ s.len.toNat) :
    loadBe n off s k = .next (s.raise .primitive (.truncatedPacket s.len)) :=
  if_neg (mt inBounds_iff.1 h)

/-- Within `LEN` a write is settled by the range of its value (R129 to R131, R236 (a)). -/
theorem storeBe_inBounds {n : Nat} {off : BitVec 10} {s : State} (val : BitVec 64)
    (h : off.toNat + n ≤ s.len.toNat) :
    storeBe n off val s =
      if val.toNat < 2 ^ (8 * n) then .next { s.succeed none with buf := s.buf.memWrite off.toNat n val.toNat }
      else .next (s.raise .primitive (.valueOutOfRange (BitVec.ofNat 16 (8 * n)))) := by
  rw [storeBe, if_pos (inBounds_iff.2 h)]
  simp only [fits_iff]

theorem storeBe_outOfBounds {n : Nat} {off : BitVec 10} {s : State} (val : BitVec 64)
    (h : ¬ off.toNat + n ≤ s.len.toNat) :
    storeBe n off val s = .next (s.raise .primitive (.truncatedPacket s.len)) :=
  if_neg (mt inBounds_iff.1 h)

/-! ## Bit ranges of an octet -/

/-- Bit `i` of the integer in the range is bit `LO + i` of the octet, up to the width (R121). -/
theorem testBit_extractBits (a : Byte) (lo hi : BitVec 3) (i : Nat) :
    (extractBits a lo hi).testBit i = (decide (i ≤ hi.toNat - lo.toNat) && a.getLsbD (lo.toNat + i)) := by
  rw [extractBits, Nat.testBit_mod_two_pow, Nat.testBit_shiftRight, BitVec.testBit_toNat]
  simp only [rangeWidth, Nat.lt_succ_iff]

theorem getLsbD_ofNat_extractBits (a : Byte) (lo hi : BitVec 3) (i : Nat) :
    (BitVec.ofNat 64 (extractBits a lo hi)).getLsbD i =
      (decide (i ≤ hi.toNat - lo.toNat) && a.getLsbD (lo.toNat + i)) := by
  have hhi : hi.toNat < 8 := hi.isLt
  rw [BitVec.getLsbD_ofNat, testBit_extractBits]
  by_cases hbit : i < 64
  · simp only [hbit, decide_true, Bool.true_and]
  · have hout : ¬ i ≤ hi.toNat - lo.toNat := by omega
    simp only [hout, decide_false, Bool.false_and, Bool.and_false]

/-- The mask holds ones exactly in the range (R122). -/
theorem getLsbD_rangeMask {lo hi : BitVec 3} (hle : lo.toNat ≤ hi.toNat) (i : Nat) :
    (rangeMask lo hi).getLsbD i = decide (lo.toNat ≤ i ∧ i ≤ hi.toNat) := by
  have hhi : hi.toNat < 8 := hi.isLt
  rw [rangeMask, BitVec.getLsbD_shiftLeft, BitVec.getLsbD_ofNat, Nat.testBit_two_pow_sub_one, rangeWidth,
    Bool.eq_iff_iff]
  simp only [Bool.and_eq_true, Bool.not_eq_true', decide_eq_true_eq, decide_eq_false_iff_not]
  omega

/-- A value that fits the range sets its bits inside the range and no bit outside it (R122). -/
theorem getLsbD_insertBits {lo hi : BitVec 3} {val : BitVec 64} (a : Byte) (hle : lo.toNat ≤ hi.toNat)
    (hfit : val.toNat < 2 ^ rangeWidth lo hi) {i : Nat} (hi8 : i < 8) :
    (insertBits a lo hi val).getLsbD i =
      if lo.toNat ≤ i ∧ i ≤ hi.toNat then val.getLsbD (i - lo.toNat) else a.getLsbD i := by
  rw [insertBits, BitVec.getLsbD_or, BitVec.getLsbD_and, BitVec.getLsbD_not, getLsbD_rangeMask hle,
    BitVec.getLsbD_shiftLeft, BitVec.getLsbD_setWidth]
  by_cases hin : lo.toNat ≤ i ∧ i ≤ hi.toNat
  · have hlo : ¬ i < lo.toNat := by omega
    have hsub : i - lo.toNat < 8 := by omega
    simp [hin, hlo, hsub, hi8]
  · have hval : ¬ i < lo.toNat → val.getLsbD (i - lo.toNat) = false := fun hlo =>
      Nat.testBit_lt_two_pow (hfit.trans_le (Nat.pow_le_pow_right (by decide) (by rw [rangeWidth]; omega)))
    by_cases hlo : i < lo.toNat
    · simp [hin, hlo, hi8]
    · simp [hin, hval hlo, hi8]

/-- Settles O1: the bits of the result are those of `extractBits`. -/
theorem rdbitsExtractsRange : Obligations.RdbitsExtractsRange := by
  refine ⟨fun _ => decode_request_of_row ⟨0x01#8, fun r => .rdbits r.a r.lo r.hi⟩ rfl, ?_⟩
  intro a lo hi s
  split
  · exact ⟨_, execRdbits_range a s ‹_›, getLsbD_ofNat_extractBits a lo hi⟩
  · exact execRdbits_emptyRange a s ‹_›

/-- Settles O2: the octet stored is `insertBits`; the width of the range is the error's information. -/
theorem wrbitsReplacesRange : Obligations.WrbitsReplacesRange := by
  refine ⟨fun _ => decode_request_of_row ⟨0x02#8, fun r => .wrbits r.a r.lo r.hi r.val⟩ rfl, ?_⟩
  intro a lo hi val s
  split
  · rename_i hle
    have hexec : exec (.wrbits a lo hi val) s = _ := execWrbits_range a val s hle
    split
    · rename_i hfit
      exact ⟨_, hexec.trans (if_pos hfit), fun i => getLsbD_insertBits a hle hfit⟩
    · rename_i hfit
      exact hexec.trans (if_neg hfit)
  · exact execWrbits_emptyRange a val s ‹_›

/-! ## Big-endian integers in the buffer -/

/-- The reads RDBE16, RDBE32 and RDBE64 are, for every number of octets that `RES` holds (R126 to R128). -/
theorem loadBe_zeroExtended {n : Nat} (hn : n ≤ 8) (off : BitVec 10) {s : State} (hs : BufferOk s) :
    if off.toNat + n ≤ s.len.toNat then
      ∃ v : BitVec 64, FieldAt s.buf off.toNat n v.toNat ∧ v.toNat < 2 ^ (8 * n) ∧
        loadBe n off s (BitVec.ofNat 64) = .next { s with res := some v, err := 0, errinfo := none }
    else loadBe n off s (BitVec.ofNat 64) =
      .next { s with res := none, err := 1, errinfo := some (s.len.setWidth 16) } := by
  split
  · obtain ⟨v, hfield, hlt, hload⟩ := loadBe_inBounds (BitVec.ofNat 64) hs ‹_›
    have hv : (BitVec.ofNat 64 v).toNat = v :=
      Nat.mod_eq_of_lt (hlt.trans_le (Nat.pow_le_pow_right (by decide) (by omega)))
    exact ⟨BitVec.ofNat 64 v, hv.symm ▸ hfield, hv.symm ▸ hlt, hload⟩
  · exact loadBe_outOfBounds _ ‹_›

/-- Settles O4: the three reads are one, for 2, 4 and 8 octets; every 64-bit value meets the bound of the last. -/
theorem rdbeReadsBigEndian : Obligations.RdbeReadsBigEndian := by
  refine ⟨fun _ => decode_request_of_row ⟨0x03#8, fun r => .rdbe16 r.off⟩ rfl,
    fun _ => decode_request_of_row ⟨0x04#8, fun r => .rdbe32 r.off⟩ rfl,
    fun _ => decode_request_of_row ⟨0x05#8, fun r => .rdbe64 r.off⟩ rfl, ?_⟩
  intro s off hs
  refine ⟨loadBe_zeroExtended (by decide) off hs, loadBe_zeroExtended (by decide) off hs, ?_⟩
  have h64 := loadBe_zeroExtended (n := 8) (by decide) off hs
  split at h64
  · rw [if_pos ‹_›]
    obtain ⟨v, hfield, -, hload⟩ := h64
    exact ⟨v, hfield, hload⟩
  · rw [if_neg ‹_›]
    exact h64

/-- The writes WRBE16, WRBE32 and WRBE64 are, for every number of octets (R129 to R131). -/
theorem storeBe_outcomes (n : Nat) (s : State) (off : BitVec 10) (val : BitVec 64) :
    if s.len.toNat < off.toNat + n then
      storeBe n off val s = .next { s with res := none, err := 1, errinfo := some (s.len.setWidth 16) }
    else if 2 ^ (8 * n) ≤ val.toNat then
      storeBe n off val s = .next { s with res := none, err := 2, errinfo := some (BitVec.ofNat 16 (8 * n)) }
    else ∃ m, FieldAt m off.toNat n val.toNat ∧
      (∀ i, i < off.toNat ∨ off.toNat + n ≤ i → m.get i = s.buf.get i) ∧
      storeBe n off val s = .next { s with buf := m, res := none, err := 0, errinfo := none } := by
  split
  · exact storeBe_outOfBounds val (Nat.not_le.2 ‹_›)
  · have hstore := storeBe_inBounds (n := n) (off := off) (s := s) val (Nat.not_lt.1 ‹_›)
    split
    · exact hstore.trans (if_neg (Nat.not_lt.2 ‹_›))
    · exact ⟨_, Memory.fieldAt_memWrite _ _ _ _, Memory.get_memWrite_outside _ _ _ _,
        hstore.trans (if_pos (Nat.not_le.1 ‹_›))⟩

/-- Settles O5: the three writes are one, for 2, 4 and 8 octets; no 64-bit value is too large for the last. -/
theorem wrbeStoresBigEndian : Obligations.WrbeStoresBigEndian := by
  refine ⟨fun _ => decode_request_of_row ⟨0x06#8, fun r => .wrbe16 r.off r.val⟩ rfl,
    fun _ => decode_request_of_row ⟨0x07#8, fun r => .wrbe32 r.off r.val⟩ rfl,
    fun _ => decode_request_of_row ⟨0x08#8, fun r => .wrbe64 r.off r.val⟩ rfl, ?_⟩
  intro s off val
  refine ⟨storeBe_outcomes 2 s off val, storeBe_outcomes 4 s off val, ?_⟩
  have h64 := storeBe_outcomes 8 s off val
  rwa [if_neg (Nat.not_le.2 val.isLt)] at h64

end Sys2Proof.Machine
end

section
/-!
PROOFS. The header codec as an operation on its own: what DECHDR and ENCHDR answer in every state, the truncation and the
refusal with them (R141, R142).
-/

namespace Sys2Proof.Machine

/-- A register that holds none refuses the encode that reads it (R142). -/
theorem withRegs_none {α : Type} (k : α → Result) : withRegs none k = .refused .encodeReadsNone := rfl

theorem decodeHeader_short (s : State) (h : s.len.toNat < 4) :
    decodeHeader s = .next (s.raise .decode (.truncatedPacket s.len)) := by
  rw [decodeHeader, if_pos (by simpa [hdrLen] using h), failDecode]

theorem encodeHeader_refused (s : State) (h : ∃ r, s.msg.h.get r = none) :
    encodeHeader s = .refused .encodeReadsNone := by
  rw [encodeHeader, HRegs.value_eq_none _ h, withRegs_none]

/-- Settles O9: the length check of R141 comes first, and past it the four cells hold a header, which is what is read. -/
theorem dechdrDecodesHeader : Obligations.DechdrDecodesHeader := by
  refine ⟨fun _ => decode_request_of_row ⟨0x10#8, fun _ => .dechdr⟩ rfl, ?_⟩
  rintro s ⟨hbuf, -⟩
  split
  · exact decodeHeader_short s ‹_›
  · have hl : 4 ≤ s.len.toNat := Nat.le_of_not_lt ‹_›
    obtain ⟨h, hh⟩ := exists_headerAt s.buf _ hbuf hl
    exact ⟨h, hh, decodeHeader_ok s h hl hh⟩

/-- Settles O10: the buffer is the one that `writeHeader` makes of no cells; no message register is touched. -/
theorem enchdrEncodesHeader : Obligations.EnchdrEncodesHeader := by
  refine ⟨fun _ => decode_request_of_row ⟨0x11#8, fun _ => .enchdr⟩ rfl, ?_⟩
  intro s
  constructor
  · intro h hregs
    exact ⟨writeHeader [] h, headerAt_writeHeader [] h, holdsExactly_writeHeader h, encodeHeader_ok s h hregs⟩
  · exact encodeHeader_refused s

end Sys2Proof.Machine
end

section
/-!
PROOFS. The ADP codec as an operation on its own: what DECADP, the frame row ADP and ENCADP answer in every state, the
truncation and the refusal with them (R151, R152). Then DECMSG on a whole frame of each kind (R201): each decode answers
the message that stands in `BUF`, and DECMSG is the decode that the subtype selects.
-/

namespace Sys2Proof.Machine

/-! ## ADP -/

/-- A register of either group that holds none refuses the encode, whichever group is read first (R152). -/
theorem encodeAdp_refused (s : State) (h : (∃ r, s.msg.h.get r = none) ∨ ∃ r, s.msg.adp.get r = none) :
    encodeAdp s = .refused .encodeReadsNone := by
  rw [encodeAdp]
  rcases h with hh | hb
  · rw [HRegs.value_eq_none _ hh, withRegs_none]
  · rw [AdpRegs.value_eq_none _ hb]
    cases s.msg.h.value with
    | none => rfl
    | some x => rfl

/-- Settles O12: the length check of R151 comes first, and past it the cells hold a header and a body, which are what is
read. -/
theorem decadpDecodesDiscovery : Obligations.DecadpDecodesDiscovery := by
  refine ⟨fun _ => decode_request_of_row ⟨0x12#8, fun _ => .decadp⟩ rfl, ?_⟩
  rintro s ⟨hbuf, -⟩
  split
  · exact decodeAdp_short s _ ‹_›
  · have hl : 68 ≤ s.len.toNat := Nat.le_of_not_lt ‹_›
    obtain ⟨h, hh⟩ := exists_headerAt s.buf _ hbuf (by omega)
    obtain ⟨b, hb⟩ := exists_discoveryAt s.buf _ hbuf hl
    have hexec : exec .decadp s = decodeAdp (some h) s := congrArg (decodeAdp · s) ((readHeader_eq_some _ _).2 hh)
    exact ⟨h, b, ⟨hh, hb⟩, hexec.trans (decodeAdp_ok s h b hl hb)⟩

/-- Settles O13: the buffer is the one that `writeDiscovery` makes after the header, of no cells; no message register is
touched. -/
theorem encadpEncodesDiscovery : Obligations.EncadpEncodesDiscovery := by
  refine ⟨fun _ => decode_request_of_row ⟨0x13#8, fun _ => .encadp⟩ rfl, ?_⟩
  intro s
  constructor
  · intro h b hregs hbody
    exact ⟨_, adpFrame_write h b, holdsExactly_writeDiscovery _ b (holdsExactly_writeHeader h),
      encodeAdp_ok s h b hregs hbody⟩
  · exact encodeAdp_refused s

/-- The row ADP decodes a frame of its own word (R101, R111, R151). -/
theorem runAdpFrame_ok {s : State} {h : Header} {b : Discovery} (hframe : AdpFrame s.buf h b)
    (hst : h.subtype = 0x7a#7) (hl : 68 ≤ s.len.toNat) :
    runAdpFrame h.bits h.messageType s = .next (s.finishDecode (adpMsg h b)) := by
  obtain ⟨hh, hb⟩ := hframe
  have hread := frameHeader_eq_some s.buf h hh
  rw [hst] at hread
  rw [runAdpFrame, subtypeAdp, hread]
  exact decodeAdp_ok s h b hl hb

/-- Settles O31: the row is DECADP with octets 0 and 1 of the header taken from its word. -/
theorem adpRowDecodes : Obligations.AdpRowDecodes :=
  ⟨fun _ _ _ hl hframe hst => runAdpFrame_ok hframe hst hl, fun s _ _ hl => decodeAdp_short s _ hl⟩

/-! ## DECMSG on a whole frame -/

theorem decodeMessage_adp {s : State} {h : Header} (hh : HeaderAt s.buf h) (hl : 4 ≤ s.len.toNat)
    (hst : h.subtype = 0x7a#7) : decodeMessage s = decodeAdp (some h) s := by
  rw [decodeMessage_long s h hl hh, if_pos hst, (readHeader_eq_some _ _).2 hh]

theorem decodeMessage_aecp {s : State} {h : Header} (hh : HeaderAt s.buf h) (hl : 4 ≤ s.len.toNat)
    (hst : h.subtype = 0x7b#7) : decodeMessage s = decodeAecp (some h) s := by
  rw [decodeMessage_long s h hl hh, if_neg (by simp [hst]), if_pos hst, (readHeader_eq_some _ _).2 hh]

theorem decodeMessage_acmp {s : State} {h : Header} (hh : HeaderAt s.buf h) (hl : 4 ≤ s.len.toNat)
    (hst : h.subtype = 0x7c#7) : decodeMessage s = decodeAcmp (some h) s := by
  rw [decodeMessage_long s h hl hh, if_neg (by simp [hst]), if_neg (by simp [hst]), if_pos hst,
    (readHeader_eq_some _ _).2 hh]

/-- Settles O29: each frame is longer than a header, so its subtype selects its decode, which finds the message. -/
theorem decmsgDecodesEachKind : Obligations.DecmsgDecodesEachKind := by
  rintro s -
  refine ⟨?adp, ?acmp, ?aecp⟩
  case adp =>
    rintro h b ⟨hh, hb⟩ hst hl
    exact (decodeMessage_adp hh (by omega) hst).trans (decodeAdp_ok s h b hl hb)
  case acmp =>
    rintro h b ⟨hh, hb⟩ hst hl hty hstatus
    exact (decodeMessage_acmp hh (by omega) hst).trans (decodeAcmp_ok s h b hl (acmpCheck_none h hty hstatus) hb)
  case aecp =>
    rintro h c p bs ⟨hh, hc, hp, hd⟩ hst hv hl
    have hstart := p.variant.dataStart_ge
    exact (decodeMessage_aecp hh (by omega) hst).trans (decodeAecp_ok s h c p bs hv hc hl hp hd)

end Sys2Proof.Machine
end

section
/-!
PROOFS. The ACMP codec as an operation on its own: what DECACMP, the frame rows of the defined ACMP message types and ENCACMP
answer, their domain errors in order, the truncation and the refusal with them (R161 to R165).
-/

namespace Sys2Proof.Machine

/-- A register of either group that holds none refuses the encode, whichever group is read first (R162). -/
theorem encodeAcmp_refused (s : State) (h : (∃ r, s.msg.h.get r = none) ∨ ∃ r, s.msg.acmp.get r = none) :
    encodeAcmp s = .refused .encodeReadsNone := by
  rw [encodeAcmp]
  rcases h with hh | hb
  · rw [HRegs.value_eq_none _ hh, withRegs_none]
  · rw [AcmpRegs.value_eq_none _ hb]
    cases s.msg.h.value with
    | none => rfl
    | some x => rfl

/-- DECACMP decodes with the header that stands in `BUF`. -/
theorem exec_decacmp_of_headerAt {s : State} {h : Header} (hh : HeaderAt s.buf h) :
    exec .decacmp s = decodeAcmp (some h) s :=
  congrArg (decodeAcmp · s) ((readHeader_eq_some _ _).2 hh)

/-- Settles O15: the checks of R161 are taken in their order; past them the cells hold an ACMP body, which is what is
read. -/
theorem decacmpDecodesConnection : Obligations.DecacmpDecodesConnection := by
  refine ⟨fun _ => decode_request_of_row ⟨0x14#8, fun _ => .decacmp⟩ rfl, ?_⟩
  rintro s ⟨hbuf, -⟩
  split
  · exact decodeAcmp_short s _ ‹_›
  · have hl : 56 ≤ s.len.toNat := Nat.le_of_not_lt ‹_›
    obtain ⟨h, hh⟩ := exists_headerAt s.buf _ hbuf (by omega)
    have hexec := exec_decacmp_of_headerAt hh
    refine ⟨h, hh, ?_⟩
    split
    · exact hexec.trans (decodeAcmp_raise s h _ hl (acmpCheck_unknownMessageType h ‹_›))
    · have hty : h.messageType.toNat ≤ 13 := Nat.le_of_not_lt ‹_›
      split
      · exact hexec.trans (decodeAcmp_raise s h _ hl (acmpCheck_unknownStatus h hty ‹_›))
      · obtain ⟨b, hb⟩ := exists_connectionAt s.buf _ hbuf hl
        exact ⟨b, hb, hexec.trans (decodeAcmp_ok s h b hl (acmpCheck_none h hty (by omega)) hb)⟩

/-- Settles O16: the checks are those of the decode (R165); past them the buffer is the one that `writeConnection` makes
after the header, of no cells. -/
theorem encacmpEncodesConnection : Obligations.EncacmpEncodesConnection := by
  refine ⟨fun _ => decode_request_of_row ⟨0x15#8, fun _ => .encacmp⟩ rfl, ?_⟩
  intro s
  constructor
  · intro h b hregs hbody
    split
    · exact encodeAcmp_raise s h b _ hregs hbody (acmpCheck_unknownMessageType h ‹_›)
    · have hty : h.messageType.toNat ≤ 13 := Nat.le_of_not_lt ‹_›
      split
      · exact encodeAcmp_raise s h b _ hregs hbody (acmpCheck_unknownStatus h hty ‹_›)
      · exact ⟨_, acmpFrame_write h b, holdsExactly_writeConnection _ b (holdsExactly_writeHeader h),
          encodeAcmp_ok s h b hregs hbody (acmpCheck_none h hty (by omega))⟩
  · exact encodeAcmp_refused s

/-- On a frame of its own word a row decodes with the header that stands in `BUF` (R102, R111). -/
theorem runAcmpFrame_of_headerAt {s : State} {h : Header} (hh : HeaderAt s.buf h) (hst : h.subtype = 0x7c#7) :
    runAcmpFrame h.messageType h.bits s = decodeAcmp (some h) s := by
  have hread := frameHeader_eq_some s.buf h hh
  rw [hst] at hread
  rw [runAcmpFrame, subtypeAcmp, hread]

/-- Settles O32: each row's message type is defined, so its status alone decides between the message and UnknownStatus. -/
theorem acmpRowsDecode : Obligations.AcmpRowsDecode := by
  intro row hrow
  obtain ⟨hty, hexec⟩ : row.1.toNat ≤ 13 ∧ ∀ p s, exec (row.2 p) s = runAcmpFrame row.1 p s := by
    fin_cases hrow <;> exact ⟨by decide, fun _ _ => rfl⟩
  constructor
  · rintro s h b hl ⟨hh, hb⟩ hst ht
    rw [← ht] at hty
    rw [hexec, ← ht, runAcmpFrame_of_headerAt hh hst]
    split
    · exact decodeAcmp_ok s h b hl (acmpCheck_none h hty ‹_›) hb
    · have hstatus : 16 ≤ h.validTime.toNat ∧ h.validTime.toNat ≤ 30 := by omega
      exact decodeAcmp_raise s h _ hl (acmpCheck_unknownStatus h hty hstatus)
  · intro s p hl
    rw [hexec]
    exact decodeAcmp_short s _ hl

end Sys2Proof.Machine
end

section
/-!
PROOFS. The AECP codec as an operation on its own: what DECAECP answers for each message type, its errors in their order
and its four variants (R176 to R181), and what ENCAECP answers, with its refusals, its errors and the data budget (R182
to R190).
-/

namespace Sys2Proof.Machine

/-! ## Which message types select a variant (R176) -/

/-- The lower of the two message types that select a variant: the command, of which the other is the response. -/
def Variant.firstType : Variant → Nat
  | .v0 => 0
  | .v1 => 2
  | .v2 => 4
  | .v3 => 6

theorem variantOf_eq_variant_iff (t : BitVec 4) (v : Variant) :
    variantOf t = .variant v ↔ v.firstType ≤ t.toNat ∧ t.toNat ≤ v.firstType + 1 := by
  revert t
  cases v <;> decide

theorem exists_variantOf {t : BitVec 4} (h : t.toNat ≤ 7) : ∃ v, variantOf t = .variant v := by
  rcases Nat.lt_or_ge t.toNat 2 with h2 | h2
  · exact ⟨_, variantOf_v0 t (by omega)⟩
  rcases Nat.lt_or_ge t.toNat 4 with h4 | h4
  · exact ⟨_, variantOf_v1 t h2 (by omega)⟩
  rcases Nat.lt_or_ge t.toNat 6 with h6 | h6
  · exact ⟨_, variantOf_v2 t h4 (by omega)⟩
  exact ⟨_, variantOf_v3 t h6 h⟩

/-! ## The ways a decode can end -/

/-- DECAECP decodes with the header that stands in `BUF`. -/
theorem exec_decaecp_of_headerAt {s : State} {h : Header} (hh : HeaderAt s.buf h) :
    exec .decaecp s = decodeAecp (some h) s :=
  congrArg (decodeAecp · s) ((readHeader_eq_some _ _).2 hh)

/-- A message type that selects no variant raises the error its kind names, after the first length check (R176,
R177). -/
theorem decodeAecp_reserved {s : State} {x : Header} {e : CodecError} (hs : BufferOk s) (hl : 22 ≤ s.len.toNat)
    (he : variantOf x.messageType = .unknown ∧ e = .unknownMessageType x.messageType ∨
      variantOf x.messageType = .unsupported ∧ e = .unsupportedVariant x.messageType) :
    decodeAecp (some x) s = .next (s.raise .decode e) := by
  obtain ⟨c, hc⟩ := exists_aecpCommonAt s.buf _ hs.1 hl
  rw [decodeAecp_long s x c hl hc]
  obtain ⟨hv, rfl⟩ | ⟨hv, rfl⟩ := he <;> rw [hv] <;> rfl

/-- A buffer that does not hold the variant's fixed part fails the first or the second length check (R177). -/
theorem decodeAecp_truncated {s : State} {x : Header} {v : Variant} (hs : BufferOk s)
    (hv : variantOf x.messageType = .variant v) (hl : s.len.toNat < v.dataStart) :
    decodeAecp (some x) s = .next (s.raise .decode (.truncatedPacket s.len)) := by
  rcases Nat.lt_or_ge s.len.toNat 22 with hshort | hlong
  · exact decodeAecp_short s _ hshort
  · obtain ⟨c, hc⟩ := exists_aecpCommonAt s.buf _ hs.1 hlong
    rw [decodeAecp_long s x c hlong hc, hv]
    exact decodeAecpPayload_short s x c v hl

/-! ## DECAECP -/

/-- Settles O18: the first length check, then what the message type selects, then the second length check. -/
theorem decaecpErrorsInOrder : Obligations.DecaecpErrorsInOrder := by
  refine ⟨fun _ => decode_request_of_row ⟨0x16#8, fun _ => .decaecp⟩ rfl, ?_⟩
  intro s hs
  refine ⟨decodeAecp_short s _, ?_⟩
  intro h hl hh
  have hexec := exec_decaecp_of_headerAt hh
  refine ⟨?unsupported, ?unknown, ?truncated⟩
  case unsupported =>
    intro ht
    exact hexec.trans (decodeAecp_reserved hs hl (.inr ⟨variantOf_unsupported _ ht, rfl⟩))
  case unknown =>
    intro ht ht'
    exact hexec.trans (decodeAecp_reserved hs hl (.inl ⟨variantOf_unknown _ ht ht', rfl⟩))
  case truncated =>
    intro hshort
    have htype : h.messageType.toNat ≤ 7 := by omega
    obtain ⟨v, hv⟩ := exists_variantOf htype
    have hrange := (variantOf_eq_variant_iff _ _).1 hv
    have hfixed : s.len.toNat < v.dataStart := by
      cases v <;> simp only [Variant.firstType, Variant.dataStart] at hrange ⊢ <;> omega
    exact hexec.trans (decodeAecp_truncated hs hv hfixed)

/-- A buffer that holds the variant's fixed part holds a whole frame of it, with the data to its end (R177, R187). -/
theorem exec_decaecp_frame {s : State} {h : Header} {v : Variant} (hs : BufferOk s) (hl : v.dataStart ≤ s.len.toNat)
    (hh : HeaderAt s.buf h) (hv : variantOf h.messageType = .variant v) :
    ∃ c p bs, p.variant = v ∧ AecpFrame s.buf h c p bs ∧ bs.length = s.len.toNat - v.dataStart ∧
      exec .decaecp s = .next (s.finishDecode (aecpMsg h c p bs)) := by
  obtain ⟨hbuf, -⟩ := hs
  have hstart := v.dataStart_ge
  obtain ⟨c, hc⟩ := exists_aecpCommonAt s.buf _ hbuf (by omega)
  obtain ⟨p, rfl, hp⟩ := exists_payloadAt s.buf v _ hbuf hl
  obtain ⟨bs, hread⟩ := exists_readOctets hbuf (Nat.add_sub_of_le hl).le
  obtain ⟨hlen, hd⟩ := (readOctets_eq_some_iff _ _ _ _).1 hread
  have hexec := exec_decaecp_of_headerAt hh
  exact ⟨c, p, bs, rfl, ⟨hh, hc, hp, hd⟩, hlen, hexec.trans (decodeAecp_ok s h c p bs hv hc (by omega) hp hd)⟩

/-- Settles O19: message types 0 and 1 select V0, whose frame stands in 36 octets or more. -/
theorem decaecpVendorMessage : Obligations.DecaecpVendorMessage := by
  intro s h hs hl hh ht
  obtain ⟨c, p, bs, hp, hframe, hlen, hexec⟩ := exec_decaecp_frame (v := .v0) hs hl hh (variantOf_v0 _ ht)
  cases p <;> cases hp
  exact ⟨c, _, bs, hframe, hlen, hexec⟩

/-- Settles O20: message types 2 and 3 select V1, whose frame stands in 24 octets or more. -/
theorem decaecpAddressAccess : Obligations.DecaecpAddressAccess := by
  intro s h hs hl hh ht ht'
  obtain ⟨c, p, bs, hp, hframe, hlen, hexec⟩ := exec_decaecp_frame (v := .v1) hs hl hh (variantOf_v1 _ ht ht')
  cases p <;> cases hp
  exact ⟨c, _, bs, hframe, hlen, hexec⟩

/-- Settles O21: message types 4 and 5 select V2, whose frame stands in 24 octets or more. -/
theorem decaecpLegacyCommand : Obligations.DecaecpLegacyCommand := by
  intro s h hs hl hh ht ht'
  obtain ⟨c, p, bs, hp, hframe, hlen, hexec⟩ := exec_decaecp_frame (v := .v2) hs hl hh (variantOf_v2 _ ht ht')
  cases p <;> cases hp
  exact ⟨c, _, bs, hframe, hlen, hexec⟩

/-- Settles O22: message types 6 and 7 select V3, whose frame stands in 28 octets or more. -/
theorem decaecpVendorSpecific : Obligations.DecaecpVendorSpecific := by
  intro s h hs hl hh ht ht'
  obtain ⟨c, p, bs, hp, hframe, hlen, hexec⟩ := exec_decaecp_frame (v := .v3) hs hl hh (variantOf_v3 _ ht ht')
  cases p <;> cases hp
  exact ⟨c, _, bs, hframe, hlen, hexec⟩

/-! ## Registers that an encode reads -/

/-- The variant group of a payload holds it in every register; the other groups may hold anything. -/
def Msg.HoldsPayload (m : Msg) : Payload → Prop
  | .v0 q => m.v0 = .of q
  | .v1 q => m.v1 = .of q
  | .v2 q => m.v2 = .of q
  | .v3 q => m.v3 = .of q

/-- An encode reads a payload exactly where its variant group holds it. -/
theorem Msg.payload_eq_some_iff (m : Msg) (p : Payload) : m.payload p.variant = some p ↔ m.HoldsPayload p := by
  cases p with
  | v0 q => simp [Msg.payload, Payload.variant, Msg.HoldsPayload, V0Regs.value_eq_some]
  | v1 q => simp [Msg.payload, Payload.variant, Msg.HoldsPayload, V1Regs.value_eq_some]
  | v2 q => simp [Msg.payload, Payload.variant, Msg.HoldsPayload, V2Regs.value_eq_some]
  | v3 q => simp [Msg.payload, Payload.variant, Msg.HoldsPayload, V3Regs.value_eq_some]

theorem AecpRegs.value_eq_none {g : AecpRegs}
    (h : g.targetId = none ∨ g.controllerId = none ∨ g.sequenceId = none) : g.value = none := by
  refine Option.eq_none_iff_forall_ne_some.2 fun x hx => ?_
  obtain rfl := (AecpRegs.value_eq_some _ _).1 hx
  obtain h | h | h := h <;> cases h

theorem V0Regs.value_eq_none {g : V0Regs} (h : g.modeLen = none ∨ g.ouiFlags = none ∨ g.typeFlags = none ∨
    g.index1 = none ∨ g.index2 = none ∨ g.index3 = none) : g.value = none := by
  refine Option.eq_none_iff_forall_ne_some.2 fun x hx => ?_
  obtain rfl := (V0Regs.value_eq_some _ _).1 hx
  obtain h | h | h | h | h | h := h <;> cases h

theorem V1Regs.value_eq_none {g : V1Regs} (h : g.modeLen = none) : g.value = none := by
  rw [V1Regs.value, h]
  rfl

theorem V2Regs.value_eq_none {g : V2Regs} (h : g.length = none) : g.value = none := by
  rw [V2Regs.value, h]
  rfl

theorem V3Regs.value_eq_none {g : V3Regs} (h : g.protocolId = none) : g.value = none := by
  rw [V3Regs.value, h]
  rfl

theorem Memory.readOctets_eq_none {m : Memory} {n i : Nat} (hi : i < n) (h : m.get i = none) :
    m.readOctets 0 n = none := by
  refine Option.eq_none_iff_forall_ne_some.2 fun bs hbs => ?_
  obtain ⟨hlen, hget⟩ := (Memory.readOctets_eq_some _ _ _ _).1 hbs
  have hcell := hget i hi
  rw [Nat.zero_add, h] at hcell
  exact absurd (List.getElem?_eq_none_iff.1 hcell.symm) (by omega)

/-! ## The ways an encode can end -/

/-- An encode that is refused whatever value the registers hold is refused (R33). -/
theorem withRegs_refused {α : Type} {x : Option α} {k : α → Result} (hk : ∀ a, k a = .refused .encodeReadsNone) :
    withRegs x k = .refused .encodeReadsNone := by
  cases x with
  | none => rfl
  | some a => exact hk a

/-- A register of group `H` or `AECP` that holds none refuses the encode, whichever group is read first (R182). -/
theorem encodeAecp_refused {s : State} (h : (∃ r, s.msg.h.get r = none) ∨ s.msg.aecp.targetId = none ∨
    s.msg.aecp.controllerId = none ∨ s.msg.aecp.sequenceId = none) : encodeAecp s = .refused .encodeReadsNone := by
  rcases h with hh | hc
  · rw [encodeAecp, HRegs.value_eq_none _ hh, withRegs_none]
  · exact withRegs_refused fun _ => by rw [AecpRegs.value_eq_none hc, withRegs_none]

/-- A message type that selects no variant raises the error its kind names (R188). -/
theorem encodeAecp_reserved {s : State} {h : Header} {c : AecpCommon} {e : CodecError} (hh : s.msg.h = .of h)
    (hc : s.msg.aecp = .of c)
    (he : variantOf h.messageType = .unknown ∧ e = .unknownMessageType h.messageType ∨
      variantOf h.messageType = .unsupported ∧ e = .unsupportedVariant h.messageType) :
    encodeAecp s = .next (s.raise .encode e) := by
  rw [encodeAecp_eq s h c hh hc]
  obtain ⟨hv, rfl⟩ | ⟨hv, rfl⟩ := he <;> rw [hv] <;> rfl

theorem encodeAecp_variant {s : State} {h : Header} {c : AecpCommon} {v : Variant} (hh : s.msg.h = .of h)
    (hc : s.msg.aecp = .of c) (hv : variantOf h.messageType = .variant v) :
    encodeAecp s = encodeAecpPayload h c v s := by
  rw [encodeAecp_eq s h c hh hc, hv]

/-- What refuses an encode once its variant is selected: its group, `DLEN`, or within the budget a cell of `DATA`, that
holds none (R33, R182). -/
theorem encodeAecp_variant_refused {s : State} {h : Header} {c : AecpCommon} {v : Variant} (hh : s.msg.h = .of h)
    (hc : s.msg.aecp = .of c) (hv : variantOf h.messageType = .variant v)
    (hnone : s.msg.payload v = none ∨ s.msg.dlen = none ∨
      ∃ d i, s.msg.dlen = some d ∧ d.toNat ≤ v.dataMax ∧ i < d.toNat ∧ s.msg.data.get i = none) :
    encodeAecp s = .refused .encodeReadsNone := by
  rw [encodeAecp_variant hh hc hv]
  rcases hnone with hp | hd | ⟨d, i, hd, hmax, hi, hcell⟩
  · rw [encodeAecpPayload, hp, withRegs_none]
  · exact withRegs_refused fun _ => by rw [hd, withRegs_none]
  · refine withRegs_refused fun _ => ?_
    rw [hd, withRegs_some, if_neg (Nat.not_lt.2 hmax), Memory.readOctets_eq_none hi hcell, withRegs_none]

/-! ## ENCAECP -/

/-- `DLEN` as an error reports it (R35, R190). -/
theorem setWidth_ofNat_length {n : Nat} (h : n ≤ Config.bufCap) :
    (BitVec.ofNat 10 n).setWidth 16 = BitVec.ofNat 16 n := by
  apply BitVec.eq_of_toNat_eq
  rw [BitVec.toNat_setWidth, toNat_ofNat_length h, BitVec.toNat_ofNat]

/-- Settles O23: the message type selects the group that holds the payload; then the budget alone decides. -/
theorem encaecpEncodesMessage : Obligations.EncaecpEncodesMessage := by
  intro s h c p bs hh hc hdata hdlen hn hsel
  have hcap : bs.length ≤ Config.bufCap := hn.trans (by decide)
  obtain ⟨hv, hholds⟩ : variantOf h.messageType = .variant p.variant ∧ s.msg.HoldsPayload p := by
    cases p with
    | v0 q =>
      obtain ⟨ht, hq⟩ := hsel
      exact ⟨variantOf_v0 _ ht, hq⟩
    | v1 q =>
      obtain ⟨ht, ht', hq⟩ := hsel
      exact ⟨variantOf_v1 _ ht ht', hq⟩
    | v2 q =>
      obtain ⟨ht, ht', hq⟩ := hsel
      exact ⟨variantOf_v2 _ ht ht', hq⟩
    | v3 q =>
      obtain ⟨ht, ht', hq⟩ := hsel
      exact ⟨variantOf_v3 _ ht ht', hq⟩
  have hp := (s.msg.payload_eq_some_iff p).2 hholds
  have hexec : exec .encaecp s = _ := encodeAecp_variant hh hc hv
  split
  · have hread : s.msg.data.readOctets 0 bs.length = some bs :=
      (readOctets_eq_some_iff _ _ _ _).2 ⟨rfl, hdata ▸ octetsAt_ofOctets bs⟩
    exact ⟨_, aecpFrame_write h c p bs, holdsExactly_aecpFrame h c p bs,
      hexec.trans (encodeAecpPayload_ok s h c p bs _ hp hdlen (toNat_ofNat_length hcap) hread ‹_›)⟩
  · rw [← setWidth_ofNat_length hcap]
    refine hexec.trans (encodeAecpPayload_big s h c p _ _ hp hdlen ?_)
    rw [toNat_ofNat_length hcap]
    omega

/-- Settles O24: the registers are read in the order of R182: groups `H` and `AECP`, then what the message type selects,
then `DLEN` and `DATA`, of which 500 octets are within the budget of every variant. -/
theorem encaecpRefusalsAndTypeErrors : Obligations.EncaecpRefusalsAndTypeErrors := by
  refine ⟨fun _ => decode_request_of_row ⟨0x17#8, fun _ => .encaecp⟩ rfl, ?_⟩
  intro s
  refine ⟨encodeAecp_refused, ?_⟩
  intro h c hh hc
  refine ⟨?unsupported, ?unknown, ?refused⟩
  case unsupported =>
    intro ht
    exact encodeAecp_reserved hh hc (.inr ⟨variantOf_unsupported _ ht, rfl⟩)
  case unknown =>
    intro ht ht'
    exact encodeAecp_reserved hh hc (.inl ⟨variantOf_unknown _ ht ht', rfl⟩)
  case refused =>
    rintro (⟨ht, hd⟩ | ⟨ht, hq⟩ | ⟨ht, ht', hq⟩ | ⟨ht, ht', hq⟩ | ⟨ht, ht', hq⟩ | ⟨ht, d, i, hd, hmax, hi, hcell⟩)
    · obtain ⟨v, hv⟩ := exists_variantOf ht
      exact encodeAecp_variant_refused hh hc hv (.inr (.inl hd))
    · refine encodeAecp_variant_refused hh hc (variantOf_v0 _ ht) (.inl ?_)
      rw [Msg.payload, V0Regs.value_eq_none hq, Option.map_none]
    · refine encodeAecp_variant_refused hh hc (variantOf_v1 _ ht ht') (.inl ?_)
      rw [Msg.payload, V1Regs.value_eq_none hq, Option.map_none]
    · refine encodeAecp_variant_refused hh hc (variantOf_v2 _ ht ht') (.inl ?_)
      rw [Msg.payload, V2Regs.value_eq_none hq, Option.map_none]
    · refine encodeAecp_variant_refused hh hc (variantOf_v3 _ ht ht') (.inl ?_)
      rw [Msg.payload, V3Regs.value_eq_none hq, Option.map_none]
    · obtain ⟨v, hv⟩ := exists_variantOf ht
      have hbudget : 500 ≤ v.dataMax := by cases v <;> decide
      exact encodeAecp_variant_refused hh hc hv (.inr (.inr ⟨d, i, hd, hmax.trans hbudget, hi, hcell⟩))

end Sys2Proof.Machine
end

section
/-!
PROOFS. DECMSG after a successful encode (R206): the frame in `BUF` keeps the message's subtype, so DECMSG is the
encoder's own decode or one that leaves the groups of the encoder's kind empty.
-/

namespace Sys2Proof.Machine

/-! ## A decode leaves the groups of other kinds empty (R33) -/

theorem decadp_completes {s : State} (hs : BufferOk s) :
    ∃ u, exec .decadp s = .next u ∧ u.msg.acmp = .empty ∧ u.msg.aecp = .empty := by
  obtain ⟨-, hdecode⟩ := decadpDecodesDiscovery
  have hexec := hdecode s hs
  split at hexec
  · exact ⟨_, hexec, rfl, rfl⟩
  · obtain ⟨h, b, -, hexec⟩ := hexec
    exact ⟨_, hexec, rfl, rfl⟩

theorem decacmp_completes {s : State} (hs : BufferOk s) :
    ∃ u, exec .decacmp s = .next u ∧ u.msg.adp = .empty ∧ u.msg.aecp = .empty := by
  obtain ⟨-, hdecode⟩ := decacmpDecodesConnection
  have hexec := hdecode s hs
  split at hexec
  · exact ⟨_, hexec, rfl, rfl⟩
  · obtain ⟨h, -, hexec⟩ := hexec
    split at hexec
    · exact ⟨_, hexec, rfl, rfl⟩
    · split at hexec
      · exact ⟨_, hexec, rfl, rfl⟩
      · obtain ⟨b, -, hexec⟩ := hexec
        exact ⟨_, hexec, rfl, rfl⟩

theorem decaecp_completes {s : State} (hs : BufferOk s) :
    ∃ u, exec .decaecp s = .next u ∧ u.msg.adp = .empty ∧ u.msg.acmp = .empty := by
  rcases Nat.lt_or_ge s.len.toNat 22 with hshort | hl
  · exact ⟨_, decodeAecp_short s _ hshort, rfl, rfl⟩
  · obtain ⟨h, hh⟩ := exists_headerAt s.buf _ hs.1 (by omega)
    have hexec := exec_decaecp_of_headerAt hh
    cases hv : variantOf h.messageType with
    | unsupported => exact ⟨_, hexec.trans (decodeAecp_reserved hs hl (.inr ⟨hv, rfl⟩)), rfl, rfl⟩
    | unknown => exact ⟨_, hexec.trans (decodeAecp_reserved hs hl (.inl ⟨hv, rfl⟩)), rfl, rfl⟩
    | variant v =>
      rcases Nat.lt_or_ge s.len.toNat v.dataStart with hfixed | hfixed
      · exact ⟨_, hexec.trans (decodeAecp_truncated hs hv hfixed), rfl, rfl⟩
      · obtain ⟨c, p, bs, -, -, -, hexec⟩ := exec_decaecp_frame hs hfixed hh hv
        obtain ⟨-, -, hadp, hacmp, -, -⟩ := aecpMsg_common h c p bs
        exact ⟨_, hexec, hadp, hacmp⟩

/-- DECMSG completes, and fills the groups of no kind but the one the subtype names (R201). -/
theorem decmsg_completes {s : State} {x : Header} (hs : BufferOk s) (hl : 4 ≤ s.len.toNat) (hx : HeaderAt s.buf x) :
    ∃ u, exec .decmsg s = .next u ∧ (x.subtype ≠ 0x7a#7 → u.msg.adp = .empty) ∧
      (x.subtype ≠ 0x7c#7 → u.msg.acmp = .empty) ∧ (x.subtype ≠ 0x7b#7 → u.msg.aecp = .empty) := by
  have hexec : exec .decmsg s = _ := decodeMessage_long s x hl hx
  split at hexec
  · obtain ⟨u, hu, hacmp, haecp⟩ := decadp_completes hs
    exact ⟨u, hexec.trans hu, absurd ‹_›, fun _ => hacmp, fun _ => haecp⟩
  split at hexec
  · obtain ⟨u, hu, hadp, hacmp⟩ := decaecp_completes hs
    exact ⟨u, hexec.trans hu, fun _ => hadp, fun _ => hacmp, absurd ‹_›⟩
  split at hexec
  · obtain ⟨u, hu, hadp, haecp⟩ := decacmp_completes hs
    exact ⟨u, hexec.trans hu, fun _ => hadp, absurd ‹_›, fun _ => haecp⟩
  exact ⟨_, hexec, fun _ => rfl, fun _ => rfl, fun _ => rfl⟩

/-! ## What a successful encode leaves -/

theorem err_raise_ne_zero (s : State) (k : OpClass) (e : CodecError) : (s.raise k e).err ≠ 0 := by
  obtain ⟨herr, -⟩ := s.raise_status k e
  obtain ⟨hcode, -⟩ := e.code_range
  rwa [herr]

/-- A fresh buffer of `n` octets keeps the invariant of `BUF` and `LEN` (R22, R23, R142). -/
theorem bufferOk_finishEncode {m : Memory} {n : Nat} (s : State) (hm : m.holdsExactly n) (hn : n ≤ Config.bufCap) :
    BufferOk (s.finishEncode m n) :=
  bufferOk_of_length rfl hn hm

/-- ENCADP read a whole message and built its frame (R152). -/
theorem encodeAdp_next_frame {s t : State} (h : encodeAdp s = .next t) :
    ∃ x b, s.msg.h = .of x ∧ s.msg.adp = .of b ∧ AdpFrame t.buf x b ∧ t.len.toNat = 68 ∧ BufferOk t := by
  obtain ⟨x, b, hx, hb, rfl⟩ := encodeAdp_next h
  exact ⟨x, b, (HRegs.value_eq_some _ _).1 hx, (AdpRegs.value_eq_some _ _).1 hb,
    by rw [State.finishEncode_buf]; exact adpFrame_write x b, toNat_ofNat_length (n := adpLen) (by decide),
    bufferOk_finishEncode s (holdsExactly_writeDiscovery _ b (holdsExactly_writeHeader x)) (by decide)⟩

/-- An ENCACMP that succeeds read a whole message in the domains and built its frame (R162). -/
theorem encodeAcmp_next_frame {s t : State} (h : encodeAcmp s = .next t) (herr : t.err = 0) :
    ∃ x b, s.msg.h = .of x ∧ s.msg.acmp = .of b ∧ acmpCheck x = none ∧ AcmpFrame t.buf x b ∧ t.len.toNat = 56 ∧
      BufferOk t := by
  obtain ⟨x, b, hx, hb, ⟨e, -, rfl⟩ | ⟨hcheck, rfl⟩⟩ := encodeAcmp_next h
  · exact absurd herr (err_raise_ne_zero _ _ _)
  · exact ⟨x, b, (HRegs.value_eq_some _ _).1 hx, (AcmpRegs.value_eq_some _ _).1 hb, hcheck,
      by rw [State.finishEncode_buf]; exact acmpFrame_write x b, toNat_ofNat_length (n := acmpLen) (by decide),
      bufferOk_finishEncode s (holdsExactly_writeConnection _ b (holdsExactly_writeHeader x)) (by decide)⟩

/-- Where `DATA` keeps its invariant (R28), the octets read up to `DLEN` are all of it. -/
theorem DataOk.eq_of_readOctets {m : Msg} {d : BitVec 10} {bs : List Byte} (hm : DataOk m) (hd : m.dlen = some d)
    (hbs : m.data.readOctets 0 d.toNat = some bs) :
    m.data = Memory.ofOctets bs ∧ d = BitVec.ofNat 10 bs.length := by
  obtain ⟨hlen, hget⟩ := (Memory.readOctets_eq_some _ _ _ _).1 hbs
  rw [DataOk, hd] at hm
  obtain ⟨hdata, -⟩ := hm
  refine ⟨Memory.eq_of_holdsExactly hdata (hlen ▸ Memory.addresses_ofOctets bs) fun i hi => ?_, ?_⟩
  · rw [Memory.get_ofOctets, ← hget i hi, Nat.zero_add]
  · rw [hlen, BitVec.ofNat_toNat, BitVec.setWidth_eq]

/-- The registers of `s` hold an AECP message, and `BUF` of `t` is its frame. -/
structure EncodedAecp (s t : State) (x : Header) (c : AecpCommon) (p : Payload) (bs : List Byte) : Prop where
  header : s.msg.h = .of x
  common : s.msg.aecp = .of c
  payload : s.msg.HoldsPayload p
  data : s.msg.data = Memory.ofOctets bs
  dlen : s.msg.dlen = some (BitVec.ofNat 10 bs.length)
  selected : variantOf x.messageType = .variant p.variant
  frame : AecpFrame t.buf x c p bs
  length : t.len.toNat = p.variant.dataStart + bs.length
  buffer : BufferOk t

/-- An encode that succeeds read a whole message and built its frame (R182). -/
theorem exists_encodedAecp {s t : State} (hm : DataOk s.msg) (h : encodeAecp s = .next t) (herr : t.err = 0) :
    ∃ x c p bs, EncodedAecp s t x c p bs := by
  obtain ⟨x, c, hx, hc, ⟨-, rfl⟩ | ⟨-, rfl⟩ | ⟨v, hv, h⟩⟩ := encodeAecp_next h
  · exact absurd herr (err_raise_ne_zero _ _ _)
  · exact absurd herr (err_raise_ne_zero _ _ _)
  · obtain ⟨p, d, hp, hd, ⟨-, rfl⟩ | ⟨hmax, bs, hbs, rfl⟩⟩ := encodeAecpPayload_next h
    · exact absurd herr (err_raise_ne_zero _ _ _)
    · obtain rfl := variant_of_payload hp
      obtain ⟨hdata, hdlen⟩ := hm.eq_of_readOctets hd hbs
      obtain ⟨hlen, -⟩ := (Memory.readOctets_eq_some _ _ _ _).1 hbs
      have hcap : p.variant.dataStart + bs.length ≤ Config.bufCap := by
        have := p.variant.dataMax_add_dataStart
        simp only [Config.bufCap]
        omega
      rw [Variant.dataStart_eq, ← hlen]
      exact ⟨x, c, p, bs, {
        header := (HRegs.value_eq_some _ _).1 hx
        common := (AecpRegs.value_eq_some _ _).1 hc
        payload := (s.msg.payload_eq_some_iff p).1 hp
        data := hdata
        dlen := hdlen ▸ hd
        selected := hv
        frame := aecpFrame_write x c p bs
        length := toNat_ofNat_length hcap
        buffer := bufferOk_finishEncode s (holdsExactly_aecpFrame x c p bs) hcap }⟩

/-- Two register files that hold one payload agree in the group that its message type selects (R176). -/
theorem selectedGroup_eq {m n : Msg} {p : Payload} {t : BitVec 4} (hv : variantOf t = .variant p.variant)
    (hm : m.HoldsPayload p) (hn : n.HoldsPayload p) :
    (t.toNat ≤ 1 → n.v0 = m.v0) ∧ (2 ≤ t.toNat → t.toNat ≤ 3 → n.v1 = m.v1) ∧
      (4 ≤ t.toNat → t.toNat ≤ 5 → n.v2 = m.v2) ∧ (6 ≤ t.toNat → n.v3 = m.v3) := by
  have ht := (variantOf_eq_variant_iff t _).1 hv
  cases p with
  | v0 q =>
    simp only [Payload.variant, Variant.firstType] at ht
    exact ⟨fun _ => hn.trans hm.symm, by omega, by omega, by omega⟩
  | v1 q =>
    simp only [Payload.variant, Variant.firstType] at ht
    exact ⟨by omega, fun _ _ => hn.trans hm.symm, by omega, by omega⟩
  | v2 q =>
    simp only [Payload.variant, Variant.firstType] at ht
    exact ⟨by omega, by omega, fun _ _ => hn.trans hm.symm, by omega⟩
  | v3 q =>
    simp only [Payload.variant, Variant.firstType] at ht
    exact ⟨by omega, by omega, by omega, fun _ => hn.trans hm.symm⟩

/-! ## DECMSG after an encode -/

/-- The subtype register of a group that holds a header. -/
theorem HRegs.subtype_eq_some_iff {g : HRegs} {x : Header} (hg : g = .of x) (st : BitVec 7) :
    g.subtype = some st ↔ x.subtype = st := by
  rw [hg]
  exact Option.some_inj

/-- Settles O30: with the encoder's own subtype DECMSG answers the message that stands in `BUF`, with another it leaves
a group of the message empty. -/
theorem decmsgAfterEncode : Obligations.DecmsgAfterEncode := by
  refine ⟨?adp, ?acmp, ?aecp⟩
  case adp =>
    intro s t h
    obtain ⟨x, b, hx, hb, hframe, hlen, hbuf⟩ := encodeAdp_next_frame h
    obtain ⟨u, hu, hforeign, -, -⟩ := decmsg_completes hbuf (by omega) hframe.1
    refine ⟨u, hu, ?_⟩
    rw [HRegs.subtype_eq_some_iff hx, hx, hb]
    constructor
    · rintro ⟨-, hbody⟩
      by_contra hst
      exact nomatch hbody.symm.trans (hforeign hst)
    · intro hst
      obtain ⟨hdecode, -, -⟩ := decmsgDecodesEachKind t hbuf
      cases hu.symm.trans (hdecode x b hframe hst hlen.ge)
      exact ⟨rfl, rfl⟩
  case acmp =>
    intro s t h herr
    obtain ⟨x, b, hx, hb, hcheck, hframe, hlen, hbuf⟩ := encodeAcmp_next_frame h herr
    obtain ⟨u, hu, -, hforeign, -⟩ := decmsg_completes hbuf (by omega) hframe.1
    refine ⟨u, hu, ?_⟩
    rw [HRegs.subtype_eq_some_iff hx, hx, hb]
    constructor
    · rintro ⟨-, hbody⟩
      by_contra hst
      exact nomatch hbody.symm.trans (hforeign hst)
    · intro hst
      have hdecode := (decodeMessage_acmp hframe.1 (by omega) hst).trans
        (decodeAcmp_ok t x b hlen.ge hcheck hframe.2)
      cases hu.symm.trans hdecode
      exact ⟨rfl, rfl⟩
  case aecp =>
    intro s t hm h herr
    obtain ⟨x, c, p, bs, henc⟩ := exists_encodedAecp hm h herr
    have hstart := p.variant.dataStart_ge
    have hlen := henc.length
    obtain ⟨u, hu, -, -, hforeign⟩ := decmsg_completes henc.buffer (by omega) henc.frame.1
    refine ⟨u, hu, ?_⟩
    rw [HRegs.subtype_eq_some_iff henc.header, henc.header, henc.common, henc.data, henc.dlen]
    constructor
    · rintro ⟨-, hcommon, -⟩
      by_contra hst
      exact nomatch hcommon.symm.trans (hforeign hst)
    · intro hst
      obtain ⟨-, -, hdecode⟩ := decmsgDecodesEachKind t henc.buffer
      cases hu.symm.trans (hdecode x c p bs henc.frame hst henc.selected henc.length)
      obtain ⟨hheader, hcommon, -, -, hdata, hdlen⟩ := aecpMsg_common x c p bs
      refine ⟨hheader, hcommon, hdata, hdlen, fun ty hty => ?_⟩
      obtain rfl := Option.some.inj hty
      exact selectedGroup_eq henc.selected henc.payload
        ((Msg.payload_eq_some_iff _ p).1 (payload_aecpMsg x c p bs))

end Sys2Proof.Machine
end

section
/-!
PROOFS. The constants the codec tests its fields against: which ACMP message types and statuses are defined, and what
each AECP message type selects (R212 to R214, R218).
-/

namespace Sys2Proof.Machine

theorem acmpMsgtypeDefined_iff (t : BitVec 4) : acmpMsgtypeDefined t = true ↔ t.toNat ≤ 13 := by
  simp [acmpMsgtypeDefined]

theorem acmpStatusDefined_iff (st : BitVec 5) :
    acmpStatusDefined st = true ↔ st.toNat ≤ 15 ∨ st.toNat = 31 := by
  simp [acmpStatusDefined]

/-- Settles O44: each range of AECP message types is one selection. -/
theorem enumerationDomains : Obligations.EnumerationDomains := by
  refine ⟨acmpMsgtypeDefined_iff, acmpStatusDefined_iff, fun t => ?_⟩
  split_ifs with h1 h3 h5 h7 h13
  · exact variantOf_v0 t h1
  · exact variantOf_v1 t (by omega) h3
  · exact variantOf_v2 t (by omega) h5
  · exact variantOf_v3 t (by omega) h7
  · exact variantOf_unknown t (by omega) h13
  · exact variantOf_unsupported t (by omega)

end Sys2Proof.Machine
end

section
/-!
PROOFS. What a step runs: the instruction of the request's `OP`, or the row that the frame's first two octets
match (R84, R85, R111). A frame row is the decode rule of its word's subtype, so that the table-driven dispatch on the
frame in `BUF` is DECMSG (R201).
-/

namespace Sys2Proof.Machine

/-! ## The decode rule of a subtype -/

/-- The decode that a subtype selects, its header given; any other subtype raises UnknownSubtype (R100, R104, R201). -/
def decodeBySubtype (st : BitVec 7) (header : Option Header) (s : State) : Result :=
  if st = 0x7a#7 then decodeAdp header s
  else if st = 0x7b#7 then decodeAecp header s
  else if st = 0x7c#7 then decodeAcmp header s
  else .next (s.raise .decode (.unknownSubtype st))

/-- With a header in the buffer, DECMSG is the decode rule of its subtype. -/
theorem decodeMessage_eq_decodeBySubtype {s : State} {x : Header} (hl : 4 ≤ s.len.toNat) (hx : HeaderAt s.buf x) :
    decodeMessage s = decodeBySubtype x.subtype (some x) s := by
  rw [decodeMessage_long s x hl hx, (readHeader_eq_some _ _).2 hx, decodeBySubtype]

@[simp] theorem frameSubtype_frameWord (st : BitVec 7) (p : FrameBits) (t : BitVec 4) :
    frameSubtype (frameWord st p t) = st := by
  obtain ⟨hst, -, -⟩ := parts_frameWord st p t
  exact hst

/-- A frame row is the decode rule of its word's subtype, on the header of that word (R111). -/
theorem exec_of_encode_eq_frame {i : Instr} {w : BitVec 16} (h : encode i = .frame w) (s : State) :
    exec i s = decodeBySubtype (frameSubtype w) (frameHeader w s.buf) s := by
  cases i with
  | rdbits a lo hi | wrbits a lo hi val | rdbe16 off | rdbe32 off | rdbe64 off | wrbe16 off val | wrbe32 off val
  | wrbe64 off val | cmpbe32 off val | dechdr | enchdr | decadp | encadp | decacmp | encacmp | decaecp | encaecp
  | decmsg => cases h
  | adp p t =>
    cases h
    rw [frameSubtype_frameWord]
    rfl
  | acmpConnectTxCommand p | acmpConnectTxResponse p | acmpDisconnectTxCommand p | acmpDisconnectTxResponse p
  | acmpGetTxStateCommand p | acmpGetTxStateResponse p | acmpConnectRxCommand p | acmpConnectRxResponse p
  | acmpDisconnectRxCommand p | acmpDisconnectRxResponse p | acmpGetRxStateCommand p | acmpGetRxStateResponse p
  | acmpGetTxConnectionCommand p | acmpGetTxConnectionResponse p | acmpReserved14 p | acmpReserved15 p
  | aecpAvdeccMessageCommand p | aecpAvdeccMessageResponse p | aecpAddressAccessCommand p
  | aecpAddressAccessResponse p | aecpAvcCommand p | aecpAvcResponse p | aecpVendorUniqueCommand p
  | aecpVendorUniqueResponse p | aecpReserved8 p | aecpReserved9 p | aecpReserved10 p | aecpReserved11 p
  | aecpReserved12 p | aecpReserved13 p | aecpExtendedCommand p | aecpExtendedResponse p =>
    cases h
    rw [frameSubtype_frameWord]
    rfl

/-- A word that decodes to no row has a subtype of no kind: every word of the three subtypes matches a row (R104). -/
theorem decodeBySubtype_of_decodeFrame_error {w : BitVec 16} {e : DecodeError} (h : decodeFrame w = .error e)
    (header : Option Header) (s : State) :
    decodeBySubtype (frameSubtype w) header s = .next (s.raise .decode (.unknownSubtype (frameSubtype w))) := by
  have hnone : frameTable.filter (rowMatches w) = [] := by
    rw [decodeFrame] at h
    split at h
    · cases h
    · exact List.filter_eq_nil_iff.2 (List.find?_eq_none.1 ‹_›)
  have hrows := tableRowsDisjointAndComplete.1 w
  rw [hnone, List.length_nil] at hrows
  split at hrows
  · exact absurd hrows Nat.zero_ne_one
  · rename_i hst
    obtain ⟨hadp, hst⟩ := not_or.1 hst
    obtain ⟨haecp, hacmp⟩ := not_or.1 hst
    rw [decodeBySubtype, if_neg hadp, if_neg haecp, if_neg hacmp]

/-! ## Steps that take a request or a demand for the frame -/

/-- The outcome of what was fetched, on the state it was fetched in. -/
def Fetched.outcome (s : State) : Fetched → Result
  | .run i => exec i s
  | .done o => o

/-- A step takes the first input and ends as what it fetches ends. -/
theorem step_of_inputs {s : State} {i : Input} {rest : List Input} (h : s.inputs = i :: rest) :
    step s = (fetch i { s with inputs := rest }).outcome { s with inputs := rest } := by
  rw [step, h]
  dsimp only
  cases fetch i { s with inputs := rest } <;> rfl

theorem fetchRequest_of_decode {r : Request} {i : Instr} (h : decode (.request r) = .ok i) :
    fetchRequest r = .run i := by
  have h : decodeRequest r = .ok i := h
  rw [fetchRequest, h]

theorem fetchFrame_short {s : State} (h : s.len.toNat < 4) :
    fetchFrame s = .done (.next (s.raise .decode (.truncatedPacket s.len))) := by
  rw [fetchFrame, if_pos (by simpa [hdrLen] using h), failDecode]

theorem fetchFrame_long {s : State} {w : BitVec 16} (hl : 4 ≤ s.len.toNat) (hw : fetchWord s.buf = some w) :
    fetchFrame s = selectRow w s := by
  rw [fetchFrame, if_neg (by simpa [hdrLen] using hl), hw]

theorem selectRow_of_decode {w : BitVec 16} {i : Instr} (h : decodeFrame w = .ok i) (s : State) :
    selectRow w s = .run i := by
  rw [selectRow, h]

/-- The row of a frame word, or the lack of one, ends as the decode rule of the word's subtype. -/
theorem outcome_selectRow (w : BitVec 16) (s : State) :
    (selectRow w s).outcome s = decodeBySubtype (frameSubtype w) (frameHeader w s.buf) s := by
  cases h : decodeFrame w with
  | ok i =>
    rw [selectRow_of_decode h, Fetched.outcome]
    exact exec_of_encode_eq_frame (encodeOfDecodedFrame w i h) s
  | error e =>
    rw [selectRow, h, decodeBySubtype_of_decodeFrame_error h]
    rfl

/-- Settles O36: the word of the header in `BUF` selects a row of the header's subtype, which reads that header; DECMSG
is the decode rule of the same subtype on the same header. -/
theorem frameTableDispatchIsDecmsg : Obligations.FrameTableDispatchIsDecmsg := by
  rintro s rest ⟨hbuf, -⟩ hin
  rw [step_of_inputs hin]
  generalize hs' : { s with inputs := rest } = s'
  have hbuf' : s'.buf.holdsExactly s'.len.toNat := hs' ▸ hbuf
  rw [fetch, show exec .decmsg s' = decodeMessage s' from rfl]
  rcases Nat.lt_or_ge s'.len.toNat 4 with hshort | hl
  · rw [fetchFrame_short hshort, decodeMessage_short s' hshort, Fetched.outcome]
  · obtain ⟨x, hx⟩ := exists_headerAt s'.buf _ hbuf' hl
    rw [fetchFrame_long hl (fetchWord_eq_some _ x hx), outcome_selectRow, frameSubtype_frameWord,
      frameHeader_eq_some _ x hx, decodeMessage_eq_decodeBySubtype hl hx]

/-- Settles O49: both kinds of input fetch the instruction they decode to. -/
theorem stepRunsDecodedInstruction : Obligations.StepRunsDecodedInstruction := by
  constructor
  · intro s r rest i hin hdecode
    rw [step_of_inputs hin, fetch, fetchRequest_of_decode hdecode, Fetched.outcome]
  · intro s b0 b1 rest i hin hl h0 h1 hdecode
    have hword : fetchWord s.buf = some (b0 ++ b1) := by rw [fetchWord, h0, h1]; rfl
    rw [step_of_inputs hin, fetch, fetchFrame_long (s := { s with inputs := rest }) hl hword,
      selectRow_of_decode hdecode, Fetched.outcome]

/-- The `OP` values of the table (R84). -/
theorem op_range_of_mem_opTable {row : OpRow} (h : row ∈ opTable) :
    (1 ≤ row.op.toNat ∧ row.op.toNat ≤ 9) ∨ (16 ≤ row.op.toNat ∧ row.op.toNat ≤ 24) := by
  simp only [opTable] at h
  fin_cases h <;> decide

/-- Settles O50: a row that is found has the request's `OP`, which is then in the table's range. -/
theorem unassignedOpRefused : Obligations.UnassignedOpRefused := by
  intro s r rest hin hprimitive hmessage
  have hfind : opTable.find? (fun row => row.op == r.op) = none := by
    refine List.find?_eq_none.2 fun row hrow heq => ?_
    have hrange := op_range_of_mem_opTable hrow
    rw [eq_of_beq heq] at hrange
    exact hrange.elim hprimitive hmessage
  rw [step_of_inputs hin, fetch, fetchRequest, decodeRequest, hfind]
  rfl

end Sys2Proof.Machine
end

section
/-!
PROOFS. The laws of the primitives taken one after another (R134, R53): bit ranges written and read, a write and then a
read of the same integer, a wide read and the reads of its halves; and CMPBE32 (R132).
-/

namespace Sys2Proof.Machine

/-! ## Bit ranges -/

/-- An octet is the octet of the result register that holds it. -/
theorem setWidth_octet_setWidth (a : Byte) : (a.setWidth 64).setWidth 8 = a := by
  rw [BitVec.setWidth_setWidth_of_le a (by decide), BitVec.setWidth_eq]

/-- A value in range reads as written (R134 (a)). -/
theorem extractBits_insertBits_same {lo hi : BitVec 3} {val : BitVec 64} (a : Byte) (hle : lo.toNat ≤ hi.toNat)
    (hfit : val.toNat < 2 ^ rangeWidth lo hi) :
    BitVec.ofNat 64 (extractBits (insertBits a lo hi val) lo hi) = val := by
  have hhi : hi.toNat < 8 := hi.isLt
  refine BitVec.eq_of_getLsbD_eq fun i _ => ?_
  rw [getLsbD_ofNat_extractBits]
  by_cases hi' : i ≤ hi.toNat - lo.toNat
  · rw [getLsbD_insertBits a hle hfit (by omega), if_pos (by omega), Nat.add_sub_cancel_left]
    simp only [hi', decide_true, Bool.true_and]
  · have hval : val.getLsbD i = false :=
      Nat.testBit_lt_two_pow (hfit.trans_le (Nat.pow_le_pow_right (by decide) (by rw [rangeWidth]; omega)))
    simp only [hi', hval, decide_false, Bool.false_and]

theorem toNat_ofNat_extractBits (a : Byte) (lo hi : BitVec 3) :
    (BitVec.ofNat 64 (extractBits a lo hi)).toNat = extractBits a lo hi := by
  have hle : extractBits a lo hi ≤ a.toNat := (Nat.mod_le _ _).trans (Nat.shiftRight_le _ _)
  have ha : a.toNat < 256 := a.isLt
  rw [BitVec.toNat_ofNat, Nat.mod_eq_of_lt (by omega)]

/-- What is read from a range fits it (R121). -/
theorem extractBits_fits (a : Byte) (lo hi : BitVec 3) :
    (BitVec.ofNat 64 (extractBits a lo hi)).toNat < 2 ^ rangeWidth lo hi := by
  rw [toNat_ofNat_extractBits]
  exact Nat.mod_lt _ (Nat.two_pow_pos _)

/-- Writing back what was read changes no bit (R134 (b)). -/
theorem insertBits_extractBits {lo hi : BitVec 3} (a : Byte) (hle : lo.toNat ≤ hi.toNat) :
    insertBits a lo hi (BitVec.ofNat 64 (extractBits a lo hi)) = a := by
  refine BitVec.eq_of_getLsbD_eq fun i hi8 => ?_
  rw [getLsbD_insertBits a hle (extractBits_fits a lo hi) hi8]
  split
  · rename_i hin
    rw [getLsbD_ofNat_extractBits, Nat.add_sub_cancel' hin.1, decide_eq_true (by omega), Bool.true_and]
  · rfl

/-- A range disjoint from the one written reads as before (R134 (c)). -/
theorem extractBits_insertBits_disjoint {lo hi lo' hi' : BitVec 3} {val : BitVec 64} (a : Byte)
    (hle : lo.toNat ≤ hi.toNat) (hdisj : hi.toNat < lo'.toNat ∨ hi'.toNat < lo.toNat)
    (hle' : lo'.toNat ≤ hi'.toNat) (hfit : val.toNat < 2 ^ rangeWidth lo hi) :
    BitVec.ofNat 64 (extractBits (insertBits a lo hi val) lo' hi') = BitVec.ofNat 64 (extractBits a lo' hi') := by
  have hhi : hi'.toNat < 8 := hi'.isLt
  refine BitVec.eq_of_getLsbD_eq fun i _ => ?_
  rw [getLsbD_ofNat_extractBits, getLsbD_ofNat_extractBits]
  by_cases hi' : i ≤ hi'.toNat - lo'.toNat
  · rw [getLsbD_insertBits a hle hfit (by omega), if_neg (by omega)]
  · simp only [hi', decide_false, Bool.false_and]

/-- WRBITS of a value that fits its range answers the octet with the range replaced (R122). -/
theorem execWrbits_fits {lo hi : BitVec 3} {val : BitVec 64} (a : Byte) (s : State) (hle : lo.toNat ≤ hi.toNat)
    (hfit : val.toNat < 2 ^ rangeWidth lo hi) :
    execWrbits a lo hi val s = .next (s.succeed (some ((insertBits a lo hi val).setWidth 64))) := by
  rw [execWrbits_range a val s hle, if_pos hfit]

/-- Settles O3: each law is the law of `extractBits` and `insertBits` on the octet in `RES`. -/
theorem bitRangeLaws : Obligations.BitRangeLaws := by
  refine ⟨?writeRead, ?readWrite, ?disjoint⟩
  case writeRead =>
    intro a lo hi val s hle hfit
    refine ⟨_, _, _, execWrbits_fits a s hle hfit, rfl, execRdbits_range _ _ hle, ?_⟩
    rw [State.succeed_res, setWidth_octet_setWidth, extractBits_insertBits_same a hle hfit]
  case readWrite =>
    intro a lo hi s hle
    refine ⟨_, _, _, execRdbits_range a s hle, rfl, execWrbits_fits a _ hle (extractBits_fits a lo hi), ?_⟩
    rw [State.succeed_res, insertBits_extractBits a hle]
  case disjoint =>
    intro a lo hi lo' hi' val s hle hle' hdisj hfit
    refine ⟨_, _, _, _, execWrbits_fits a s hle hfit, rfl, execRdbits_range _ _ hle', execRdbits_range _ _ hle', ?_⟩
    rw [State.succeed_res, State.succeed_res, setWidth_octet_setWidth,
      extractBits_insertBits_disjoint a hle hdisj hle' hfit]

/-! ## Integers in the buffer -/

/-- A read of an integer that stands within `LEN` answers it, whatever the rest of the state (R126 to R128). -/
theorem loadBe_of_fieldAt {n v : Nat} {off : BitVec 10} {s : State} (k : Nat → BitVec 64)
    (hl : off.toNat + n ≤ s.len.toNat) (hfield : FieldAt s.buf off.toNat n v) (hv : v < 2 ^ (8 * n)) :
    loadBe n off s k = .next (s.succeed (some (k v))) := by
  have hv : v < 256 ^ n := by rwa [show 256 = 2 ^ 8 from rfl, ← Nat.pow_mul]
  rw [loadBe, if_pos (inBounds_iff.2 hl), (Memory.memRead_eq_some _ _ _ _).2 ⟨hfield, hv⟩, withCells_some]

/-- A read after a successful write of the same width and offset answers the value (R134 (d)). -/
theorem loadBe_after_storeBe {n : Nat} {off : BitVec 10} {val : BitVec 64} {s t : State}
    (h : storeBe n off val s = .next t) (herr : t.err = 0) :
    loadBe n off t (BitVec.ofNat 64) = .next (t.succeed (some val)) := by
  rcases storeBe_next h with ⟨hl, hfit, rfl⟩ | ⟨-, -, rfl⟩ | ⟨-, rfl⟩
  · have hread := loadBe_of_fieldAt (off := off)
      (s := { s.succeed none with buf := s.buf.memWrite off.toNat n val.toNat }) (BitVec.ofNat 64) hl
      (Memory.fieldAt_memWrite _ _ _ _) hfit
    rwa [BitVec.ofNat_toNat, BitVec.setWidth_eq] at hread
  · exact absurd herr (err_raise_ne_zero _ _ _)
  · exact absurd herr (err_raise_ne_zero _ _ _)

/-- Settles O6: one law for 2, 4 and 8 octets. -/
theorem rdbeAfterWrbe : Obligations.RdbeAfterWrbe := fun _ _ _ _ =>
  ⟨fun h herr => ⟨_, loadBe_after_storeBe h herr, rfl⟩, fun h herr => ⟨_, loadBe_after_storeBe h herr, rfl⟩,
    fun h herr => ⟨_, loadBe_after_storeBe h herr, rfl⟩⟩

/-- Two integers side by side are one of twice the octets, the one at the lower offset the more significant (R50,
R53). -/
theorem FieldAt.append {m : Memory} {off n a b : Nat} (ha : FieldAt m off n a) (hb : FieldAt m (off + n) n b)
    (hlt : b < 256 ^ n) : FieldAt m off (2 * n) (a * 256 ^ n + b) := by
  have hpos : ∀ j, 0 < 256 ^ j := fun j => Nat.pow_pos (by decide)
  intro k hk
  rcases Nat.lt_or_ge k n with hkn | hkn
  · have hexp : 256 ^ (2 * n - 1 - k) = 256 ^ n * 256 ^ (n - 1 - k) := by
      rw [← Nat.pow_add]
      congr 1
      omega
    rw [ha k hkn, hexp, ← Nat.div_div_eq_div_mul, Nat.mul_comm a, Nat.mul_add_div (hpos n), Nat.div_eq_of_lt hlt,
      Nat.add_zero]
  · have hcell := hb (k - n) (by omega)
    rw [show off + n + (k - n) = off + k by omega, show n - 1 - (k - n) = 2 * n - 1 - k by omega] at hcell
    obtain ⟨d, hd⟩ : ∃ d, n = (2 * n - 1 - k) + 1 + d := ⟨k - n, by omega⟩
    generalize 2 * n - 1 - k = j at hcell hd ⊢
    have hexp : a * 256 ^ n = 256 ^ j * (256 * (a * 256 ^ d)) := by
      rw [hd]
      ring
    rw [hcell, hexp, Nat.mul_add_div (hpos j)]
    congr 1
    apply BitVec.eq_of_toNat_eq
    rw [BitVec.toNat_ofNat, BitVec.toNat_ofNat, Nat.mul_add_mod]

/-- Two integers of `w` bits side by side fill `2 w` bits. -/
theorem mul_two_pow_add_lt {w a b : Nat} (ha : a < 2 ^ w) (hb : b < 2 ^ w) : a * 2 ^ w + b < 2 ^ (2 * w) :=
  calc a * 2 ^ w + b < (a + 1) * 2 ^ w := by rw [Nat.add_mul, Nat.one_mul]; exact Nat.add_lt_add_left hb _
    _ ≤ 2 ^ w * 2 ^ w := Nat.mul_le_mul_right _ ha
    _ = 2 ^ (2 * w) := by rw [← Nat.pow_add, Nat.two_mul]

/-- A 64-bit register of two halves, the first shifted up by the width of the second (R53). -/
theorem shiftLeft_or_ofNat {w a b : Nat} (hb : b < 2 ^ w) (h64 : a * 2 ^ w + b < 2 ^ 64) :
    BitVec.ofNat 64 a <<< w ||| BitVec.ofNat 64 b = BitVec.ofNat 64 (a * 2 ^ w + b) := by
  have ha : a < 2 ^ 64 := (Nat.le_mul_of_pos_right a (Nat.two_pow_pos w)).trans_lt (by omega)
  apply BitVec.eq_of_toNat_eq
  rw [BitVec.toNat_or, BitVec.toNat_shiftLeft, BitVec.toNat_ofNat, BitVec.toNat_ofNat, BitVec.toNat_ofNat,
    Nat.mod_eq_of_lt ha, Nat.mod_eq_of_lt (a := b) (by omega), Nat.mod_eq_of_lt h64, Nat.mod_eq_of_lt,
    ← Nat.shiftLeft_add_eq_or_of_lt hb, Nat.shiftLeft_eq]
  rw [Nat.shiftLeft_eq]
  omega

/-- A read of `2 n` octets is the reads of its halves (R53). -/
theorem loadBe_halves {n : Nat} (hn : n ≤ 4) {s : State} {off off' : BitVec 10} (hs : BufferOk s)
    (hoff : off'.toNat = off.toNat + n) (hl : off.toNat + 2 * n ≤ s.len.toNat) :
    ∃ a b : BitVec 64, loadBe n off s (BitVec.ofNat 64) = .next (s.succeed (some a)) ∧
      loadBe n off' s (BitVec.ofNat 64) = .next (s.succeed (some b)) ∧
      loadBe (2 * n) off s (BitVec.ofNat 64) = .next (s.succeed (some (a <<< (8 * n) ||| b))) := by
  obtain ⟨a, ha, halt, hloada⟩ := loadBe_inBounds (n := n) (off := off) (BitVec.ofNat 64) hs (by omega)
  obtain ⟨b, hb, hblt, hloadb⟩ := loadBe_inBounds (n := n) (off := off') (BitVec.ofNat 64) hs (by omega)
  have hpow : 256 ^ n = 2 ^ (8 * n) := (Nat.pow_mul 2 8 n).symm
  have hwide := ha.append (hoff ▸ hb) (hpow ▸ hblt)
  have hlt := mul_two_pow_add_lt halt hblt
  have h64 := hlt.trans_le (Nat.pow_le_pow_right (by decide) (by omega : 2 * (8 * n) ≤ 64))
  refine ⟨_, _, hloada, hloadb, ?_⟩
  rw [hpow] at hwide
  rw [shiftLeft_or_ofNat hblt h64, loadBe_of_fieldAt _ hl hwide (by rwa [Nat.mul_left_comm])]

/-- Settles O7: the halves of RDBE32 are two octets each, those of RDBE64 four. -/
theorem mixedWidthReadsAgree : Obligations.MixedWidthReadsAgree := fun _ _ _ hs =>
  ⟨loadBe_halves (n := 2) (by decide) hs, loadBe_halves (n := 4) (by decide) hs⟩

/-- Settles O8: the integer compared is the one that stands at `OFF`, and it is compared as a whole. -/
theorem cmpbe32Compares : Obligations.Cmpbe32Compares := by
  refine ⟨fun _ => decode_request_of_row ⟨0x09#8, fun r => .cmpbe32 r.off r.val⟩ rfl, ?_⟩
  intro s off val hs
  split
  · obtain ⟨v, hfield, hlt, hload⟩ :=
      loadBe_inBounds (n := 4) (fun v => comparisonResult (decide (v = val.toNat))) hs ‹_›
    have hexec : exec (.cmpbe32 off val) s = _ := hload
    simp only [comparisonResult, decide_eq_true_eq] at hexec
    exact ⟨v, hlt, hfield, hexec⟩
  · exact loadBe_outOfBounds _ ‹_›

end Sys2Proof.Machine
end

section
/-!
PROOFS. The rules every instruction keeps: it succeeds or raises an error of its row of the raise matrix (R34, R232,
R240), it writes what its class declares and nothing else (R38), and run again it leaves the same state (R59).
-/

namespace Sys2Proof.Machine

/-! ## Success or a listed error -/

/-- An instruction that answers a next state succeeds, or raises an error of its row of the matrix as its class does
(R232, R240). -/
theorem exec_succeeds_or_raises {i : Instr} {s t : State} (h : exec i s = .next t) :
    (t.err = 0 ∧ t.errinfo = none) ∨ ∃ e : CodecError, e.code ∈ raises i ∧ t = s.raise (opClass i) e := by
  have hshape := exec_outcome h
  generalize opClass i = k at hshape
  cases k with
  | primitive =>
    obtain ⟨r, m, rfl⟩ | hraise := hshape
    · exact .inl ⟨rfl, rfl⟩
    · exact .inr hraise
  | decode =>
    obtain ⟨m, rfl⟩ | hraise := hshape
    · exact .inl ⟨rfl, rfl⟩
    · exact .inr hraise
  | encode =>
    obtain ⟨m, n, rfl⟩ | hraise := hshape
    · exact .inl ⟨rfl, rfl⟩
    · exact .inr hraise

/-- An instruction that fails raised an error of its row. -/
theorem exec_failed {i : Instr} {s t : State} (h : exec i s = .next t) (herr : t.err ≠ 0) :
    ∃ e : CodecError, e.code ∈ raises i ∧ t = s.raise (opClass i) e :=
  (exec_succeeds_or_raises h).resolve_left fun hok => herr hok.1

/-- Settles O40: the code raised is the error's own. -/
theorem onlyListedErrorsRaised : Obligations.OnlyListedErrorsRaised := by
  intro i s t h herr
  obtain ⟨e, hmem, rfl⟩ := exec_failed h herr
  obtain ⟨hcode, -⟩ := s.raise_status (opClass i) e
  rwa [hcode]

/-- Settles O38: raising leaves behind what the class says. -/
theorem failureLeavesNoPartialOutput : Obligations.FailureLeavesNoPartialOutput := by
  intro i s t h herr
  obtain ⟨e, -, rfl⟩ := exec_failed h herr
  obtain ⟨-, -, hres, -⟩ := s.raise_status (opClass i) e
  refine ⟨hres, ?_⟩
  generalize opClass i = k
  cases k <;> exact ⟨rfl, rfl, rfl⟩

/-! ## What each class leaves alone -/

/-- Settles O39: for each class, of success and of error. -/
theorem stateChangedOnlyAsDeclared : Obligations.StateChangedOnlyAsDeclared := by
  intro i s t h
  have hshape := exec_outcome h
  generalize opClass i = k at hshape
  cases k with
  | primitive => obtain ⟨r, m, rfl⟩ | ⟨e, -, rfl⟩ := hshape <;> exact ⟨rfl, fun _ => rfl, nofun, fun _ => rfl⟩
  | decode => obtain ⟨m, rfl⟩ | ⟨e, -, rfl⟩ := hshape <;> exact ⟨rfl, (absurd rfl ·), fun _ => ⟨rfl, rfl⟩, nofun⟩
  | encode => obtain ⟨m, n, rfl⟩ | ⟨e, -, rfl⟩ := hshape <;> exact ⟨rfl, fun _ => rfl, nofun, nofun⟩

/-- Settles O37: an error writes all three status registers (R240 (a)); and the status before is no declared input of
any class (R38). -/
theorem everyInstructionWritesStatus : Obligations.EveryInstructionWritesStatus := by
  constructor
  · intro i s t h
    rcases exec_succeeds_or_raises h with hok | ⟨e, -, rfl⟩
    · exact .inl hok
    · obtain ⟨hcode, hinfo, hres, -⟩ := s.raise_status (opClass i) e
      obtain ⟨h0, h7⟩ := e.code_range
      rw [hcode, hinfo]
      exact .inr ⟨h0, h7, Option.some_ne_none _, hres⟩
  · intro i s t res err errinfo h
    obtain ⟨hinputs, -⟩ := stateChangedOnlyAsDeclared i s t h
    have hagain := exec_next_of_agree (s' := { s with res, err, errinfo }) (agreeFor_of_all rfl rfl rfl) h
    rw [hagain, ← hinputs]

/-! ## Running an instruction again -/

/-- An instruction that left its declared inputs as they were ends in the same state again. -/
theorem exec_again_of_agree {i : Instr} {s t : State} (h : exec i s = .next t) (hagree : AgreeFor (opClass i) s t) :
    exec i t = .next t :=
  exec_next_of_agree hagree h

/-- Only a store changes a cell of `BUF` among the primitives (R120, R126 to R132). -/
theorem primitive_keeps_buf_or_stores (i : Instr) : opClass i = .primitive →
    (∀ s t, exec i s = .next t → t.buf = s.buf) ∨ ∃ n off val, exec i = storeBe n off val := by
  refine exec_cases (motive := fun k f => k = .primitive →
    (∀ s t, f s = .next t → t.buf = s.buf) ∨ ∃ n off val, f = storeBe n off val)
    ?rdbits ?wrbits ?load ?store nofun (fun _ => nofun) (fun _ => nofun) (fun _ => nofun) nofun nofun nofun nofun
    nofun i
  case rdbits =>
    refine fun a lo hi _ => .inl fun s t h => ?_
    obtain ⟨-, rfl⟩ := execRdbits_next h
    rfl
  case wrbits =>
    refine fun a lo hi val _ => .inl fun s t h => ?_
    obtain ⟨-, ⟨-, rfl⟩ | ⟨-, rfl⟩⟩ := execWrbits_next h <;> rfl
  case load =>
    refine fun n off k _ => .inl fun s t h => ?_
    obtain ⟨-, _, -, rfl⟩ | ⟨-, rfl⟩ := loadBe_next h <;> rfl
  case store => exact fun n off val _ => .inr ⟨n, off, val, rfl⟩

/-- Writing an integer again where it stands changes no cell, and cells in canonical form have one form. -/
theorem Memory.memWrite_memWrite {m : Memory} (hm : m.wf = true) (off n v : Nat) :
    (m.memWrite off n v).memWrite off n v = m.memWrite off n v := by
  refine Memory.eq_of_get_eq _ _ (Memory.wf_memWrite _ _ _ _ (Memory.wf_memWrite _ _ _ _ hm))
    (Memory.wf_memWrite _ _ _ _ hm) fun i => ?_
  by_cases hi : off ≤ i ∧ i < off + n
  · exact (Memory.fieldAt_memWrite _ off n v).get_eq (Memory.fieldAt_memWrite m off n v) i hi.1 hi.2
  · exact Memory.get_memWrite_outside _ _ _ _ _ (by omega)

/-- A store that completed completes again and stores the same octets in the same cells. -/
theorem storeBe_again {n : Nat} {off : BitVec 10} {val : BitVec 64} {s t : State} (hs : s.buf.wf = true)
    (h : storeBe n off val s = .next t) : storeBe n off val t = .next t := by
  rcases storeBe_next h with ⟨hl, hfit, ht⟩ | ⟨hl, hbig, rfl⟩ | ⟨hl, rfl⟩
  · have hl' : off.toNat + n ≤ t.len.toNat := ht ▸ hl
    rw [storeBe_inBounds val hl', if_pos hfit, ht]
    simp only [Memory.memWrite_memWrite hs]
    rfl
  · exact (storeBe_inBounds val hl).trans (if_neg (Nat.not_lt.2 hbig))
  · exact storeBe_outOfBounds val (Nat.not_le.2 hl)

/-- Settles O42: a decode leaves `BUF` and `LEN`, an encode `MSG`, a primitive all but the cells that a store writes. -/
theorem instructionsIdempotent : Obligations.InstructionsIdempotent := by
  intro i s t hs h
  obtain ⟨-, hmsg, hdecode, hlen⟩ := stateChangedOnlyAsDeclared i s t h
  cases hk : opClass i with
  | primitive =>
    rcases primitive_keeps_buf_or_stores i hk with hbuf | ⟨n, off, val, hstore⟩
    · exact exec_again_of_agree h (agreeFor_of_all (hbuf s t h) (hlen hk) (hmsg (by simp [hk])))
    · rw [hstore] at h ⊢
      exact storeBe_again hs h
  | decode => exact exec_again_of_agree h (hk ▸ hdecode hk)
  | encode => exact exec_again_of_agree h (hk ▸ hmsg (by simp [hk]))

end Sys2Proof.Machine
end

section
/-!
PROOFS. The message registers do not alias (R29), the state after reset (R40) and the first operation from it (R262),
and what a host read answers (R39).
-/

namespace Sys2Proof.Machine

/-! ## Registers read after a write, group by group -/

@[simp] theorem HRegs.get_set_self (g : HRegs) (r : HReg) (v : BitVec r.width) : (g.set r v).get r = some v := by
  cases r <;> rfl

theorem HRegs.get_set_ne (g : HRegs) {r r' : HReg} (v : BitVec r.width) (h : r' ≠ r) :
    (g.set r v).get r' = g.get r' := by
  cases r <;> cases r' <;> try rfl
  all_goals exact absurd rfl h

@[simp] theorem AdpRegs.get_set_self (g : AdpRegs) (r : AdpReg) (v : BitVec r.width) :
    (g.set r v).get r = some v := by
  cases r <;> rfl

theorem AdpRegs.get_set_ne (g : AdpRegs) {r r' : AdpReg} (v : BitVec r.width) (h : r' ≠ r) :
    (g.set r v).get r' = g.get r' := by
  cases r <;> cases r' <;> try rfl
  all_goals exact absurd rfl h

@[simp] theorem AcmpRegs.get_set_self (g : AcmpRegs) (r : AcmpReg) (v : BitVec r.width) :
    (g.set r v).get r = some v := by
  cases r <;> rfl

theorem AcmpRegs.get_set_ne (g : AcmpRegs) {r r' : AcmpReg} (v : BitVec r.width) (h : r' ≠ r) :
    (g.set r v).get r' = g.get r' := by
  cases r <;> cases r' <;> try rfl
  all_goals exact absurd rfl h

@[simp] theorem Msg.getAecp_setAecp_self (m : Msg) (r : AecpReg) (v : BitVec r.width) :
    (m.setAecp r v).getAecp r = some v := by
  cases r <;> rfl

theorem Msg.getAecp_setAecp_ne (m : Msg) {r r' : AecpReg} (v : BitVec r.width) (h : r' ≠ r) :
    (m.setAecp r v).getAecp r' = m.getAecp r' := by
  cases r <;> cases r' <;> try rfl
  all_goals exact absurd rfl h

/-- Writing a register of the AECP groups leaves the other three groups alone. -/
theorem Msg.setAecp_groups (m : Msg) (r : AecpReg) (v : BitVec r.width) :
    (m.setAecp r v).h = m.h ∧ (m.setAecp r v).adp = m.adp ∧ (m.setAecp r v).acmp = m.acmp := by
  cases r <;> exact ⟨rfl, rfl, rfl⟩

theorem Msg.get_set_self (m : Msg) (r : MsgReg) (v : BitVec r.width) : (m.set r v).get r = some v := by
  cases r with
  | h r => exact m.h.get_set_self r v
  | adp r => exact m.adp.get_set_self r v
  | acmp r => exact m.acmp.get_set_self r v
  | aecp r => exact m.getAecp_setAecp_self r v

/-- A register of another group, or another register of the same group, reads as before (R29). -/
theorem Msg.get_set_ne (m : Msg) {r r' : MsgReg} (v : BitVec r.width) (h : r' ≠ r) :
    (m.set r v).get r' = m.get r' := by
  cases r with
  | h r =>
    cases r' with
    | h r' => exact m.h.get_set_ne v fun e => h (congrArg MsgReg.h e)
    | adp r' | acmp r' => rfl
    | aecp r' => cases r' <;> rfl
  | adp r =>
    cases r' with
    | adp r' => exact m.adp.get_set_ne v fun e => h (congrArg MsgReg.adp e)
    | h r' | acmp r' => rfl
    | aecp r' => cases r' <;> rfl
  | acmp r =>
    cases r' with
    | acmp r' => exact m.acmp.get_set_ne v fun e => h (congrArg MsgReg.acmp e)
    | h r' | adp r' => rfl
    | aecp r' => cases r' <;> rfl
  | aecp r =>
    obtain ⟨hh, hadp, hacmp⟩ := m.setAecp_groups r v
    cases r' with
    | h r' => exact congrArg (HRegs.get · r') hh
    | adp r' => exact congrArg (AdpRegs.get · r') hadp
    | acmp r' => exact congrArg (AcmpRegs.get · r') hacmp
    | aecp r' => exact m.getAecp_setAecp_ne v fun e => h (congrArg MsgReg.aecp e)

/-- Settles O43: each group is storage of its own, and so is each register in it. -/
theorem registersDoNotAlias : Obligations.RegistersDoNotAlias := fun m r v =>
  ⟨m.get_set_self r v, fun _ => m.get_set_ne v, m.set_data_dlen r v⟩

/-! ## Reset -/

theorem Msg.get_empty (r : MsgReg) : Msg.empty.get r = none := by
  cases r with
  | h r | adp r | acmp r | aecp r => cases r <;> rfl

/-- Settles O45: every field of the reset state is written out. -/
theorem resetValues : Obligations.ResetValues :=
  ⟨Memory.get_nil, rfl, Msg.get_empty, Memory.get_nil, rfl, rfl, rfl, rfl, rfl⟩

/-- After reset `LEN` is 0, so every decode raises TruncatedPacket(0), and the message registers hold nothing, so every
encode is refused (R262). -/
theorem exec_reset (i : Instr) :
    (opClass i = .decode → exec i State.reset = .next { State.reset with err := 1, errinfo := some 0 }) ∧
      (opClass i = .encode → exec i State.reset = .refused .encodeReadsNone) :=
  exec_cases (motive := fun k f =>
      (k = .decode → f State.reset = .next { State.reset with err := 1, errinfo := some 0 }) ∧
        (k = .encode → f State.reset = .refused .encodeReadsNone))
    (fun _ _ _ => ⟨nofun, nofun⟩) (fun _ _ _ _ => ⟨nofun, nofun⟩) (fun _ _ _ => ⟨nofun, nofun⟩)
    (fun _ _ _ => ⟨nofun, nofun⟩)
    ⟨fun _ => decodeHeader_short _ (by decide), nofun⟩
    (fun _ => ⟨fun _ => decodeAdp_short _ _ (by decide), nofun⟩)
    (fun _ => ⟨fun _ => decodeAcmp_short _ _ (by decide), nofun⟩)
    (fun _ => ⟨fun _ => decodeAecp_short _ _ (by decide), nofun⟩)
    ⟨fun _ => decodeMessage_short _ (by decide), nofun⟩
    ⟨nofun, fun _ => encodeHeader_refused _ ⟨.cd, rfl⟩⟩
    ⟨nofun, fun _ => encodeAdp_refused _ (.inl ⟨.cd, rfl⟩)⟩
    ⟨nofun, fun _ => encodeAcmp_refused _ (.inl ⟨.cd, rfl⟩)⟩
    ⟨nofun, fun _ => encodeAecp_refused (.inl ⟨.cd, rfl⟩)⟩ i

/-- After reset `LEN` is 0, so every access of the buffer is past it (R262). -/
theorem not_inBounds_reset (off : BitVec 10) {n : Nat} (hn : 0 < n) : ¬ off.toNat + n ≤ State.reset.len.toNat :=
  fun h => absurd (h.trans_eq rfl : off.toNat + n ≤ 0) (by omega)

theorem loadBe_reset {n : Nat} (hn : 0 < n) (off : BitVec 10) (k : Nat → BitVec 64) :
    loadBe n off State.reset k = .next { State.reset with err := 1, errinfo := some 0 } :=
  loadBe_outOfBounds k (not_inBounds_reset off hn)

theorem storeBe_reset {n : Nat} (hn : 0 < n) (off : BitVec 10) (val : BitVec 64) :
    storeBe n off val State.reset = .next { State.reset with err := 1, errinfo := some 0 } :=
  storeBe_outOfBounds val (not_inBounds_reset off hn)

/-- Settles O51: the buffer accesses are past `LEN` at once; the bit ranges need nothing but a range. -/
theorem firstRequestAfterReset : Obligations.FirstRequestAfterReset := by
  refine ⟨fun i => (exec_reset i).1, fun off val i hi => ?_, fun i => (exec_reset i).2, fun a lo hi val hle => ?_⟩
  · fin_cases hi
    exacts [loadBe_reset (n := 2) (by decide) off (.ofNat 64), loadBe_reset (n := 4) (by decide) off (.ofNat 64),
      loadBe_reset (n := 8) (by decide) off (.ofNat 64), storeBe_reset (n := 2) (by decide) off val,
      storeBe_reset (n := 4) (by decide) off val, storeBe_reset (n := 8) (by decide) off val,
      loadBe_reset (n := 4) (by decide) off fun v => comparisonResult (decide (v = val.toNat))]
  · refine ⟨⟨_, execRdbits_range a _ hle⟩, ?_⟩
    have hexec : exec (.wrbits a lo hi val) State.reset = _ := execWrbits_range a val _ hle
    split at hexec <;> exact ⟨_, hexec⟩

/-! ## Host reads -/

/-- A host read is settled by the value handed over (R39). -/
theorem step_read {s : State} {what : Readable} {rest : List Input} (h : s.inputs = .host (.read what) :: rest) :
    step s = if (hostValue s what).isSome then .next { s with inputs := rest } else .refused (.readOfNone what) := by
  have hvalue : hostValue { s with inputs := rest } what = hostValue s what := by cases what <;> rfl
  rw [step_host h, hostStep, hostRead, hvalue]
  cases hostValue s what <;> rfl

/-- Settles O53: a read settles the step; what it hands over is none exactly where the register or cell holds none. -/
theorem hostReads : Obligations.HostReads := by
  intro s rest what hin
  have hrefused : step s = .refused (.readOfNone what) ↔ hostValue s what = none := by
    rw [step_read hin]
    cases hostValue s what <;> simp
  refine ⟨?_, hrefused.trans ?_⟩
  · rw [step_read hin]
    split
    · exact .inl rfl
    · exact .inr rfl
  · cases what with
    | buf off | reg r | data i | dlen | errinfo => exact Option.map_eq_none_iff
    | len | err => exact iff_false_intro (Option.some_ne_none _)
    | res => rfl

end Sys2Proof.Machine
end

section
/-!
PROOFS. The round trips of the four codecs (R144, R156, R168, R193): what an encode builds is what the decode reads, and
what a decode read is what the encode writes back; a frame fixes its cells, so equal messages stand in equal cells.
-/

namespace Sys2Proof.Machine

/-! ## Header -/

/-- ENCHDR leaves a whole header for DECHDR to read (R144 (a)). -/
theorem dechdr_after_enchdr {s : State} {h : Header} (hh : s.msg.h = .of h) :
    ∃ t u, exec .enchdr s = .next t ∧ exec .dechdr t = .next u ∧ u.err = 0 ∧ u.msg.h = s.msg.h := by
  have hdecode := decodeHeader_ok (s.finishEncode (writeHeader [] h) 4) h
    (toNat_ofNat_length (n := 4) (by decide)).ge (headerAt_writeHeader [] h)
  exact ⟨_, _, encodeHeader_ok s h hh, hdecode, rfl, hh.symm⟩

/-- DECHDR leaves a whole header for ENCHDR to write (R144 (b)). -/
theorem enchdr_after_dechdr {s : State} (hs : BufferOk s) (hl : 4 ≤ s.len.toNat) :
    ∃ t u, exec .dechdr s = .next t ∧ exec .enchdr t = .next u ∧ u.err = 0 ∧ u.len = 4 ∧
      ∀ i, i < 4 → u.buf.get i = s.buf.get i := by
  obtain ⟨h, hh⟩ := exists_headerAt s.buf _ hs.1 hl
  have hencode := encodeHeader_ok (s.finishDecode (headerMsg h)) h rfl
  exact ⟨_, _, decodeHeader_ok s h hl hh, hencode, rfl, rfl, (headerAt_writeHeader [] h).get_eq hh⟩

/-- Settles O11: the header is read exactly where it stands, and it stands where it is written. -/
theorem headerRoundTrip : Obligations.HeaderRoundTrip :=
  ⟨fun _ _ => dechdr_after_enchdr, fun _ => enchdr_after_dechdr⟩

/-! ## ADP -/

/-- DECADP decodes an ADP frame of at least 68 octets (R151). -/
theorem exec_decadp_of_frame {s : State} {h : Header} {b : Discovery} (hframe : AdpFrame s.buf h b)
    (hl : 68 ≤ s.len.toNat) : exec .decadp s = .next (s.finishDecode (adpMsg h b)) := by
  obtain ⟨hh, hb⟩ := hframe
  have hexec : exec .decadp s = decodeAdp (some h) s := congrArg (decodeAdp · s) ((readHeader_eq_some _ _).2 hh)
  exact hexec.trans (decodeAdp_ok s h b hl hb)

theorem AdpFrame.get_eq {m n : Memory} {h : Header} {b : Discovery} (h1 : AdpFrame m h b) (h2 : AdpFrame n h b)
    (i : Nat) (hi : i < 68) : m.get i = n.get i := by
  rcases Nat.lt_or_ge i 4 with hlt | hge
  · exact h1.1.get_eq h2.1 i hlt
  · exact h1.2.get_eq h2.2 i hge hi

theorem decadp_after_encadp {s : State} {h : Header} {b : Discovery} (hh : s.msg.h = .of h)
    (hb : s.msg.adp = .of b) :
    ∃ t u, exec .encadp s = .next t ∧ exec .decadp t = .next u ∧ u.err = 0 ∧ u.msg.h = s.msg.h ∧
      u.msg.adp = s.msg.adp := by
  obtain ⟨-, hencodes⟩ := encadpEncodesDiscovery
  obtain ⟨m, hframe, -, hencode⟩ := (hencodes s).1 h b hh hb
  exact ⟨_, _, hencode, exec_decadp_of_frame hframe (Nat.le_refl 68), rfl, hh.symm, hb.symm⟩

theorem encadp_after_decadp {s : State} (hs : BufferOk s) (hl : 68 ≤ s.len.toNat) :
    ∃ t u, exec .decadp s = .next t ∧ exec .encadp t = .next u ∧ u.err = 0 ∧ u.len = 68 ∧
      ∀ i, i < 68 → u.buf.get i = s.buf.get i := by
  obtain ⟨h, hh⟩ := exists_headerAt s.buf _ hs.1 (by omega)
  obtain ⟨b, hb⟩ := exists_discoveryAt s.buf _ hs.1 hl
  obtain ⟨-, hencodes⟩ := encadpEncodesDiscovery
  obtain ⟨m, hframe, -, hencode⟩ := (hencodes (s.finishDecode (adpMsg h b))).1 h b rfl rfl
  exact ⟨_, _, exec_decadp_of_frame ⟨hh, hb⟩ hl, hencode, rfl, rfl, hframe.get_eq ⟨hh, hb⟩⟩

/-- Settles O14: the frame that ENCADP builds is the frame that DECADP reads. -/
theorem adpRoundTrip : Obligations.AdpRoundTrip :=
  ⟨fun _ _ _ => decadp_after_encadp, fun _ => encadp_after_decadp⟩

/-! ## ACMP -/

/-- DECACMP decodes an ACMP frame of at least 56 octets whose message type and status are defined (R161). -/
theorem exec_decacmp_of_frame {s : State} {h : Header} {b : Connection} (hframe : AcmpFrame s.buf h b)
    (hl : 56 ≤ s.len.toNat) (hcheck : acmpCheck h = none) :
    exec .decacmp s = .next (s.finishDecode (acmpMsg h b)) :=
  (exec_decacmp_of_headerAt hframe.1).trans (decodeAcmp_ok s h b hl hcheck hframe.2)

/-- ENCACMP encodes an ACMP message whose message type and status are defined (R162). -/
theorem exec_encacmp_of_regs {s : State} {h : Header} {b : Connection} (hh : s.msg.h = .of h)
    (hb : s.msg.acmp = .of b) (hcheck : acmpCheck h = none) :
    ∃ m : Memory, AcmpFrame m h b ∧
      exec .encacmp s = .next { s with buf := m, len := 56, res := none, err := 0, errinfo := none } :=
  ⟨_, acmpFrame_write h b, encodeAcmp_ok s h b hh hb hcheck⟩

/-- A DECACMP that succeeds found a whole frame in the domains, whatever the rest of the buffer (R161). -/
theorem decacmp_next_frame {s t : State} (h : exec .decacmp s = .next t) (herr : t.err = 0) :
    ∃ x b, AcmpFrame s.buf x b ∧ acmpCheck x = none ∧ t = s.finishDecode (acmpMsg x b) := by
  rcases decodeAcmp_next h with ⟨-, rfl⟩ | ⟨-, x, hx, ⟨e, -, rfl⟩ | ⟨hcheck, b, hb, rfl⟩⟩
  · exact absurd herr (err_raise_ne_zero _ _ _)
  · exact absurd herr (err_raise_ne_zero _ _ _)
  · exact ⟨x, b, ⟨(readHeader_eq_some _ _).1 hx, (readConnection_eq_some _ _).1 hb⟩, hcheck, rfl⟩

theorem AcmpFrame.get_eq {m n : Memory} {h : Header} {b : Connection} (h1 : AcmpFrame m h b) (h2 : AcmpFrame n h b)
    (i : Nat) (hi : i < 56) : m.get i = n.get i := by
  rcases Nat.lt_or_ge i 4 with hlt | hge
  · exact h1.1.get_eq h2.1 i hlt
  · exact h1.2.get_eq h2.2 i hge hi

/-- Settles O17: both directions make the same domain checks, so a message that one accepts the other does. -/
theorem acmpRoundTrip : Obligations.AcmpRoundTrip := by
  constructor
  · intro s h b hh hb hty hstatus
    have hcheck := acmpCheck_none h hty hstatus
    obtain ⟨m, hframe, hencode⟩ := exec_encacmp_of_regs hh hb hcheck
    exact ⟨_, _, hencode, exec_decacmp_of_frame hframe (Nat.le_refl 56) hcheck, rfl, rfl, hh.symm, hb.symm⟩
  · intro s t hdecode herr
    obtain ⟨x, b, hframe, hcheck, rfl⟩ := decacmp_next_frame hdecode herr
    obtain ⟨m, hframe', hencode⟩ := exec_encacmp_of_regs (s := s.finishDecode (acmpMsg x b)) rfl rfl hcheck
    exact ⟨_, hencode, rfl, rfl, hframe'.get_eq hframe⟩

/-! ## AECP -/

/-- The frame that ENCAECP builds (R182). -/
def aecpBuffer (h : Header) (c : AecpCommon) (p : Payload) (bs : List Byte) : Memory :=
  (writePayload (writeAecpCommon (writeHeader [] h) c) p).writeOctets p.variant.dataStart bs

/-- What ENCAECP reads of the registers of an encodable message; nothing is asked of `DATA` from `DLEN` on. -/
structure HoldsAecp (m : Msg) (x : Header) (c : AecpCommon) (p : Payload) (bs : List Byte) : Prop where
  header : m.h = .of x
  common : m.aecp = .of c
  payload : m.HoldsPayload p
  dlen : m.dlen = some (BitVec.ofNat 10 bs.length)
  data : m.data.readOctets 0 bs.length = some bs
  selected : variantOf x.messageType = .variant p.variant
  fits : p.variant.dataStart + bs.length ≤ Config.bufCap

/-- An encodable message is encoded as its frame (R182). -/
theorem exec_encaecp_of_holds {s : State} {x : Header} {c : AecpCommon} {p : Payload} {bs : List Byte}
    (hm : HoldsAecp s.msg x c p bs) :
    exec .encaecp s = .next (s.finishEncode (aecpBuffer x c p bs) (p.variant.dataStart + bs.length)) := by
  have hexec : exec .encaecp s = _ := encodeAecp_variant hm.header hm.common hm.selected
  have hcap : bs.length ≤ Config.bufCap := (Nat.le_add_left _ _).trans hm.fits
  exact hexec.trans (encodeAecpPayload_ok s x c p bs _ ((s.msg.payload_eq_some_iff p).2 hm.payload) hm.dlen
    (toNat_ofNat_length hcap) hm.data hm.fits)

/-- An ENCAECP that succeeds found an encodable message (R182). -/
theorem encaecp_next_holds {s t : State} (h : exec .encaecp s = .next t) (herr : t.err = 0) :
    ∃ x c p bs, HoldsAecp s.msg x c p bs ∧
      t = s.finishEncode (aecpBuffer x c p bs) (p.variant.dataStart + bs.length) := by
  obtain ⟨x, c, hx, hc, ⟨-, rfl⟩ | ⟨-, rfl⟩ | ⟨v, hv, h'⟩⟩ := encodeAecp_next h
  · exact absurd herr (err_raise_ne_zero _ _ _)
  · exact absurd herr (err_raise_ne_zero _ _ _)
  · obtain ⟨p, d, hp, hd, ⟨-, rfl⟩ | ⟨hmax, bs, hbs, -⟩⟩ := encodeAecpPayload_next h'
    · exact absurd herr (err_raise_ne_zero _ _ _)
    · obtain rfl := variant_of_payload hp
      obtain ⟨hlen, -⟩ := (Memory.readOctets_eq_some _ _ _ _).1 hbs
      have hbudget := p.variant.dataMax_add_dataStart
      have hm : HoldsAecp s.msg x c p bs := {
        header := (HRegs.value_eq_some _ _).1 hx
        common := (AecpRegs.value_eq_some _ _).1 hc
        payload := (s.msg.payload_eq_some_iff p).1 hp
        dlen := by rw [hd, hlen, BitVec.ofNat_toNat, BitVec.setWidth_eq]
        data := hlen.symm ▸ hbs
        selected := hv
        fits := by simp only [Config.bufCap]; omega }
      exact ⟨x, c, p, bs, hm, Host.Outcome.next.inj (h.symm.trans (exec_encaecp_of_holds hm))⟩

/-- A DECAECP that succeeds found a whole frame that ends at `LEN` (R177, R187). -/
theorem decaecp_next_frame {s t : State} (h : exec .decaecp s = .next t) (herr : t.err = 0) :
    ∃ x c p bs, AecpFrame s.buf x c p bs ∧ variantOf x.messageType = .variant p.variant ∧
      s.len.toNat = p.variant.dataStart + bs.length ∧ t = s.finishDecode (aecpMsg x c p bs) := by
  rcases decodeAecp_next h with ⟨-, rfl⟩ | ⟨-, x, c, hx, hc, ⟨-, rfl⟩ | ⟨-, rfl⟩ | ⟨v, hv, h⟩⟩
  · exact absurd herr (err_raise_ne_zero _ _ _)
  · exact absurd herr (err_raise_ne_zero _ _ _)
  · exact absurd herr (err_raise_ne_zero _ _ _)
  · rcases decodeAecpPayload_next h with ⟨-, rfl⟩ | ⟨hl, p, bs, hp, hbs, rfl⟩
    · exact absurd herr (err_raise_ne_zero _ _ _)
    · obtain ⟨rfl, hpayload⟩ := (readPayload_eq_some _ _ _).1 hp
      rw [Variant.dataStart_eq] at hl hbs
      obtain ⟨hlen, hd⟩ := (readOctets_eq_some_iff _ _ _ _).1 hbs
      have hframe : AecpFrame s.buf x c p bs :=
        ⟨(readHeader_eq_some _ _).1 hx, (readAecpCommon_eq_some _ _).1 hc, hpayload, hd⟩
      exact ⟨x, c, p, bs, hframe, hv, by omega, rfl⟩

/-- What DECAECP leaves in the registers is encodable (R193 (b)). -/
theorem holdsAecp_aecpMsg {x : Header} {c : AecpCommon} {p : Payload} {bs : List Byte}
    (hv : variantOf x.messageType = .variant p.variant) (hfits : p.variant.dataStart + bs.length ≤ Config.bufCap) :
    HoldsAecp (aecpMsg x c p bs) x c p bs := by
  obtain ⟨hheader, hcommon, -, -, hdata, hdlen⟩ := aecpMsg_common x c p bs
  exact {
    header := hheader
    common := hcommon
    payload := (Msg.payload_eq_some_iff _ p).1 (payload_aecpMsg x c p bs)
    dlen := hdlen
    data := (readOctets_eq_some_iff _ _ _ _).2 ⟨rfl, hdata ▸ octetsAt_ofOctets bs⟩
    selected := hv
    fits := hfits }

/-- Settles O25: `BUF` holds exactly the frame that was decoded, and the encode builds exactly that frame. -/
theorem aecpReencodeReproduces : Obligations.AecpReencodeReproduces := by
  rintro s t ⟨hbuf, hcap⟩ hdecode herr
  obtain ⟨x, c, p, bs, hframe, hv, hlen, rfl⟩ := decaecp_next_frame hdecode herr
  have hfits : p.variant.dataStart + bs.length ≤ Config.bufCap := hlen ▸ hcap
  have hencode := exec_encaecp_of_holds (s := s.finishDecode (aecpMsg x c p bs)) (holdsAecp_aecpMsg hv hfits)
  have hsame : aecpBuffer x c p bs = s.buf :=
    Memory.eq_of_holdsExactly (holdsExactly_aecpFrame x c p bs) (hlen ▸ hbuf)
      ((aecpFrame_write x c p bs).get_eq hframe)
  have hlen' : BitVec.ofNat 10 (p.variant.dataStart + bs.length) = s.len := by
    rw [← hlen, BitVec.ofNat_toNat, BitVec.setWidth_eq]
  exact ⟨_, hencode, rfl, hsame, hlen', (congrArg BitVec.toNat hlen').trans_le hcap⟩

/-- Settles O26: the frame that ENCAECP built is decoded whole, with the data to the end of the buffer. -/
theorem aecpDecodeOfEncode : Obligations.AecpDecodeOfEncode := by
  intro s t hm hencode herr
  obtain ⟨x, c, p, bs, henc⟩ := exists_encodedAecp hm hencode herr
  obtain ⟨hh, hc, hp, hd⟩ := henc.frame
  have hdecode := (exec_decaecp_of_headerAt hh).trans (decodeAecp_ok t x c p bs henc.selected hc henc.length hp hd)
  obtain ⟨hheader, hcommon, -, -, hdata, hdlen⟩ := aecpMsg_common x c p bs
  refine ⟨_, hdecode, rfl, hheader.trans henc.header.symm, hcommon.trans henc.common.symm,
    hdata.trans henc.data.symm, hdlen.trans henc.dlen.symm, fun ty hty => ?_⟩
  obtain rfl : x.messageType = ty := Option.some.inj ((congrArg HRegs.messageType henc.header).symm.trans hty)
  exact selectedGroup_eq henc.selected henc.payload ((Msg.payload_eq_some_iff _ p).1 (payload_aecpMsg x c p bs))

/-! ## The response bit (R193 (d)) -/

/-- A command and its response select the same variant (R176). -/
theorem variantOf_xor_one (t : BitVec 4) : variantOf (t ^^^ 1) = variantOf t := by
  revert t
  decide

/-- Octet 1 of a header: status/version flag, version, message type from the most significant bit down (R86, R90). -/
theorem HeaderAt.get_one {m : Memory} {x : Header} (hx : HeaderAt m x) :
    m.get 1 = some (x.sv ++ x.version ++ x.messageType) := by
  have hpack := packHeader_eq x
  simp only [packHeader, List.cons.injEq] at hpack
  obtain ⟨-, hone, -⟩ := hpack
  rw [hx.2.1, hone]

/-- Headers that differ in the message type alone differ in octet 1 alone. -/
theorem HeaderAt.get_eq_of_messageType {m n : Memory} {x : Header} {t : BitVec 4} (h1 : HeaderAt m x)
    (h2 : HeaderAt n { x with messageType := t }) {i : Nat} (hi : i < 4) (hne : i ≠ 1) : n.get i = m.get i := by
  obtain ⟨a0, -, a2, a3⟩ := h1
  obtain ⟨b0, -, b2, b3⟩ := h2
  obtain rfl | rfl | rfl : i = 0 ∨ i = 2 ∨ i = 3 := by omega
  · rw [a0, b0]
  · rw [a2, b2]
  · rw [a3, b3]

/-- After the header, the cells of a frame do not depend on it. -/
theorem AecpFrame.get_eq_of_header {m n : Memory} {x x' : Header} {c : AecpCommon} {p : Payload} {bs : List Byte}
    (h1 : AecpFrame m x c p bs) (h2 : AecpFrame n x' c p bs) {i : Nat} (hl : 4 ≤ i)
    (hi : i < p.variant.dataStart + bs.length) : m.get i = n.get i := by
  obtain ⟨-, hc1, hp1, hd1⟩ := h1
  obtain ⟨-, hc2, hp2, hd2⟩ := h2
  rcases Nat.lt_or_ge i 22 with hcommon | hge
  · exact hc1.get_eq hc2 i hl hcommon
  rcases Nat.lt_or_ge i p.variant.dataStart with hfixed | hge'
  · exact hp1.get_eq hp2 i hge hfixed
  · exact hd1.get_eq hd2 i hge' hi

theorem Memory.get_eq_none_of_holdsExactly {m : Memory} {n i : Nat} (hm : m.holdsExactly n) (hi : n ≤ i) :
    m.get i = none := by
  rw [Memory.get_eq_none_iff, hm, List.mem_range]
  omega

/-- Frames of messages that differ in the message type alone differ in octet 1 alone. -/
theorem get_aecpBuffer_of_messageType (x : Header) (t : BitVec 4) (c : AecpCommon) (p : Payload) (bs : List Byte)
    {i : Nat} (hne : i ≠ 1) :
    (aecpBuffer { x with messageType := t } c p bs).get i = (aecpBuffer x c p bs).get i := by
  have hframe := aecpFrame_write x c p bs
  have hframe' := aecpFrame_write { x with messageType := t } c p bs
  rcases Nat.lt_or_ge i 4 with hheader | hge
  · exact hframe.1.get_eq_of_messageType hframe'.1 hheader hne
  rcases Nat.lt_or_ge i (p.variant.dataStart + bs.length) with hin | hout
  · exact hframe'.get_eq_of_header hframe hge hin
  · exact (Memory.get_eq_none_of_holdsExactly (holdsExactly_aecpFrame _ c p bs) hout).trans
      (Memory.get_eq_none_of_holdsExactly (holdsExactly_aecpFrame x c p bs) hout).symm

/-- The response bit is the least significant bit of octet 1. -/
theorem append_xor_one (sv : BitVec 1) (version : BitVec 3) (t : BitVec 4) :
    sv ++ version ++ (t ^^^ 1) = (sv ++ version ++ t) ^^^ 1#8 := by
  rw [show 1#8 = (0#1 ++ 0#3 ++ 1#4 : BitVec 8) from rfl, BitVec.xor_append, BitVec.xor_append, BitVec.xor_zero,
    BitVec.xor_zero]
  rfl

/-- Settles O27: the message with the bit inverted is encodable too, by the same variant, and its frame differs in the
low bit of octet 1 alone. -/
theorem aecpResponseBitStandsAlone : Obligations.AecpResponseBitStandsAlone := by
  intro s t ty hty hencode herr
  obtain ⟨x, c, p, bs, hm, rfl⟩ := encaecp_next_holds hencode herr
  obtain rfl : x.messageType = ty := Option.some.inj ((congrArg HRegs.messageType hm.header).symm.trans hty)
  have hm' : HoldsAecp { s.msg with h := { s.msg.h with messageType := some (x.messageType ^^^ 1) } }
      { x with messageType := x.messageType ^^^ 1 } c p bs :=
    { hm with
      header := by rw [hm.header]; rfl
      selected := (variantOf_xor_one _).trans hm.selected }
  have hone := (aecpFrame_write x c p bs).1.get_one
  have hone' := (aecpFrame_write { x with messageType := x.messageType ^^^ 1 } c p bs).1.get_one
  rw [append_xor_one] at hone'
  exact ⟨_, exec_encaecp_of_holds hm', rfl, rfl, fun i => get_aecpBuffer_of_messageType x _ c p bs, _, hone, hone'⟩

end Sys2Proof.Machine
end
